-- ==== Sys2Proof/Word.lean ====
section
/-!
DEFINITION. The words of HUFFCORE: every quantity is unsigned (00_scope.md R6), a byte has 8 bits, a host-visible
register 32 (R5, REG_W). `BitVec n` gives each register of 10_state.md its declared width.
-/
namespace Sys2Proof

/-- One byte of `IN` or `OUT` (20_memory.md R46); also a byte value 0..255 (a symbol, R5 NSYM). -/
abbrev Byte := BitVec 8

/-- A host-visible register (R5 REG_W), a `FREQ` entry or a node weight (R5 COUNT_W): 32 bits, unsigned. -/
abbrev Word := BitVec 32

end Sys2Proof
end

