-- ==== Sys2Proof/Config.lean ====
section
/-!
DEFINITION. What is fixed for HUFFCORE: the parameters of 00_scope.md R5, the one configuration field the spec allows
a model to carry (HDR_BYTE_ORDER, R43), and what a byte nobody has placed reads as (DESIGN CHOICE, log 2).
There is no free value: 93_implementation_defined.md says every output, flag and error code is determined.
-/
namespace Sys2Proof

/-- HDR_BYTE_ORDER has the single admitted value `little` (20_memory.md R43; 92_eei_decisions.md D5; log 8). -/
inductive ByteOrder where
  | little
deriving DecidableEq, Repr

namespace Config

/-- The byte order of a persisted count (R5 HDR_BYTE_ORDER). -/
def hdrByteOrder : ByteOrder := .little

/-- R5 HDR_BYTES = NSYM x COUNT_BYTES. -/
abbrev hdrBytes : Nat := 1024

/-- R5 MIN_STREAM = HDR_BYTES + TRAILER_BYTES, the shortest legal compressed stream. -/
abbrev minStream : Nat := 1025

/-- R5 MAX_LEN = 2^31 - 1, the largest input length either command accepts. -/
abbrev maxLen : Nat := 2147483647

/-- R5 NNODE: 256 leaves and 255 internal nodes. -/
abbrev nodeCount : Nat := 511

/-- DESIGN CHOICE (unsafe, log 2): what a byte of `IN` the host has not placed, or a byte of `OUT` nobody has written,
reads as. The spec gives neither. -/
def unplacedByte : Byte := 0

end Config
end Sys2Proof
end

