-- ==== Sys2Proof/Machine/State.lean ====
section
/-!
DEFINITION. The state of HUFFCORE (10_state.md) and of what stands at its ports (R27: the content of `IN` and `OUT` and
the host's answers are parameters of the step relation; they are held here so that one step is a function of one state).
Plain data throughout: no field has a function type.
-/
namespace Sys2Proof.Machine

/-- `PHASE`: eleven values (R13). Codes 11 to 15 are never written (30_encoding.md R69), so the type has none. -/
inductive Phase where
  | idle | count | loadhdr | build | emithdr | codegen | pack | finish | rdtrailer | unpack | endcheck
deriving DecidableEq, Repr

/-- `OP`: NONE, COMP, DECOMP; "value 3 is never written" (R12). -/
inductive OpKind where
  | none | comp | decomp
deriving DecidableEq, Repr

/-- The errors `raise` reports (60_exceptions.md R181); their numbers are in Machine/Flags.lean. -/
inductive ErrCode where
  | illcmd | toolarge | short | sum | pad | excess | trunc | count
deriving DecidableEq, Repr

/-- Where inside the running phase the sequencer stands: the loop it is in, with the temporaries of the phase's
pseudocode that are no register. `PHASE <- P` makes it `entry`, "the first step of phase P" (R13, 00_scope.md R8).
DESIGN CHOICE (log 3): 70_reset_and_hazards.md R221 leaves the granularity to the model. -/
inductive Stage where
  /-- the first statement of the phase -/
  | entry
  /-- COUNT, first loop: clearing `FREQ[VIDX]` -/
  | clear
  /-- COUNT, second loop: reading `IN[POS]` -/
  | tally
  /-- LOADHDR: the bytes of the entry `VIDX` read so far, first one first (1 to 3 of them, or none between entries) -/
  | load (got : List Byte)
  /-- BUILD, INIT loop -/
  | initLeaf
  /-- BUILD, `select(none)`: the `best` so far -/
  | scanA (best : Option Byte)
  /-- BUILD, `select(SELA)`: the `best` so far -/
  | scanB (best : Option Byte)
  /-- BUILD, MERGE -/
  | merge
  /-- BUILD, `ROOT <- NEXT - 1` and the successor -/
  | root
  /-- EMITHDR: byte `k` of `FREQ[VIDX]` is next -/
  | emit (k : Fin 4)
  /-- CODEGEN: the calls of `visit` still to make, next one first, each a node and the path to it -/
  | visit (todo : List (BitVec 9 × List Bool))
  /-- PACK, UNPACK: `BYTE <- InByte(..)` is next -/
  | fetch
  /-- PACK: PUSHBIT of bit `CIDX` is next -/
  | push
  /-- FINISH: the trailer is next -/
  | trailer
  /-- UNPACK: WALK of `BYTE[7]` is next -/
  | walk
deriving DecidableEq, Repr

/-- An entry of `NODE` (R24). A leaf's `L` and `R` "do not exist": nothing reads them (log 18). -/
structure Node where
  w : Word
  l : BitVec 9
  r : BitVec 9
deriving DecidableEq, Repr

/-- An entry of `SLOT` (R25): valid bit and root index. -/
structure Slot where
  v : Bool
  n : BitVec 9
deriving DecidableEq, Repr

/-- An entry of `CODE` (R26): the length and the bits, root-side bit first. The bit positions at and above `LEN` are
unspecified and never read, so the list has none (log 18). -/
structure CodeEntry where
  len : BitVec 8
  bits : List Bool
deriving DecidableEq, Repr

/-- A table with one entry per byte value or slot (R23, R25, R26). -/
abbrev Table (α : Type) := Vector α 256

/-- The node arena `NODE[0..510]` (R24). -/
abbrev Arena := Vector Node 511

/-- A byte space (20_memory.md R40): the bytes that differ from `Config.unplacedByte`, addresses strictly rising. -/
abbrev Memory := List Host.Cell

/-- The working registers (R22). -/
structure Work where
  acc : BitVec 8
  free : BitVec 4
  pos : BitVec 32
  cidx : BitVec 8
  byte : BitVec 8
  bcnt : BitVec 4
  cur : BitVec 9
  padreg : BitVec 8
  dlen : BitVec 32
  sum : BitVec 40
  vidx : BitVec 9
  sidx : BitVec 9
  sela : BitVec 8
  selb : BitVec 8
  live : BitVec 9
  next : BitVec 10
  root : BitVec 9
deriving DecidableEq, Repr

/-- The internal tables (R23 to R26). -/
structure Tables where
  freq : Table Word
  node : Arena
  slot : Table Slot
  code : Table CodeEntry
deriving DecidableEq, Repr

/-- One move of the host (R10): the lines of its notation (30_encoding.md R71, R72), what it does at the ports
(70_reset_and_hazards.md R214, R218, R223), and how long it lets the sequencer run in between (log 4). -/
inductive HostMove where
  /-- `RegWrite(off, v)` of the given width in bytes (R20) -/
  | regWrite (off : Word) (bytes : Nat) (v : Word)
  /-- `RegRead(off)` of the given width in bytes (R20) -/
  | regRead (off : Word) (bytes : Nat)
  /-- the next `n` steps are the sequencer's -/
  | run (n : Nat)
  /-- `WAIT`: read `STATUS` until `BUSY = 0` (R72) -/
  | wait
  /-- place a byte in `IN` (R40; at any time, R47) -/
  | putIn (a : Nat) (b : Byte)
  /-- take the output away and open an empty sink (R214 LP4) -/
  | newSink
  /-- start or stop answering `InByte` (R214 LP3, R218) -/
  | inPort (answers : Bool)
  /-- start or stop accepting `OutByte` (R214 LP4, R218) -/
  | outPort (accepts : Bool)
  /-- drive the reset input (R210) -/
  | rst (level : Bool)
deriving DecidableEq, Repr

/-- What stands outside the block (R27): the two byte spaces, the ports' readiness, the reset input, the host's moves
still to come and the values its `RegRead`s returned, newest first. -/
structure Outside where
  inp : Memory
  out : Memory
  inAnswers : Bool
  outAccepts : Bool
  rst : Bool
  script : List HostMove
  reads : List Word
deriving DecidableEq, Repr

/-- The whole state. `BUSY`, `STATUS` and `CMD` are not stored (R15, R16, R17). -/
structure State where
  phase : Phase
  stage : Stage
  op : OpKind
  done : Bool
  err : Bool
  errcode : Word
  inLen : Word
  outCnt : BitVec 40
  work : Work
  tab : Tables
  outside : Outside
deriving DecidableEq, Repr

/-- Reasons a step stops with a fault. Each names an access that the spec says does not exist and that the sequencer
never makes; all of them are safe (the model stops where no behaviour is given), see logs 11 to 13. -/
inductive Fault where
  /-- `InByte(a)` with `a >= IN_LEN`, outside the space `IN` (20_memory.md R40, R41). Raised by COUNT, LOADHDR, PACK,
  RDTRAILER, UNPACK. Safe. -/
  | inputAddress (a : Nat)
  /-- `NODE[n]` with `n > 510`, or a child of a leaf (10_state.md R24). Raised by BUILD, CODEGEN, UNPACK. Safe. -/
  | arenaIndex (n : Nat)
  /-- `select` found no slot; it "is called only when LIVE >= 2" (42_tree_builder.md R112). Raised by BUILD. Safe. -/
  | emptySelect
  /-- `CODE[v].BITS[i]` where the entry has no bit `i` (10_state.md R26). Raised by PACK. Safe. -/
  | codeBit (v : Byte) (i : Nat)
  /-- a path longer than the 255 bits of `BITS` (43_code_table.md R133). Raised by CODEGEN. Safe. -/
  | codePath (length : Nat)
  /-- the stage is none of the running phase's. Raised by every phase. Safe. -/
  | sequencerPosition
deriving DecidableEq, Repr

/-- Reasons a step is refused. -/
inductive Refusal where
  /-- No meaning yet for the instruction with this mnemonic: `exec` itself, and no arm of it now. Safe. -/
  | notModelled (mnemonic : String)
  /-- A register access that is not 32 bits wide at a multiple of 4: "a model refuses any other width or a misaligned
  offset (they spell no access of this hardware)" (10_state.md R20; log 15). Raised by the host's move. Safe. -/
  | registerAccess (off : Word) (bytes : Nat)
deriving DecidableEq, Repr

/-- The working registers after reset. DESIGN CHOICE (unsafe, log 1): 70_reset_and_hazards.md R212 leaves them
unspecified; the model names zero. -/
def Work.reset : Work :=
  { acc := 0, free := 0, pos := 0, cidx := 0, byte := 0, bcnt := 0, cur := 0, padreg := 0, dlen := 0, sum := 0
    vidx := 0, sidx := 0, sela := 0, selb := 0, live := 0, next := 0, root := 0 }

/-- The tables after reset. DESIGN CHOICE (unsafe, log 1), as for `Work.reset`. -/
def Tables.reset : Tables :=
  { freq := Vector.replicate 256 0
    node := Vector.replicate 511 { w := 0, l := 0, r := 0 }
    slot := Vector.replicate 256 { v := false, n := 0 }
    code := Vector.replicate 256 { len := 0, bits := [] } }

/-- The surroundings at the start: nothing placed, nothing written, both ports answering, `rst` released, no move of the
host pending (DESIGN CHOICE, logs 2, 4, 5, 10). -/
def Outside.start : Outside :=
  { inp := [], out := [], inAnswers := true, outAccepts := true, rst := false, script := [], reads := [] }

/-- The machine right after reset (70_reset_and_hazards.md R211, 10_state.md R30). -/
def State.reset : State :=
  { phase := .idle, stage := .entry, op := .none, done := false, err := false, errcode := 0, inLen := 0, outCnt := 0
    work := Work.reset, tab := Tables.reset, outside := Outside.start }

end Sys2Proof.Machine
end

