-- ==== Sys2Proof/Machine/Ops.lean ====
section
/-!
DEFINITION. The shared operations over the state: reading and writing a byte space and a table, the two port
transactions `InByte` and `OutByte` (20_memory.md R41, R42), the control transfer `PHASE <- P` (10_state.md R13), normal
completion `done` (40_commands.md R88) and the error entry `raise` (60_exceptions.md R190).
-/
namespace Sys2Proof.Machine

/-- The three outcomes of one step of this machine. -/
abbrev Res := Host.Outcome State Fault Refusal

/-! ### Byte spaces -/

/-- The byte at an address (R40); an address with no entry reads `Config.unplacedByte` (log 2). -/
def Memory.read : Memory → Nat → Byte
  | [], _ => Config.unplacedByte
  | (k, c) :: rest, a => if k = a then c else Memory.read rest a

/-- The space with the byte `b` at the address `a`, in canonical form: an entry that would equal what an unlisted
address reads as is left out. -/
def Memory.write : Memory → Nat → Byte → Memory
  | [], a, b => if b = Config.unplacedByte then [] else [(a, b)]
  | (k, c) :: rest, a, b =>
    if a < k then
      if b = Config.unplacedByte then (k, c) :: rest else (a, b) :: (k, c) :: rest
    else if a = k then
      if b = Config.unplacedByte then rest else (a, b) :: rest
    else (k, c) :: Memory.write rest a b

/-- The canonical form: addresses strictly rising, no entry equal to what an unlisted address reads as. -/
abbrev Memory.wf (m : Memory) : Prop :=
  m.Pairwise (fun c d => c.1 < d.1) ∧ ∀ c ∈ m, c.2 ≠ Config.unplacedByte

/-- The space with the bytes `bs` placed from the address `a` on. -/
def Memory.place (m : Memory) (a : Nat) : List Byte → Memory
  | [] => m
  | b :: bs => Memory.place (m.write a b) (a + 1) bs

/-- The `n` bytes from the address `a` on. -/
def Memory.bytes (m : Memory) (a n : Nat) : List Byte := (List.range n).map fun i => m.read (a + i)

/-! ### Tables -/

/-- `T[i]` of a table with one entry per byte value (00_scope.md R8). -/
def Table.entry {α : Type} (t : Table α) (i : Byte) : α := t[i.toNat]'i.isLt

/-- `T[i] <- x` (R8). -/
def Table.withEntry {α : Type} (t : Table α) (i : Byte) (x : α) : Table α := t.set i.toNat x i.isLt

/-- `NODE[n]`, none where the arena has no such entry (10_state.md R24). -/
def Arena.node? (a : Arena) (n : BitVec 9) : Option Node := a[n.toNat]?

/-- `NODE[n].L` and `.R`: they exist for `256 <= n <= 510` only (R24). -/
def Arena.children? (a : Arena) (n : BitVec 9) : Option (BitVec 9 × BitVec 9) :=
  if n.toNat < 256 then none
  else match a.node? n with
    | none => none
    | some nd => some (nd.l, nd.r)

/-- `NODE[v].W <- w` for the leaf of byte value `v`; the fields `L` and `R` do not exist and stay as they are (R24). -/
def Arena.withLeafWeight (a : Arena) (v : Byte) (w : Word) : Arena :=
  have h : v.toNat < 511 := Nat.lt_trans v.isLt (by decide)
  a.set v.toNat { (a[v.toNat]'h) with w := w } h

/-- `NODE[n] <- nd`; nothing where the arena has no entry `n`. -/
def Arena.withNode (a : Arena) (n : Nat) (nd : Node) : Arena := a.setIfInBounds n nd

/-! ### Control -/

/-- `PHASE <- P`: "the sequencer's next step is the first step of phase P" (10_state.md R13, 00_scope.md R8). -/
def State.goto (s : State) (p : Phase) : State := { s with phase := p, stage := .entry }

/-- `done` (40_commands.md R88): `DONE <- 1; PHASE <- IDLE`. -/
def State.complete (s : State) : State := { s with done := true, phase := .idle, stage := .entry }

/-- The number of each error, the value `raise` puts in `ERRCODE[7:0]` (60_exceptions.md R181). -/
def ErrCode.code : ErrCode → BitVec 8
  | .illcmd => 0x01
  | .toolarge => 0x02
  | .short => 0x10
  | .sum => 0x11
  | .pad => 0x12
  | .excess => 0x13
  | .trunc => 0x14
  | .count => 0x15

/-- `raise E_X` (60_exceptions.md R190), taking an exception: `ERR <- 1`, `DONE <- 0`, `ERRCODE` the code zero-extended,
`PHASE <- IDLE`. "Nothing else changes"; there is no handler, no saved program counter and no return (R190, R194). -/
def State.raise (s : State) (e : ErrCode) : State :=
  { s with err := true, done := false, errcode := e.code.setWidth 32, phase := .idle, stage := .entry }

/-! ### Ports -/

/-- `InByte(a)` (20_memory.md R41): the byte goes to `k`. An address outside `0 .. IN_LEN - 1` does not exist (fault,
log 11). While the host does not answer, "the sequencer waits": the step changes nothing (70_reset_and_hazards.md R218). -/
def inByte (s : State) (a : Nat) (k : Byte → Res) : Res :=
  if s.inLen.toNat ≤ a then .fault (.inputAddress a)
  else if s.outside.inAnswers then k (s.outside.inp.read a)
  else .next s

/-- `OutByte(v)` once accepted (20_memory.md R42): the byte at position `OUT_CNT`, then `OUT_CNT <- OUT_CNT + 1`. -/
def State.outByte (s : State) (v : Byte) : State :=
  { s with outside.out := s.outside.out.write s.outCnt.toNat v, outCnt := s.outCnt + 1 }

/-- A step that holds an `OutByte`: `k` when the host accepts; while it does not, "the sequencer waits": the step changes
nothing (R42, R218). -/
def whenAccepted (s : State) (k : Res) : Res := if s.outside.outAccepts then k else .next s

end Sys2Proof.Machine
end

