-- ==== Sys2Proof/Machine/Operands.lean ====
section
/-!
DEFINITION. The operands and how each is assembled (30_encoding.md R73): a count from four header bytes and back
(20_memory.md R43), the data length, the bits of a body byte (R44), the padding.
-/
namespace Sys2Proof.Machine

/-- Byte `k` of a persisted count: `c[8k+7 : 8k]` in the little-endian order (20_memory.md R43, R64). -/
def countByte (c : Word) (k : Fin 4) : Byte :=
  match Config.hdrByteOrder with
  | .little => (c >>> (8 * k.val)).setWidth 8

/-- A persisted count from its four bytes in address order (R73):
`zext_32(b0) | zext_32(b1) << 8 | zext_32(b2) << 16 | zext_32(b3) << 24`. -/
def assembleCount (b0 b1 b2 b3 : Byte) : Word :=
  match Config.hdrByteOrder with
  | .little =>
    b0.setWidth 32 ||| b1.setWidth 32 <<< 8 ||| b2.setWidth 32 <<< 16 ||| b3.setWidth 32 <<< 24

/-- The effective address `4 x VIDX` of LOADHDR (40_commands.md R94). -/
def headerAddress (v : BitVec 9) : BitVec 32 := v.setWidth 32 <<< 2

/-- `DLEN = IN_LEN - 1025` (R73). -/
def dataLength (inLen : Word) : Word := inLen - 1025

/-- The number of bits to consume from the data byte at `pos` (45_decoder.md R163): 8, and `8 - PADREG` for the last. -/
def bitsToWalk (pos dlen : Word) (padreg : Byte) : BitVec 4 :=
  if pos = dlen - 1 then 8 - padreg.setWidth 4 else 8

/-- The accumulator after one pushed bit, `((ACC << 1) | bit)[7:0]` (44_encoder.md R141). -/
def pushInto (acc : Byte) (bit : Bool) : Byte := acc <<< 1 ||| (BitVec.ofBool bit).setWidth 8

/-- The trailer `zext_8(FREE[2:0])` (44_encoder.md R143). -/
def trailerByte (free : BitVec 4) : Byte := (free.setWidth 3).setWidth 8

end Sys2Proof.Machine
end

