-- ==== Sys2Proof/Machine/CodeTable.lean ====
section
/-!
DEFINITION. The CodeTableGenerator phase CODEGEN (43_code_table.md R130). One step is one node visited
(70_reset_and_hazards.md R221); the pending calls of `visit` are the hardware stack of R130 and 92_eei_decisions.md D10.
-/
namespace Sys2Proof.Machine

/-- What follows a call of `visit`: the next pending call, or the end of the phase. -/
def afterVisit (todo : List (BitVec 9 × List Bool)) (s : State) : State :=
  match todo with
  | [] => s.goto .pack
  | _ :: _ => { s with stage := .visit todo }

/-- `CODE[n].LEN <- |path|; CODE[n].BITS <- path` for the leaf of byte value `n` (R130). -/
def recordCode (n : Byte) (path : List Bool) (s : State) : State :=
  { s with tab.code := s.tab.code.withEntry n { len := BitVec.ofNat 8 path.length, bits := path } }

/-- One call `visit(n, path)` (R130); `rest` are the calls still to make. A path longer than the 255 positions of `BITS`
does not occur (R133; fault, log 12). -/
def visitNode (n : BitVec 9) (path : List Bool) (rest : List (BitVec 9 × List Bool)) (s : State) : Res :=
  if n.toNat < 256 then
    if path.length ≤ 255 then .next (afterVisit rest (recordCode (n.setWidth 8) path s))
    else .fault (.codePath path.length)
  else match s.tab.node.children? n with
    | none => .fault (.arenaIndex n.toNat)
    | some (l, r) => .next (afterVisit ((l, path ++ [false]) :: (r, path ++ [true]) :: rest) s)

/-- Phase CODEGEN (R130). -/
def execCodegen (s : State) : Res :=
  match s.stage with
  | .entry => visitNode s.work.root [] [] s
  | .visit ((n, path) :: rest) => visitNode n path rest s
  | _ => .fault .sequencerPosition

end Sys2Proof.Machine
end

