-- ==== Sys2Proof/Machine/Flags.lean ====
section
/-!
DEFINITION. The status flags (10_state.md R15) and the host's views of the registers (R16 to R21). HUFFCORE has no
arithmetic condition codes (R15).
-/
namespace Sys2Proof.Machine

/-- `BUSY` "is not stored: it is 1 exactly when PHASE != IDLE" (R15). -/
def State.busy (s : State) : Bool := decide (s.phase ≠ .idle)

/-- What the acceptance of COMPRESS, DECOMPRESS and CLEAR writes first (40_commands.md R82, R83, R84):
`DONE <- 0; ERR <- 0; ERRCODE <- 0; OUT_CNT <- 0; OP <- op`. -/
def State.clearFor (s : State) (op : OpKind) : State :=
  { s with done := false, err := false, errcode := 0, outCnt := 0, op := op }

/-- `STATUS` (R17): bit 0 BUSY, bit 1 DONE, bit 2 ERR, bits 31:3 read as 0. -/
def State.status (s : State) : Word :=
  (BitVec.ofBool s.err ++ BitVec.ofBool s.done ++ BitVec.ofBool s.busy).setWidth 32

/-- `OUT_CNT_LO` (R21): `OUT_CNT[31:0]`. -/
def State.outCntLo (s : State) : Word := s.outCnt.setWidth 32

/-- `OUT_CNT_HI` (R21): bits 7:0 are `OUT_CNT[39:32]`, bits 31:8 read as 0. -/
def State.outCntHi (s : State) : Word := (s.outCnt >>> 32).setWidth 32

/-- The register map of R20 as a read sees it: `CMD` reads 0 (R16), "a read of any other offset returns 0". -/
def State.regValue (s : State) (off : Word) : Word :=
  if off = 0x04 then s.status
  else if off = 0x08 then s.errcode
  else if off = 0x0C then s.inLen
  else if off = 0x10 then s.outCntLo
  else if off = 0x14 then s.outCntHi
  else 0

end Sys2Proof.Machine
end

