-- ==== Sys2Proof/Machine/Commands.lean ====
section
/-!
DEFINITION. The host commands (40_commands.md R80 to R85) and the phase IDLE (10_state.md R13).
-/
namespace Sys2Proof.Machine

/-- Command acceptance (R80): while `BUSY = 1` the write is dropped, "no state changes, no flag is set"; while `rst` is
asserted "every register write is dropped" (70_reset_and_hazards.md R210). -/
def accepted (s : State) (k : Res) : Res := if s.busy || s.outside.rst then .next s else k

/-- NOP (R81). -/
def execNop (s : State) : Res := accepted s (.next s)

/-- COMPRESS at acceptance (R82). -/
def execCompress (s : State) : Res :=
  accepted s <|
    let s1 := s.clearFor .comp
    if Config.maxLen < s.inLen.toNat then .next (s1.raise .toolarge)
    else .next (s1.goto .count)

/-- DECOMPRESS at acceptance (R83): `E_TOOLARGE`, then `E_SHORT`. -/
def execDecompress (s : State) : Res :=
  accepted s <|
    let s1 := s.clearFor .decomp
    if Config.maxLen < s.inLen.toNat then .next (s1.raise .toolarge)
    else if s.inLen.toNat < Config.minStream then .next (s1.raise .short)
    else .next (s1.goto .loadhdr)

/-- CLEAR (R84). -/
def execClear (s : State) : Res := accepted s (.next (s.clearFor .none))

/-- A reserved command word (R85): `raise E_ILLCMD`, whichever word it is. -/
def execReservedCmd (_opcode : Word) (s : State) : Res := accepted s (.next (s.raise .illcmd))

/-- IDLE: "the sequencer has no step; only a host command leaves IDLE" (10_state.md R13). -/
def execIdle (s : State) : Res := .next s

end Sys2Proof.Machine
end

