-- ==== Sys2Proof/Machine/Frequency.lean ====
section
/-!
DEFINITION. The FrequencyTable phases COUNT, EMITHDR and LOADHDR (41_frequency_table.md). One step is one entry cleared
or one port transaction (70_reset_and_hazards.md R221, log 3).
-/
namespace Sys2Proof.Machine

/-- COUNT, first loop at `VIDX = v`: `FREQ[v] <- 0` (R100). After the last entry the second loop starts at `POS = 0`, or
BUILD when `IN_LEN = 0` ("reads nothing"). -/
def clearEntry (v : BitVec 9) (s : State) : State :=
  let s1 := { s with tab.freq := s.tab.freq.withEntry (v.setWidth 8) 0, work.vidx := v + 1 }
  if v.toNat < 255 then { s1 with stage := .clear }
  else
    let s2 := { s1 with work.pos := 0 }
    if s.inLen = 0 then s2.goto .build else { s2 with stage := .tally }

/-- COUNT, second loop: `BYTE <- InByte(POS); FREQ[BYTE] <- FREQ[BYTE] + 1` (R100). -/
def tallyByte (s : State) : Res :=
  inByte s s.work.pos.toNat fun b =>
    let s1 := { s with
      tab.freq := s.tab.freq.withEntry b (s.tab.freq.entry b + 1)
      work.byte := b, work.pos := s.work.pos + 1 }
    if s.work.pos.toNat + 1 < s.inLen.toNat then .next { s1 with stage := .tally }
    else .next (s1.goto .build)

/-- Phase COUNT (R100). -/
def execCount (s : State) : Res :=
  match s.stage with
  | .entry => .next (clearEntry 0 s)
  | .clear => .next (clearEntry s.work.vidx s)
  | .tally => tallyByte s
  | _ => .fault .sequencerPosition

/-- EMITHDR at `VIDX = v`: `OutByte` of byte `k` of `FREQ[v]` (R103). -/
def emitCountByte (v : BitVec 9) (k : Fin 4) (s : State) : Res :=
  whenAccepted s <|
    let s1 := s.outByte (countByte (s.tab.freq.entry (v.setWidth 8)) k)
    if k.val < 3 then .next { s1 with work.vidx := v, stage := .emit (k + 1) }
    else
      let s2 := { s1 with work.vidx := v + 1 }
      if v.toNat < 255 then .next { s2 with stage := .emit 0 } else .next (s2.goto .codegen)

/-- Phase EMITHDR (R103). -/
def execEmithdr (s : State) : Res :=
  match s.stage with
  | .entry => emitCountByte 0 0 s
  | .emit k => emitCountByte s.work.vidx k s
  | _ => .fault .sequencerPosition

/-- LOADHDR, the end of the loop (R105): `if SUM > 2147483647: raise E_SUM`, else BUILD. -/
def checkSum (s : State) : State :=
  if Config.maxLen < s.work.sum.toNat then s.raise .sum else s.goto .build

/-- LOADHDR, the fourth byte of the entry `VIDX` is read (R105): the entry and the sum are written. -/
def loadEntry (b0 b1 b2 b3 : Byte) (s : State) : State :=
  let v := s.work.vidx
  let c := assembleCount b0 b1 b2 b3
  let s1 := { s with
    tab.freq := s.tab.freq.withEntry (v.setWidth 8) c
    work.sum := s.work.sum + c.setWidth 40, work.vidx := v + 1 }
  if v.toNat < 255 then { s1 with stage := .load [] } else checkSum s1

/-- LOADHDR, one `InByte` of the entry `VIDX` (R105): the four bytes "are read in ascending address order". `POS` is
`4 * VIDX` throughout the entry. `BYTE` is left alone, as the pseudocode of R105 and the table of R22 have it (log 14). -/
def loadByte (got : List Byte) (s : State) : Res :=
  match got with
  | [] =>
    let p := headerAddress s.work.vidx
    inByte s p.toNat fun b => .next { s with work.pos := p, stage := .load [b] }
  | [b0] =>
    inByte s (s.work.pos.toNat + 1) fun b => .next { s with stage := .load [b0, b] }
  | [b0, b1] =>
    inByte s (s.work.pos.toNat + 2) fun b => .next { s with stage := .load [b0, b1, b] }
  | [b0, b1, b2] =>
    inByte s (s.work.pos.toNat + 3) fun b => .next (loadEntry b0 b1 b2 b s)
  | _ => .fault .sequencerPosition

/-- LOADHDR, the first step (R105): `SUM <- 0`, `VIDX` 0 and the first `InByte`, in one step with it. -/
def loadFirst (s : State) : Res :=
  inByte s 0 fun b =>
    .next { s with work.sum := 0, work.vidx := 0, work.pos := 0, stage := .load [b] }

/-- Phase LOADHDR (R105). -/
def execLoadhdr (s : State) : Res :=
  match s.stage with
  | .entry => loadFirst s
  | .load got => loadByte got s
  | _ => .fault .sequencerPosition

end Sys2Proof.Machine
end

