-- ==== Sys2Proof/Machine/Packer.lean ====
section
/-!
DEFINITION. The encoder's phases PACK and FINISH (44_encoder.md). One step is the initialisation, one `InByte`, one
PUSHBIT with its flush, or one `OutByte` of FINISH (70_reset_and_hazards.md R221, log 3).
-/
namespace Sys2Proof.Machine

/-- PACK, the start of the loop (R140, R142): `ACC <- 0; FREE <- 8`, and FINISH at once when `IN_LEN = 0`. -/
def packStart (s : State) : State :=
  let s1 := { s with work.acc := 0, work.free := 8, work.pos := 0 }
  if s.inLen = 0 then s1.goto .finish else { s1 with stage := .fetch }

/-- PACK, the end of an input byte's inner loop (R142): the next input byte, or FINISH. -/
def packNextByte (s : State) : State :=
  let s1 := { s with work.pos := s.work.pos + 1 }
  if s.work.pos.toNat + 1 < s.inLen.toNat then { s1 with stage := .fetch } else s1.goto .finish

/-- PACK, `BYTE <- InByte(POS)` and the start of the inner loop `for CIDX in 0..CODE[BYTE].LEN-1` (R142). -/
def packFetch (s : State) : Res :=
  inByte s s.work.pos.toNat fun b =>
    let s1 := { s with work.byte := b, work.cidx := 0 }
    if (s.tab.code.entry b).len = 0 then .next (packNextByte s1) else .next { s1 with stage := .push }

/-- PUSHBIT's flush (R141): `OutByte(ACC); FREE <- 8`. -/
def flushAcc (s : State) : State := { s.outByte s.work.acc with work.free := 8 }

/-- PUSHBIT's shift (R141): `ACC <- ((ACC << 1) | bit)[7:0]; FREE <- FREE - 1`. -/
def shiftAcc (bit : Bool) (s : State) : State :=
  { s with work.acc := pushInto s.work.acc bit, work.free := s.work.free - 1 }

/-- PUSHBIT (R141): "if no free slots remain, flush ... then shift". `k` says what follows. -/
def pushBit (bit : Bool) (s : State) (k : State → State) : Res :=
  if s.work.free = 0 then whenAccepted s (.next (k (shiftAcc bit (flushAcc s))))
  else .next (k (shiftAcc bit s))

/-- PACK, the end of one iteration of the inner loop (R142): the next bit of the code, or the next input byte. -/
def packNextBit (s : State) : State :=
  if s.work.cidx.toNat + 1 < (s.tab.code.entry s.work.byte).len.toNat then
    { s with work.cidx := s.work.cidx + 1, stage := .push }
  else packNextByte s

/-- PACK, `PUSHBIT(CODE[BYTE].BITS[CIDX])` (R142). -/
def packPush (s : State) : Res :=
  match (s.tab.code.entry s.work.byte).bits[s.work.cidx.toNat]? with
  | none => .fault (.codeBit s.work.byte s.work.cidx.toNat)
  | some bit => pushBit bit s packNextBit

/-- Phase PACK (R142). -/
def execPack (s : State) : Res :=
  match s.stage with
  | .entry => .next (packStart s)
  | .fetch => packFetch s
  | .push => packPush s
  | _ => .fault .sequencerPosition

/-- FINISH, the trailer (R143): `OutByte(zext_8(FREE[2:0])); done`. -/
def finishTrailer (s : State) : Res := whenAccepted s (.next (s.outByte (trailerByte s.work.free)).complete)

/-- FINISH, the last data byte (R143): none when `FREE = 8`; `ACC` as it is when `FREE = 0`; else `ACC` shifted left by
`FREE`, zero-filling. -/
def finishData (s : State) : Res :=
  if s.work.free = 8 then finishTrailer s
  else if s.work.free = 0 then
    whenAccepted s (.next { s.outByte s.work.acc with stage := .trailer })
  else
    let a := s.work.acc <<< s.work.free.toNat
    whenAccepted s (.next { s.outByte a with work.acc := a, stage := .trailer })

/-- Phase FINISH (R143). -/
def execFinish (s : State) : Res :=
  match s.stage with
  | .entry => finishData s
  | .trailer => finishTrailer s
  | _ => .fault .sequencerPosition

end Sys2Proof.Machine
end

