-- ==== Sys2Proof/Machine/TreeBuilder.lean ====
section
/-!
DEFINITION. The TreeBuilder phase BUILD (42_tree_builder.md): INIT, SELECT, MERGE and the root. One step is one entry
initialised, one slot visited by a select, or one merge, 131072 steps in all (70_reset_and_hazards.md R221, log 3).
-/
namespace Sys2Proof.Machine

/-- INIT at `VIDX = v` (R111): `NODE[v].W <- FREQ[v]; SLOT[v] <- (V = 1, N = v)`. After the last entry `NEXT <- 256`,
`LIVE <- 256` and the first `select` starts at `SIDX = 0`. -/
def initLeaf (v : BitVec 9) (s : State) : State :=
  let i : Byte := v.setWidth 8
  let s1 := { s with
    tab.node := s.tab.node.withLeafWeight i (s.tab.freq.entry i)
    tab.slot := s.tab.slot.withEntry i { v := true, n := v }
    work.vidx := v + 1 }
  if v.toNat < 255 then { s1 with stage := .initLeaf }
  else { s1 with work.next := 256, work.live := 256, work.sidx := 0, stage := .scanA none }

/-- `NODE[SLOT[i].N].W`, none where the arena has no such node. -/
def slotWeight (t : Tables) (i : Byte) : Option Word :=
  match t.node.node? (t.slot.entry i).n with
  | none => none
  | some nd => some nd.w

/-- The body of SELECT's loop for the slot `i` (R112): the new `best`. The comparison is strict and unsigned, so among
equal weights the lowest slot index wins (R115). The outer `none` says that a weight could not be read. -/
def selectVisit (t : Tables) (ex best : Option Byte) (i : Byte) : Option (Option Byte) :=
  if (t.slot.entry i).v = true ∧ ex ≠ some i then
    match best with
    | none => some (some i)
    | some b =>
      match slotWeight t i, slotWeight t b with
      | some wi, some wb => if wi < wb then some (some i) else some (some b)
      | _, _ => none
  else some best

/-- SELECT, one slot visited at `SIDX` (R112). `again` is the position for the next slot, `found` what follows the
scan with the selected slot. -/
def scanSlot (ex best : Option Byte) (again : Option Byte → Stage) (found : Byte → State → State) (s : State) : Res :=
  match selectVisit s.tab ex best (s.work.sidx.setWidth 8) with
  | none => .fault (.arenaIndex 511)
  | some best' =>
    let s1 := { s with work.sidx := s.work.sidx + 1 }
    if s.work.sidx.toNat < 255 then .next { s1 with stage := again best' }
    else match best' with
      | none => .fault .emptySelect
      | some b => .next (found b s1)

/-- `SELA <- select(none)` is complete; `select(SELA)` starts at slot 0 (R110). -/
def foundA (b : Byte) (s : State) : State := { s with work.sela := b, work.sidx := 0, stage := .scanB none }

/-- `SELB <- select(SELA)` is complete; MERGE is next (R110). -/
def foundB (b : Byte) (s : State) : State := { s with work.selb := b, stage := .merge }

/-- The slots after a merge into node `n` (R113): `SLOT[SELA] <- (V = 1, N = n); SLOT[SELB].V <- 0`. -/
def mergedSlots (t : Table Slot) (sela selb : Byte) (n : BitVec 9) : Table Slot :=
  let t1 := t.withEntry sela { v := true, n := n }
  t1.withEntry selb { t1.entry selb with v := false }

/-- The loop test after a merge, `while LIVE > 1` (R110, R114): two more selects, or the root. -/
def nextMerge (s : State) : State :=
  if 1 < s.work.live.toNat then { s with work.sidx := 0, stage := .scanA none } else { s with stage := .root }

/-- MERGE (R113): node `NEXT` with A as the left child and B as the right takes A's slot, B's slot becomes empty. -/
def mergeStep (s : State) : Res :=
  let a := (s.tab.slot.entry s.work.sela).n
  let b := (s.tab.slot.entry s.work.selb).n
  match s.tab.node.node? a, s.tab.node.node? b with
  | some na, some nb =>
    if s.work.next.toNat < Config.nodeCount then
      .next <| nextMerge { s with
        tab.node := s.tab.node.withNode s.work.next.toNat { w := na.w + nb.w, l := a, r := b }
        tab.slot := mergedSlots s.tab.slot s.work.sela s.work.selb (s.work.next.setWidth 9)
        work.next := s.work.next + 1, work.live := s.work.live - 1 }
    else .fault (.arenaIndex s.work.next.toNat)
  | _, _ => .fault (.arenaIndex 511)

/-- The root and the successor (R116): `ROOT <- NEXT - 1`, then EMITHDR if `OP = COMP`, else RDTRAILER. -/
def takeRoot (s : State) : State :=
  let s1 := { s with work.root := (s.work.next - 1).setWidth 9 }
  if s.op = .comp then s1.goto .emithdr else s1.goto .rdtrailer

/-- Phase BUILD (R110). -/
def execBuild (s : State) : Res :=
  match s.stage with
  | .entry => .next (initLeaf 0 s)
  | .initLeaf => .next (initLeaf s.work.vidx s)
  | .scanA best => scanSlot none best .scanA foundA s
  | .scanB best => scanSlot (some s.work.sela) best .scanB foundB s
  | .merge => mergeStep s
  | .root => .next (takeRoot s)
  | .clear | .tally | .load _ | .emit _ | .visit _ | .fetch | .push | .trailer | .walk => .fault .sequencerPosition

end Sys2Proof.Machine
end

