-- ==== Sys2Proof/Machine/Unpacker.lean ====
section
/-!
DEFINITION. The decoder's phases RDTRAILER, UNPACK and ENDCHECK (45_decoder.md). One step is one `InByte`, one WALK with
its emission, the initialisation of UNPACK, or ENDCHECK (70_reset_and_hazards.md R221, log 3).
-/
namespace Sys2Proof.Machine

/-- Phase RDTRAILER (R161): `PADREG`, `DLEN`, and the two tests that raise `E_PAD`, in their order. -/
def readTrailer (s : State) : Res :=
  inByte s (s.inLen - 1).toNat fun p =>
    let s1 := { s with work.padreg := p, work.dlen := dataLength s.inLen }
    if 7 < p.toNat then .next (s1.raise .pad)
    else if dataLength s.inLen = 0 ∧ p ≠ 0 then .next (s1.raise .pad)
    else .next (s1.goto .unpack)

/-- Phase RDTRAILER (R161). -/
def execRdtrailer (s : State) : Res :=
  match s.stage with
  | .entry => readTrailer s
  | _ => .fault .sequencerPosition

/-- UNPACK, the start of the loop (R162, R163): `CUR <- ROOT`, and ENDCHECK at once when `DLEN = 0`. -/
def unpackStart (s : State) : State :=
  let s1 := { s with work.cur := s.work.root, work.pos := 0 }
  if s.work.dlen = 0 then s1.goto .endcheck else { s1 with stage := .fetch }

/-- UNPACK, the end of a data byte (R163): the next data byte, or ENDCHECK. -/
def unpackNextByte (s : State) : State :=
  let s1 := { s with work.pos := s.work.pos + 1 }
  if s.work.pos.toNat + 1 < s.work.dlen.toNat then { s1 with stage := .fetch } else s1.goto .endcheck

/-- UNPACK, `BYTE <- InByte(1024 + POS)` and `BCNT` (R163). -/
def unpackFetch (s : State) : Res :=
  inByte s (Config.hdrBytes + s.work.pos.toNat) fun b =>
    let n := bitsToWalk s.work.pos s.work.dlen s.work.padreg
    let s1 := { s with work.byte := b, work.bcnt := n }
    if n = 0 then .next (unpackNextByte s1) else .next { s1 with stage := .walk }

/-- UNPACK, after a WALK (R163): `BYTE <- (BYTE << 1)[7:0]; BCNT <- BCNT - 1`, and the loop test. -/
def unpackShift (s : State) : State :=
  let s1 := { s with work.byte := s.work.byte <<< 1, work.bcnt := s.work.bcnt - 1 }
  if s.work.bcnt = 1 then unpackNextByte s1 else { s1 with stage := .walk }

/-- WALK's descent (R164): the right child for a 1, the left child for a 0. -/
def childOf (c : BitVec 9 × BitVec 9) (bit : Bool) : BitVec 9 := if bit then c.2 else c.1

/-- LEAF (R165) in the state `s0`, the descent having reached the leaf `n`: `E_EXCESS` when `OUT_CNT = SUM`, else the
byte value `n[7:0]` goes out and `CUR <- ROOT`. -/
def leaf (n : BitVec 9) (s0 : State) : Res :=
  if s0.outCnt = s0.work.sum then .next (State.raise { s0 with work.cur := n } .excess)
  else whenAccepted s0 (.next (unpackShift { s0.outByte (n.setWidth 8) with work.cur := s0.work.root }))

/-- WALK of the bit `BYTE[7]` (R163, R164). -/
def walkBit (s : State) : Res :=
  match s.tab.node.children? s.work.cur with
  | none => .fault (.arenaIndex s.work.cur.toNat)
  | some c =>
    let n := childOf c s.work.byte.msb
    if n.toNat < 256 then leaf n s else .next (unpackShift { s with work.cur := n })

/-- Phase UNPACK (R163). -/
def execUnpack (s : State) : Res :=
  match s.stage with
  | .entry => .next (unpackStart s)
  | .fetch => unpackFetch s
  | .walk => walkBit s
  | _ => .fault .sequencerPosition

/-- The checks of ENDCHECK (R166): `E_TRUNC`, then `E_COUNT`, else `done`. -/
def endCheck (s : State) : State :=
  if s.work.cur ≠ s.work.root then s.raise .trunc
  else if s.outCnt ≠ s.work.sum then s.raise .count
  else s.complete

/-- Phase ENDCHECK (R166). -/
def execEndcheck (s : State) : Res :=
  match s.stage with
  | .entry => .next (endCheck s)
  | _ => .fault .sequencerPosition

end Sys2Proof.Machine
end

