-- ==== Sys2Proof/Syntax.lean ====
section
/-!
DEFINITION. The instructions: "what plays the part of instructions is (a) the four host commands of 40_commands.md and
(b) the ten phases the sequencer runs" (00_scope.md R2), one constructor per row of spec/opcode_table.json.
-/
namespace Sys2Proof

/-- The sixteen rows of the opcode table. The first five are values written to `CMD` (30_encoding.md R62, R63), the
others are the values of `PHASE` (R69). -/
inductive Instr where
  /-- `CMD = 0` (R81). -/
  | nop
  /-- `CMD = 1` (R82). -/
  | compress
  /-- `CMD = 2` (R83). -/
  | decompress
  /-- `CMD = 3` (R84). -/
  | clear
  /-- `CMD = opcode`, `4 <= opcode` (R85). -/
  | reservedCmd (opcode : Word)
  /-- `PHASE = 0`: the sequencer has no step (R13). -/
  | idle
  /-- `PHASE = 1` (R100). -/
  | count
  /-- `PHASE = 2` (R105). -/
  | loadhdr
  /-- `PHASE = 3` (R110). -/
  | build
  /-- `PHASE = 4` (R103). -/
  | emithdr
  /-- `PHASE = 5` (R130). -/
  | codegen
  /-- `PHASE = 6` (R142). -/
  | pack
  /-- `PHASE = 7` (R143). -/
  | finish
  /-- `PHASE = 8` (R161). -/
  | rdtrailer
  /-- `PHASE = 9` (R163). -/
  | unpack
  /-- `PHASE = 10` (R166). -/
  | endcheck
deriving DecidableEq, Repr

end Sys2Proof
end

