-- ==== Sys2Proof/Machine/Dispatch.lean ====
section
/-!
DEFINITION. One arm per instruction, each one call of its meaning.
-/
namespace Sys2Proof.Machine

def exec (i : Instr) (s : State) : Host.Outcome State Fault Refusal :=
  match i with
  -- 40_commands.md
  | .nop => Sys2Proof.Machine.execNop s
  | .compress => Sys2Proof.Machine.execCompress s
  | .decompress => Sys2Proof.Machine.execDecompress s
  | .clear => Sys2Proof.Machine.execClear s
  | .reservedCmd opcode => Sys2Proof.Machine.execReservedCmd opcode s
  -- the phases, 30_encoding.md R69
  | .idle => Sys2Proof.Machine.execIdle s
  | .count => Sys2Proof.Machine.execCount s
  | .loadhdr => Sys2Proof.Machine.execLoadhdr s
  | .build => Sys2Proof.Machine.execBuild s
  | .emithdr => Sys2Proof.Machine.execEmithdr s
  | .codegen => Sys2Proof.Machine.execCodegen s
  | .pack => Sys2Proof.Machine.execPack s
  | .finish => Sys2Proof.Machine.execFinish s
  | .rdtrailer => Sys2Proof.Machine.execRdtrailer s
  | .unpack => Sys2Proof.Machine.execUnpack s
  | .endcheck => Sys2Proof.Machine.execEndcheck s

end Sys2Proof.Machine
end

