-- ==== Sys2Proof/WellFormed.lean ====
section
/-!
DEFINITION. Which terms of `Instr` are instructions of HUFFCORE. One check: the opcode of a reserved command is none of
the four assigned ones (30_encoding.md R62, R63).
-/
namespace Sys2Proof

/-- R63: "Every written value from 0x00000004 to 0xFFFFFFFF is reserved." -/
def Instr.wellFormed : Instr → Bool
  | .reservedCmd opcode => 4 ≤ opcode.toNat
  | .nop | .compress | .decompress | .clear => true
  | .idle | .count | .loadhdr | .build | .emithdr | .codegen | .pack | .finish => true
  | .rdtrailer | .unpack | .endcheck => true

/-- A well-formed instruction. -/
abbrev WellFormed (i : Instr) : Prop := i.wellFormed = true

end Sys2Proof
end

