-- ==== Sys2Proof/Decode.lean ====
section
/-!
DEFINITION. The decoder and the encoder. Two things select an instruction: the 32-bit word of a write to `CMD`, compared
whole (30_encoding.md R61, R62), and the 4-bit code held in `PHASE` (R69). No instruction is fetched from a memory
(20_memory.md R54), so the words here are values, not bytes at an address (log 7).
-/
namespace Sys2Proof

/-- A word that selects an instruction: the value of a write to `CMD` (R61) or the code in `PHASE` (R69). -/
inductive CodeWord where
  | cmd (w : Word)
  | phase (c : BitVec 4)
deriving DecidableEq, Repr

/-- Why a word selects no instruction. -/
inductive DecodeError where
  /-- `PHASE` codes 11 to 15 "are never written and unreachable" (R69). -/
  | unassignedPhase (c : BitVec 4)
deriving DecidableEq, Repr

/-- The command opcode map, R62, with R63 for every other value: "a decoder compares the whole word". -/
def decodeCmd (w : Word) : Instr :=
  if w = 0x00000000 then .nop
  else if w = 0x00000001 then .compress
  else if w = 0x00000002 then .decompress
  else if w = 0x00000003 then .clear
  else .reservedCmd w

/-- The `PHASE` codes, R69. -/
def decodePhase (c : BitVec 4) : Except DecodeError Instr :=
  if c = 0 then .ok .idle
  else if c = 1 then .ok .count
  else if c = 2 then .ok .loadhdr
  else if c = 3 then .ok .build
  else if c = 4 then .ok .emithdr
  else if c = 5 then .ok .codegen
  else if c = 6 then .ok .pack
  else if c = 7 then .ok .finish
  else if c = 8 then .ok .rdtrailer
  else if c = 9 then .ok .unpack
  else if c = 10 then .ok .endcheck
  else .error (.unassignedPhase c)

/-- The decoder: total, and a word without a meaning is rejected by name. -/
def decode : CodeWord → Except DecodeError Instr
  | .cmd w => .ok (decodeCmd w)
  | .phase c => decodePhase c

/-- The encoder, from the same two tables (R62, R69). -/
def encode : Instr → CodeWord
  | .nop => .cmd 0x00000000
  | .compress => .cmd 0x00000001
  | .decompress => .cmd 0x00000002
  | .clear => .cmd 0x00000003
  | .reservedCmd opcode => .cmd opcode
  | .idle => .phase 0
  | .count => .phase 1
  | .loadhdr => .phase 2
  | .build => .phase 3
  | .emithdr => .phase 4
  | .codegen => .phase 5
  | .pack => .phase 6
  | .finish => .phase 7
  | .rdtrailer => .phase 8
  | .unpack => .phase 9
  | .endcheck => .phase 10

/-- The code word a number of the opcode table spells: a row of at most 8 bits is a `PHASE` row (4 bits), a wider one
(32 bits) is a `CMD` row. A number that does not fit its format spells none. -/
def tableWord (nbits w : Nat) : Option CodeWord :=
  if nbits ≤ 8 then if w < 16 then some (.phase (BitVec.ofNat 4 w)) else none
  else if nbits ≤ 32 then if w < 4294967296 then some (.cmd (BitVec.ofNat 32 w)) else none
  else none

/-- The instruction the decoder reads from a row's word, its bits numbered as spec/opcode_table.json numbers them. -/
def decodeTableWord (nbits w : Nat) : Option Instr :=
  match tableWord nbits w with
  | none => none
  | some cw =>
    match decode cw with
    | .ok i => some i
    | .error _ => none

end Sys2Proof
end

