-- ==== Sys2Proof/Machine/HostPort.lean ====
section
/-!
DEFINITION. What the host does to the block (10_state.md R10, R20; 70_reset_and_hazards.md R210, R214, R218, R223),
except the writes to `CMD`, which are instructions, and the host programs of 30_encoding.md R71, R72.
-/
namespace Sys2Proof.Machine

/-- The state with the host's moves still to come replaced. -/
def State.withScript (s : State) (script : List HostMove) : State := { s with outside.script := script }

/-- "Only whole 32-bit accesses exist": 4 bytes at a multiple of 4 (R20). -/
def wholeAccess (off : Word) (bytes : Nat) : Bool := bytes = 4 ∧ off.toNat % 4 = 0

/-- `RegWrite(off, v)` at an offset other than `CMD`'s (R20). `IN_LEN` takes the value, unless `BUSY = 1` (40_commands.md
R80) or `rst` is asserted (R210); a read-only register and an unmapped offset ignore it. -/
def State.regWrite (s : State) (off v : Word) : State :=
  if off = 0x0C then
    if s.busy || s.outside.rst then s else { s with inLen := v }
  else s

/-- `RegRead(off)` (R20): "reads are never dropped" (R80); the value goes to the host and nothing else changes. -/
def State.regRead (s : State) (off : Word) : State :=
  { s with outside.reads := s.regValue off :: s.outside.reads }

/-- `rst` asserted (R210): the values of R211 "from any state and at any point of an operation". The bytes of `IN` and
`OUT`, the ports and the host's own data are not the block's and stay (R213). What the working registers and tables
hold then is the model's choice (log 9). -/
def State.assertReset (s : State) : State :=
  { State.reset with outside := { s.outside with rst := true } }

/-- `rst` released (R210): "after release the block is in IDLE and accepts commands". -/
def State.releaseReset (s : State) : State := { s with outside.rst := false }

/-- A host program line `WR CMD, v` (30_encoding.md R71). -/
def wrCmd (v : Word) : HostMove := .regWrite 0x00 4 v

/-- A host program line `WR IN_LEN, v` (R71). -/
def wrInLen (v : Word) : HostMove := .regWrite 0x0C 4 v

/-- A host program line `RD <reg>` (R71), the register given by its offset. -/
def rd (off : Word) : HostMove := .regRead off 4

/-- The pseudo-instruction `COMPRESS n` (R72). -/
def pseudoCompress (n : Word) : List HostMove := [wrInLen n, wrCmd 1]

/-- The pseudo-instruction `DECOMPRESS n` (R72). -/
def pseudoDecompress (n : Word) : List HostMove := [wrInLen n, wrCmd 2]

/-- The launch condition `IN = <bytes>` (R71). -/
def State.withInput (s : State) (bytes : List Byte) : State :=
  { s with outside.inp := Memory.place [] 0 bytes }

end Sys2Proof.Machine
end

