-- ==== Sys2Proof/Machine/Fetch.lean ====
section
/-!
DEFINITION. What moves next, and the instruction it selects. HUFFCORE "fetches no instructions and has no program
counter in the processor sense" (10_state.md R11): a write to `CMD` brings a command word (R16), and otherwise `PHASE`
selects the sequencer's step (R13). The host's moves stand in `script`, a register access falls between any two
sequencer steps (R20, log 4).
-/
namespace Sys2Proof.Machine

/-- The outcome of the choice: an instruction to run in a state, or a move of the host (or a standstill) that is
complete. -/
inductive Fetched where
  | instr (i : Instr) (s : State)
  | moved (o : Res)

/-- The `PHASE` codes (30_encoding.md R69). -/
def Phase.code : Phase → BitVec 4
  | .idle => 0
  | .count => 1
  | .loadhdr => 2
  | .build => 3
  | .emithdr => 4
  | .codegen => 5
  | .pack => 6
  | .finish => 7
  | .rdtrailer => 8
  | .unpack => 9
  | .endcheck => 10

/-- The value of `PHASE` a code stands for; codes 11 to 15 stand for none (R69). -/
def Phase.ofCode (c : BitVec 4) : Option Phase :=
  [Phase.idle, .count, .loadhdr, .build, .emithdr, .codegen, .pack, .finish, .rdtrailer, .unpack, .endcheck][c.toNat]?

/-- The sequencer's turn: the instruction `PHASE` selects. "While rst stays asserted the sequencer has no step"
(70_reset_and_hazards.md R210). -/
def sequencerTurn (s : State) : Fetched :=
  if s.outside.rst then .moved (.next s)
  else match decode (.phase s.phase.code) with
    | .ok i => .instr i s
    | .error _ => .moved (.fault .sequencerPosition)

/-- A `RegWrite`: a write to `CMD` is a command (R16, 40_commands.md R80); any other is done at once (R20). -/
def writeTurn (off : Word) (bytes : Nat) (v : Word) (s : State) : Fetched :=
  if wholeAccess off bytes then
    if off = 0x00 then
      match decode (.cmd v) with
      | .ok i => .instr i s
      | .error _ => .moved (.next s)
    else .moved (.next (s.regWrite off v))
  else .moved (.refused (.registerAccess off bytes))

/-- What moves next. With an empty script the host does nothing and every step is the sequencer's. -/
def fetch (s : State) : Fetched :=
  match s.outside.script with
  | [] => sequencerTurn s
  | .regWrite off bytes v :: rest => writeTurn off bytes v (s.withScript rest)
  | .regRead off bytes :: rest =>
    if wholeAccess off bytes then .moved (.next ((s.withScript rest).regRead off))
    else .moved (.refused (.registerAccess off bytes))
  | .run 0 :: rest => .moved (.next (s.withScript rest))
  | .run 1 :: rest => sequencerTurn (s.withScript rest)
  | .run (n + 2) :: rest => sequencerTurn (s.withScript (.run (n + 1) :: rest))
  | .wait :: rest => if s.busy then sequencerTurn s else .moved (.next (s.withScript rest))
  | .putIn a b :: rest =>
    let s1 := s.withScript rest
    .moved (.next { s1 with outside.inp := s1.outside.inp.write a b })
  | .newSink :: rest => .moved (.next { s.withScript rest with outside.out := [] })
  | .inPort answers :: rest => .moved (.next { s.withScript rest with outside.inAnswers := answers })
  | .outPort accepts :: rest => .moved (.next { s.withScript rest with outside.outAccepts := accepts })
  | .rst true :: rest => .moved (.next (s.withScript rest).assertReset)
  | .rst false :: rest => .moved (.next (s.withScript rest).releaseReset)

/-- The least input length with which a phase is entered, for the two phases whose first step reads `IN` whatever its
length: DECOMPRESS enters them only with `IN_LEN >= 1025` (40_commands.md R83, 20_memory.md R56). -/
def leastInLen (p : Phase) (n : Word) : Word :=
  match p with
  | .loadhdr | .rdtrailer => if n.toNat < Config.minStream then 1025 else n
  | _ => n

/-- The state in which the very next step runs the instruction a code word selects (log 6). A command word: the host's
next move is the write of it to `CMD`. A `PHASE` code: the sequencer stands at the first step of that phase, `rst` is
released and the next step is the sequencer's. A code that stands for no phase changes nothing. -/
def placeCodeWord (s : State) (cw : CodeWord) : State :=
  match cw with
  | .cmd w => s.withScript (wrCmd w :: s.outside.script)
  | .phase c =>
    match Phase.ofCode c with
    | none => s
    | some p =>
      let s1 := { (s.goto p).withScript (.run 1 :: s.outside.script) with outside.rst := false }
      { s1 with inLen := leastInLen p s.inLen }

end Sys2Proof.Machine
end

