-- ==== Sys2Proof/Machine/Step.lean ====
section
/-!
DEFINITION. One step of the machine: one move of the host, or one step of the sequencer.
-/
namespace Sys2Proof.Machine

/-- One step: the instruction selected runs, or the host's move is done. -/
def step (s : State) : Host.Outcome State Fault Refusal :=
  match fetch s with
  | .instr i s' => exec i s'
  | .moved o => o

/-- `s` with the instruction of an opcode-table word placed where `step` takes its next instruction (log 6). -/
def State.withFetchWord (s : State) (nbits w : Nat) : State :=
  match tableWord nbits w with
  | none => s
  | some cw => placeCodeWord s cw

end Sys2Proof.Machine
end

