-- ==== Sys2Proof/Machine/Reference.lean ====
section
/-!
DEFINITION. The reference functions of 00_scope.md R9: pure functions over byte sequences, written from the spec's own
definitions of them, so that the machine can be checked against a functional statement.
-/
namespace Sys2Proof.Machine

/-- A FrequencyTable as a function of the byte value (R101); a count has 32 bits (R23). -/
abbrev Counts := Byte → Word

/-- All byte values in ascending order. -/
def allBytes : List Byte := (List.range 256).map (BitVec.ofNat 8)

/-- `freq(b)` (41_frequency_table.md R101): the number of positions of each value. -/
def freq (b : List Byte) : Counts := fun v => BitVec.ofNat 32 (b.count v)

/-- The sum of the 256 counts, exact (R102, R105). -/
def countSum (F : Counts) : Nat := (allBytes.map fun v => (F v).toNat).sum

/-- The four stream bytes of a count (R104). -/
def countBytes (c : Word) : List Byte := [countByte c 0, countByte c 1, countByte c 2, countByte c 3]

/-- `hdr(F)` (R104). -/
def hdr (F : Counts) : List Byte := allBytes.flatMap fun v => countBytes (F v)

/-- `unhdr(H)` (R106) of a sequence of 1024 bytes. -/
def unhdr (H : List Byte) : Counts := fun v =>
  let at' := fun k => H.getD (4 * v.toNat + k) 0
  assembleCount (at' 0) (at' 1) (at' 2) (at' 3)

/-- Trees over the byte values (42_tree_builder.md R118). -/
inductive Tree where
  | leaf (v : Byte)
  | node (l r : Tree)
deriving DecidableEq, Repr

/-- `w(t)` (R118): the exact sum of the counts of the leaves. -/
def Tree.weight (F : Counts) : Tree → Nat
  | .leaf v => (F v).toNat
  | .node l r => l.weight F + r.weight F

/-- The byte values at the leaves, left to right (R120). -/
def Tree.leaves : Tree → List Byte
  | .leaf v => [v]
  | .node l r => l.leaves ++ r.leaves

/-- A live root: its slot and its tree (R118). -/
abbrev Root := Nat × Tree

/-- The order of R115: weight first, then slot index. -/
def Root.before (F : Counts) (x y : Root) : Bool :=
  decide (x.2.weight F < y.2.weight F) || (decide (x.2.weight F = y.2.weight F) && decide (x.1 < y.1))

/-- The least live root in the order of R115. -/
def leastRoot (F : Counts) : List Root → Option Root
  | [] => none
  | x :: rest =>
    match leastRoot F rest with
    | none => some x
    | some y => some (if Root.before F y x then y else x)

/-- One round of `tree` (R118): the two least roots A and B make `Node(A, B)` in A's slot. -/
def mergeRoots (F : Counts) (roots : List Root) : List Root :=
  match leastRoot F roots with
  | none => roots
  | some (sa, ta) =>
    let others := roots.filter fun x => x.1 ≠ sa
    match leastRoot F others with
    | none => roots
    | some (sb, tb) => (sa, .node ta tb) :: others.filter fun x => x.1 ≠ sb

/-- The 256 leaves, each in the slot of its own value (R118). -/
def leafRoots : List Root := allBytes.map fun v => (v.toNat, .leaf v)

/-- `n` rounds of `tree`. -/
def mergeRounds (F : Counts) : Nat → List Root → List Root
  | 0, roots => roots
  | n + 1, roots => mergeRounds F n (mergeRoots F roots)

/-- `tree(F)` (R118): 255 rounds, then "the tree of the single element left". -/
def tree (F : Counts) : Tree :=
  match mergeRounds F 255 leafRoots with
  | (_, t) :: _ => t
  | [] => .leaf 0

/-- `path(t, v)` (43_code_table.md R131): 0 for each step to a left child, 1 for each to a right child; none where
`Leaf(v)` is not in the tree. -/
def Tree.path (v : Byte) : Tree → Option (List Bool)
  | .leaf u => if u = v then some [] else none
  | .node l r =>
    match l.path v with
    | some p => some (false :: p)
    | none =>
      match r.path v with
      | some p => some (true :: p)
      | none => none

/-- `code(F, v)` (R131). Every value has a leaf (R120), so the empty sequence is never taken. -/
def code (F : Counts) (v : Byte) : List Bool := ((tree F).path v).getD []

/-- The 8 bits of a byte, most significant first (20_memory.md R44, 00_scope.md R7). -/
def byteBits (b : Byte) : List Bool :=
  [b.getLsbD 7, b.getLsbD 6, b.getLsbD 5, b.getLsbD 4, b.getLsbD 3, b.getLsbD 2, b.getLsbD 1, b.getLsbD 0]

/-- `bits(B)` (R7). -/
def bitsOf (B : List Byte) : List Bool := B.flatMap byteBits

/-- The byte whose most-significant-first bits are given (R44). -/
def byteOfBits (b : List Bool) : Byte := b.foldl pushInto 0

/-- The bytes whose most-significant-first bits are given, eight at a time; a rest of fewer than eight gives none. -/
def bytesOfBits : List Bool → List Byte
  | b7 :: b6 :: b5 :: b4 :: b3 :: b2 :: b1 :: b0 :: rest =>
    byteOfBits [b7, b6, b5, b4, b3, b2, b1, b0] :: bytesOfBits rest
  | _ => []

/-- The padding count of `T` code bits, `(8 - T mod 8) mod 8` (44_encoder.md R144). -/
def padding (t : Nat) : Nat := (8 - t % 8) % 8

/-- The body bytes and the trailer of a bit sequence (R148). -/
def packBits (s : List Bool) : List Byte :=
  bytesOfBits (s ++ List.replicate (padding s.length) false) ++ [BitVec.ofNat 8 (padding s.length)]

/-- `pack(b, F)` (R148). -/
def pack (b : List Byte) (F : Counts) : List Byte := packBits (b.flatMap (code F))

/-- `compress(b)` (40_commands.md R90). -/
def compress (b : List Byte) : List Byte := hdr (freq b) ++ pack b (freq b)

/-- What `decompress` and `unwalk` return: `Ok(out)` or `Err(code, out)` (R91). -/
inductive Decoded where
  | ok (out : List Byte)
  | err (e : ErrCode) (out : List Byte)
deriving DecidableEq, Repr

/-- The walk of `unwalk` (45_decoder.md R171): `pos` is the subtree at the current position, `atRoot` says whether the
position is the root's. At a leaf, a position the walk never rests on, a bit has no child to go to: `E_TRUNC`. -/
def unwalkFrom (t : Tree) (n : Nat) : Tree → Bool → List Byte → List Bool → Decoded
  | _, atRoot, out, [] =>
    if atRoot = false then .err .trunc out
    else if out.length ≠ n then .err .count out
    else .ok out
  | .leaf _, _, out, _ :: _ => .err .trunc out
  | .node l r, _, out, x :: rest =>
    match (if x then r else l) with
    | .leaf v => if out.length = n then .err .excess out else unwalkFrom t n t true (out ++ [v]) rest
    | .node l' r' => unwalkFrom t n (.node l' r') false out rest

/-- `unwalk(t, N, s)` (R171). -/
def unwalk (t : Tree) (n : Nat) (s : List Bool) : Decoded := unwalkFrom t n t true [] s

/-- `decompress(s)` (40_commands.md R91). -/
def decompress (s : List Byte) : Decoded :=
  let S := s.length
  if Config.maxLen < S then .err .toolarge []
  else if S < Config.minStream then .err .short []
  else
    let F := unhdr (s.take Config.hdrBytes)
    let N := countSum F
    if Config.maxLen < N then .err .sum []
    else
      let P := (s.getD (S - 1) 0).toNat
      let L := S - Config.minStream
      if 7 < P ∨ (L = 0 ∧ P ≠ 0) then .err .pad []
      else unwalk (tree F) N ((bitsOf ((s.drop Config.hdrBytes).take L)).take (8 * L - P))

end Sys2Proof.Machine
end

