-- ==== Sys2Proof/Safety.lean ====
section
/-!
DEFINITION. What counts as a safe run of HUFFCORE: the invariant every step keeps (10_state.md R29 and the ranges of
R22), the premises the host owes for an undisturbed run (70_reset_and_hazards.md R214), and how a run ends (R215).
-/
namespace Sys2Proof.Machine

/-- The operation a phase belongs to (30_encoding.md R69). -/
def Phase.allows : Phase → OpKind → Prop
  | .idle, _ => True
  | .build, op => op ≠ .none
  | .count, op | .emithdr, op | .codegen, op | .pack, op | .finish, op => op = .comp
  | .loadhdr, op | .rdtrailer, op | .unpack, op | .endcheck, op => op = .decomp

/-- The number of valid slots (R25). -/
def liveSlots (t : Table Slot) : Nat := allBytes.countP fun i => (Table.entry t i).v

/-- Every internal node below `next` has both its children below itself (42_tree_builder.md R120: "children have smaller
indices than their parent"). -/
def ChildrenBelow (a : Arena) (next : Nat) : Prop :=
  ∀ n c, n.toNat < next → a.children? n = some c → c.1.toNat < n.toNat ∧ c.2.toNat < n.toNat

/-- BUILD between INIT and the root: `NEXT` and `LIVE` count the merges (R114), as many slots are valid as `LIVE` says,
and each holds a node already created. -/
structure BuildOk (w : Work) (t : Tables) : Prop where
  next_low : 256 ≤ w.next.toNat
  live_low : 1 ≤ w.live.toNat
  counts : w.next.toNat + w.live.toNat = 512
  slots : liveSlots t.slot = w.live.toNat
  roots : ∀ i, (Table.entry t.slot i).v = true → (Table.entry t.slot i).n.toNat < w.next.toNat
  children : ChildrenBelow t.node w.next.toNat

/-- A select in progress (R112): `best` is a live slot other than `ex`, and none only while none has been seen. -/
structure ScanOk (w : Work) (t : Tables) (ex best : Option Byte) : Prop where
  sidx : w.sidx.toNat < 256
  two : 2 ≤ w.live.toNat
  best_live : ∀ b, best = some b → (Table.entry t.slot b).v = true ∧ ex ≠ some b
  none_seen : best = none → ∀ i : Byte, i.toNat < w.sidx.toNat → (Table.entry t.slot i).v = true → ex = some i

/-- The tree after BUILD (R29): `ROOT = 510`, every internal node with its children below it. -/
structure TreeOk (w : Work) (t : Tables) : Prop where
  root : w.root = 510
  children : ChildrenBelow t.node 511

/-- A pending call of CODEGEN's `visit`: the deeper the node, the lower its index, so no path exceeds 255 (R133). -/
def VisitOk (x : BitVec 9 × List Bool) : Prop :=
  (x.1.toNat < 256 → x.2.length ≤ 255) ∧ (256 ≤ x.1.toNat → x.1.toNat + x.2.length ≤ 510)

/-- The bits pushed so far, as `OUT_CNT` and `FREE` show them, are at most 255 for each input byte (R133, R147). -/
def PackedOk (outCnt : BitVec 40) (w : Work) (bits : Nat) : Prop :=
  1024 ≤ outCnt.toNat ∧ w.free.toNat ≤ 8 ∧ 8 * outCnt.toNat + (8 - w.free.toNat) ≤ 8192 + bits

/-- What RDTRAILER leaves for UNPACK (45_decoder.md R161). -/
structure TrailerOk (inLen : Word) (w : Work) : Prop where
  pad : w.padreg.toNat ≤ 7
  dlen : w.dlen = dataLength inLen
  empty : w.dlen = 0 → w.padreg = 0

/-- `CUR` is an internal node and no more bytes are out than the header promises (R29, R165). -/
structure WalkOk (outCnt : BitVec 40) (w : Work) : Prop where
  cur_low : 256 ≤ w.cur.toNat
  cur_high : w.cur.toNat ≤ 510
  bounded : outCnt.toNat ≤ w.sum.toNat

/-- The positions of each phase: the loops of its pseudocode (`Stage`). In IDLE the sequencer has no step (R13), so its
position does not matter. -/
def Phase.owns : Phase → Stage → Bool
  | .idle, _ => true
  | _, .entry => true
  | .count, .clear | .count, .tally => true
  | .loadhdr, .load got => got.length ≤ 3
  | .build, .initLeaf | .build, .scanA _ | .build, .scanB _ | .build, .merge | .build, .root => true
  | .emithdr, .emit _ => true
  | .codegen, .visit todo => !todo.isEmpty
  | .pack, .fetch | .pack, .push => true
  | .finish, .trailer => true
  | .unpack, .fetch | .unpack, .walk => true
  | _, _ => false

/-- What holds at each position of the sequencer. -/
def PositionOk (s : State) : Prop :=
  match s.phase, s.stage with
  | .idle, .entry => True
  | .count, .entry => s.outCnt = 0
  | .count, .clear => s.outCnt = 0 ∧ s.work.vidx.toNat < 256
  | .count, .tally => s.outCnt = 0 ∧ s.work.pos.toNat < s.inLen.toNat
  | .loadhdr, .entry => s.outCnt = 0
  | .loadhdr, .load got =>
    s.outCnt = 0 ∧ s.work.vidx.toNat < 256 ∧ got.length ≤ 3 ∧ (got ≠ [] → s.work.pos = headerAddress s.work.vidx)
  | .build, .entry => s.outCnt = 0
  | .build, .initLeaf =>
    s.outCnt = 0 ∧ s.work.vidx.toNat < 256 ∧
      ∀ i : Byte, i.toNat < s.work.vidx.toNat → Table.entry s.tab.slot i = { v := true, n := i.setWidth 9 }
  | .build, .scanA best => s.outCnt = 0 ∧ BuildOk s.work s.tab ∧ ScanOk s.work s.tab none best
  | .build, .scanB best =>
    s.outCnt = 0 ∧ BuildOk s.work s.tab ∧ ScanOk s.work s.tab (some s.work.sela) best ∧ (Table.entry s.tab.slot s.work.sela).v = true
  | .build, .merge =>
    s.outCnt = 0 ∧ BuildOk s.work s.tab ∧ 2 ≤ s.work.live.toNat ∧ s.work.sela ≠ s.work.selb ∧
      (Table.entry s.tab.slot s.work.sela).v = true ∧ (Table.entry s.tab.slot s.work.selb).v = true
  | .build, .root => s.outCnt = 0 ∧ BuildOk s.work s.tab ∧ s.work.live = 1
  | .emithdr, .entry => s.outCnt = 0 ∧ TreeOk s.work s.tab
  | .emithdr, .emit k => TreeOk s.work s.tab ∧ s.work.vidx.toNat < 256 ∧ s.outCnt.toNat = 4 * s.work.vidx.toNat + k.val
  | .codegen, .entry => s.outCnt = 1024 ∧ TreeOk s.work s.tab
  | .codegen, .visit todo => s.outCnt = 1024 ∧ TreeOk s.work s.tab ∧ todo ≠ [] ∧ ∀ x ∈ todo, VisitOk x
  | .pack, .entry => s.outCnt = 1024
  | .pack, .fetch => s.work.pos.toNat < s.inLen.toNat ∧ PackedOk s.outCnt s.work (255 * s.work.pos.toNat)
  | .pack, .push =>
    s.work.pos.toNat < s.inLen.toNat ∧ s.work.cidx.toNat < (Table.entry s.tab.code s.work.byte).len.toNat ∧
      PackedOk s.outCnt s.work (255 * s.work.pos.toNat + s.work.cidx.toNat)
  | .finish, .entry => PackedOk s.outCnt s.work (255 * s.inLen.toNat)
  | .finish, .trailer =>
    s.work.free.toNat ≤ 7 ∧ 1025 ≤ s.outCnt.toNat ∧ 8 * s.outCnt.toNat ≤ 8200 + 255 * s.inLen.toNat
  | .rdtrailer, .entry => s.outCnt = 0 ∧ TreeOk s.work s.tab
  | .unpack, .entry => s.outCnt = 0 ∧ TreeOk s.work s.tab ∧ TrailerOk s.inLen s.work
  | .unpack, .fetch => TreeOk s.work s.tab ∧ TrailerOk s.inLen s.work ∧ WalkOk s.outCnt s.work ∧ s.work.pos.toNat < s.work.dlen.toNat
  | .unpack, .walk =>
    TreeOk s.work s.tab ∧ TrailerOk s.inLen s.work ∧ WalkOk s.outCnt s.work ∧ s.work.pos.toNat < s.work.dlen.toNat ∧
      1 ≤ s.work.bcnt.toNat ∧ s.work.bcnt.toNat ≤ 8
  | .endcheck, .entry => TreeOk s.work s.tab ∧ TrailerOk s.inLen s.work ∧ WalkOk s.outCnt s.work
  | _, _ => False

/-- The invariant of the machine: it holds at reset and every step keeps it, whatever the host does. -/
structure Inv (s : State) : Prop where
  inp_wf : s.outside.inp.wf
  out_wf : s.outside.out.wf
  /-- R15: "DONE and ERR are never both 1" -/
  done_err : ¬(s.done = true ∧ s.err = true)
  /-- R18: `ERRCODE` is 0 when `ERR = 0` -/
  no_err : s.err = false → s.errcode = 0
  /-- R181: "No other value is ever written to ERRCODE" -/
  err_code : s.err = true → ∃ e : ErrCode, s.errcode = e.code.setWidth 32
  /-- R210: while `rst` is asserted the block is in IDLE -/
  rst_idle : s.outside.rst = true → s.phase = .idle
  /-- R194: no flag is set while an operation runs -/
  busy_clear : s.phase ≠ .idle → s.done = false ∧ s.err = false
  /-- R12, R69 -/
  op : s.phase.allows s.op
  /-- R82, R83: the checks of acceptance -/
  len_high : s.phase ≠ .idle → s.inLen.toNat ≤ Config.maxLen
  len_low : s.phase ≠ .idle → s.op = .decomp → Config.minStream ≤ s.inLen.toNat
  /-- R26: `BITS` is a sequence of `LEN` bits -/
  code_len : ∀ v, (Table.entry s.tab.code v).len.toNat = (Table.entry s.tab.code v).bits.length
  position : PositionOk s

/-! ### Undisturbed runs and their end -/

/-- LP2, LP3, LP4 and LP6 of R214 for a run in which the host does nothing: no host move is pending, both ports answer,
`rst` is not asserted. -/
structure Undisturbed (s : State) : Prop where
  script : s.outside.script = []
  inAnswers : s.outside.inAnswers = true
  outAccepts : s.outside.outAccepts = true
  rst : s.outside.rst = false

/-- A host move that leaves the block to itself: a register read of R20, sequencer steps, or `WAIT`. -/
def HostMove.watches : HostMove → Bool
  | .regRead off bytes => wholeAccess off bytes
  | .run _ | .wait => true
  | .regWrite _ _ _ | .putIn _ _ | .newSink | .inPort _ | .outPort _ | .rst _ => false

/-- LP2, LP3, LP4 and LP6 of R214 for a run in which the host only watches, polling the registers as often as it likes:
`IN` and the sink are left alone, both ports answer, `rst` is not asserted. -/
structure Watched (s : State) : Prop where
  script : ∀ m ∈ s.outside.script, m.watches = true
  inAnswers : s.outside.inAnswers = true
  outAccepts : s.outside.outAccepts = true
  rst : s.outside.rst = false

/-- `k` steps of the machine. -/
abbrev runFor (k : Nat) (s : State) : Res := core.run k s

/-- The run from `s` comes to `t` after some number of steps. -/
def Leads (s t : State) : Prop := ∃ k, runFor k s = .next t

/-- What an operation's acceptance fixes and only its end changes (40_commands.md R82, R83, R88; 10_state.md R19). -/
structure SameCommand (s t : State) : Prop where
  op : t.op = s.op
  done : t.done = s.done
  err : t.err = s.err
  errcode : t.errcode = s.errcode
  inLen : t.inLen = s.inLen

/-- The input `IN[0 .. IN_LEN-1]` (R40). -/
def State.input (s : State) : List Byte := s.outside.inp.bytes 0 s.inLen.toNat

/-- The output `OUT[0 .. OUT_CNT-1]` (R40). -/
def State.output (s : State) : List Byte := s.outside.out.bytes 0 s.outCnt.toNat

/-- The table `FREQ` as a function (R23). -/
def State.counts (s : State) : Counts := fun v => Table.entry s.tab.freq v

/-- "the run succeeded" (R215): back in IDLE by `done`. -/
def Succeeded (s : State) : Prop := s.phase = .idle ∧ s.done = true ∧ s.err = false

/-- "the run failed" (R215): back in IDLE by `raise`, with the code reported. -/
def FailedWith (s : State) (e : ErrCode) : Prop :=
  s.phase = .idle ∧ s.done = false ∧ s.err = true ∧ s.errcode = e.code.setWidth 32

/-- The end of a DECOMPRESS as `decompress` and `unwalk` name it (R91, 45_decoder.md R171). -/
def EndsAs (t : State) : Decoded → Prop
  | .ok out => Succeeded t ∧ t.output = out
  | .err e out => FailedWith t e ∧ t.output = out

/-- The arena read from node `n` is the tree `t` (42_tree_builder.md R118): node `n < 256` is `Leaf(n)`, a higher one is
`Node(NODE[n].L, NODE[n].R)` read recursively. -/
def ReadsAs (a : Arena) : BitVec 9 → Tree → Prop
  | n, .leaf v => n = v.setWidth 9
  | n, .node l r => ∃ c, a.children? n = some c ∧ ReadsAs a c.1 l ∧ ReadsAs a c.2 r

end Sys2Proof.Machine
end

