-- ==== Sys2Proof/Certificates/Slice0/Obligations.lean ====
section
/-!
DEFINITION. The statements about HUFFCORE for the provers, each from a numbered rule of spec/. An equation
`exec i s = .next ...` says the result, the completion and the frame at once: a field not named is as it was.
-/
section
open Sys2Proof Sys2Proof.Machine

/-! ### Encoding and stepping -/

/-- 30_encoding.md R61, R62, R63, R69: a code word selects exactly the well-formed instruction it encodes. -/
def Obligations.DecodeExact : Prop :=
  ∀ (cw : CodeWord) (i : Instr), decode cw = .ok i ↔ WellFormed i ∧ encode i = cw

/-- 30_encoding.md R62, R63, R69: the words of the tables, written out. -/
def Obligations.WordsWrittenOut : Prop :=
  decodeTableWord 32 0x00000000 = some .nop ∧ decodeTableWord 32 0x00000001 = some .compress ∧
  decodeTableWord 32 0x00000002 = some .decompress ∧ decodeTableWord 32 0x00000003 = some .clear ∧
  decodeTableWord 32 0x00000004 = some (.reservedCmd 4) ∧
  decodeTableWord 32 0xFFFFFFFF = some (.reservedCmd 0xFFFFFFFF) ∧
  decodeTableWord 8 0 = some .idle ∧ decodeTableWord 8 1 = some .count ∧ decodeTableWord 8 2 = some .loadhdr ∧
  decodeTableWord 8 3 = some .build ∧ decodeTableWord 8 4 = some .emithdr ∧ decodeTableWord 8 5 = some .codegen ∧
  decodeTableWord 8 6 = some .pack ∧ decodeTableWord 8 7 = some .finish ∧ decodeTableWord 8 8 = some .rdtrailer ∧
  decodeTableWord 8 9 = some .unpack ∧ decodeTableWord 8 10 = some .endcheck ∧ decodeTableWord 8 11 = none

/-- 30_encoding.md R69: the eleven codes are one per phase, the other five stand for none and are rejected. -/
def Obligations.PhaseCodes : Prop :=
  (∀ c p, Phase.ofCode c = some p ↔ p.code = c) ∧
  ∀ c : BitVec 4, 11 ≤ c.toNat → decode (.phase c) = .error (.unassignedPhase c) ∧ Phase.ofCode c = none

/-- 10_state.md R11, R13, R16: a step runs the instruction that the host's write to `CMD` or the value of `PHASE`
selects. The script of host moves is the model's (log 4). -/
def Obligations.StepRunsDecoded : Prop :=
  ∀ (s : State) (i : Instr),
    (∀ w rest, s.outside.script = wrCmd w :: rest → decode (.cmd w) = .ok i →
      step s = exec i (s.withScript rest)) ∧
    (s.outside.rst = false → decode (.phase s.phase.code) = .ok i →
      (s.outside.script = [] → step s = exec i s) ∧
      (∀ rest, s.outside.script = .run 1 :: rest → step s = exec i (s.withScript rest)) ∧
      (∀ n rest, s.outside.script = .run (n + 2) :: rest →
        step s = exec i (s.withScript (.run (n + 1) :: rest))) ∧
      (∀ rest, s.outside.script = .wait :: rest → s.phase ≠ .idle → step s = exec i s))

/-- The model's `withFetchWord` (log 6): the very next step runs exactly the instruction of the table word, and the
bytes, the tables, the working registers and the flags are as they were. -/
def Obligations.PlacedWordRuns : Prop :=
  ∀ (s : State) (nbits w : Nat) (i : Instr), decodeTableWord nbits w = some i →
    ∃ s', step (s.withFetchWord nbits w) = exec i s' ∧
      (s' = s ∨ encode i = .phase s'.phase.code ∧ s'.stage = .entry) ∧
      s'.work = s.work ∧ s'.tab = s.tab ∧ s'.outCnt = s.outCnt ∧ s'.op = s.op ∧ s'.done = s.done ∧
      s'.err = s.err ∧ s'.errcode = s.errcode ∧ s'.outside = { s.outside with rst := s'.outside.rst }

/-! ### Commands -/

/-- 40_commands.md R81. -/
def Obligations.NopChangesNothing : Prop := ∀ s : State, exec .nop s = .next s

/-- 40_commands.md R82 at acceptance, R80 and 70_reset_and_hazards.md R210 for the dropped write. -/
def Obligations.CompressAcceptance : Prop :=
  ∀ s : State,
    (s.phase = .idle → s.outside.rst = false →
      (s.inLen.toNat ≤ 2147483647 → exec .compress s = .next
        { s with done := false, err := false, errcode := 0, outCnt := 0, op := .comp, phase := .count, stage := .entry }) ∧
      (2147483647 < s.inLen.toNat → exec .compress s = .next
        { s with done := false, err := true, errcode := 0x02, outCnt := 0, op := .comp, stage := .entry })) ∧
    (s.phase ≠ .idle ∨ s.outside.rst = true → exec .compress s = .next s)

/-- 40_commands.md R83 at acceptance: `E_TOOLARGE`, then `E_SHORT`; R80 and R210 for the dropped write. -/
def Obligations.DecompressAcceptance : Prop :=
  ∀ s : State,
    (s.phase = .idle → s.outside.rst = false →
      (1025 ≤ s.inLen.toNat → s.inLen.toNat ≤ 2147483647 → exec .decompress s = .next
        { s with done := false, err := false, errcode := 0, outCnt := 0, op := .decomp, phase := .loadhdr,
                 stage := .entry }) ∧
      (2147483647 < s.inLen.toNat → exec .decompress s = .next
        { s with done := false, err := true, errcode := 0x02, outCnt := 0, op := .decomp, stage := .entry }) ∧
      (s.inLen.toNat < 1025 → exec .decompress s = .next
        { s with done := false, err := true, errcode := 0x10, outCnt := 0, op := .decomp, stage := .entry })) ∧
    (s.phase ≠ .idle ∨ s.outside.rst = true → exec .decompress s = .next s)

/-- 40_commands.md R84. -/
def Obligations.ClearAcknowledges : Prop :=
  ∀ s : State,
    (s.phase = .idle → s.outside.rst = false → exec .clear s = .next
      { s with done := false, err := false, errcode := 0, outCnt := 0, op := .none }) ∧
    (s.phase ≠ .idle ∨ s.outside.rst = true → exec .clear s = .next s)

/-- 30_encoding.md R63, 40_commands.md R85. -/
def Obligations.ReservedRaises : Prop :=
  ∀ (s : State) (w : Word), 4 ≤ w.toNat →
    decode (.cmd w) = .ok (.reservedCmd w) ∧
    (s.phase = .idle → s.outside.rst = false → exec (.reservedCmd w) s = .next
      { s with err := true, done := false, errcode := 0x01, stage := .entry }) ∧
    (s.phase ≠ .idle ∨ s.outside.rst = true → exec (.reservedCmd w) s = .next s)

/-- 70_reset_and_hazards.md R216, 40_commands.md R80. The script of host moves is the model's (log 4). -/
def Obligations.BusyWritesLost : Prop :=
  ∀ (s : State) (off v : Word) (rest : List HostMove), s.phase ≠ .idle → off = 0x00 ∨ off = 0x0C →
    s.outside.script = .regWrite off 4 v :: rest → step s = .next (s.withScript rest)

/-- 10_state.md R13: IDLE has no step of its own, and only an accepted COMPRESS or DECOMPRESS leaves it. The
script of host moves is the model's (log 4). -/
def Obligations.OnlyCommandsLeaveIdle : Prop :=
  ∀ s t : State,
    exec .idle s = .next s ∧
    (s.phase = .idle → step s = .next t → t.phase ≠ .idle →
      s.outside.rst = false ∧ ∃ rest, t.outside.script = rest ∧
        (s.outside.script = wrCmd 1 :: rest ∧ t.phase = .count ∧ t.op = .comp ∨
         s.outside.script = wrCmd 2 :: rest ∧ t.phase = .loadhdr ∧ t.op = .decomp))

/-! ### The register port and reset -/

/-- 10_state.md R17 and 40_commands.md R80: the bits of `STATUS`, a read of it at any instant, and a write to it. The
model's own: the script of host moves (log 4), the list the read values go to (log 5), and that a read while `rst` is
asserted is answered too (log 19). -/
def Obligations.StatusRegister : Prop :=
  ∀ (s : State) (rest : List HostMove),
    (∀ k, s.status.getLsbD k =
      if k = 0 then decide (s.phase ≠ .idle) else if k = 1 then s.done else if k = 2 then s.err else false) ∧
    (s.outside.script = rd 0x04 :: rest → step s = .next
      { s with outside := { s.outside with script := rest, reads := s.status :: s.outside.reads } }) ∧
    (∀ v, s.outside.script = .regWrite 0x04 4 v :: rest → step s = .next (s.withScript rest))

/-- 10_state.md R20 with R16, R18, R19, R21 and 40_commands.md R80: the register map, whole aligned accesses only. The
model's own: the refusal by name (log 15), the script and the list of read values (logs 4 and 5), and that a read while
`rst` is asserted is answered too (log 19). -/
def Obligations.RegisterMap : Prop :=
  ∀ (s : State) (off v : Word) (n : Nat) (rest : List HostMove),
    (s.regValue 0x00 = 0 ∧ s.regValue 0x04 = s.status ∧ s.regValue 0x08 = s.errcode ∧ s.regValue 0x0C = s.inLen ∧
      (s.regValue 0x10).toNat + 2 ^ 32 * (s.regValue 0x14).toNat = s.outCnt.toNat ∧
      (0x18 ≤ off.toNat → s.regValue off = 0)) ∧
    (s.outside.script = .regRead off n :: rest →
      (n = 4 → off.toNat % 4 = 0 → step s = .next
        { s with outside := { s.outside with script := rest, reads := s.regValue off :: s.outside.reads } }) ∧
      (n ≠ 4 ∨ off.toNat % 4 ≠ 0 → step s = .refused (.registerAccess off n))) ∧
    (s.outside.script = .regWrite off n v :: rest →
      (n = 4 → off = 0x0C → s.phase = .idle → s.outside.rst = false →
        step s = .next { s.withScript rest with inLen := v }) ∧
      (n = 4 → off.toNat % 4 = 0 → off ≠ 0x00 → off ≠ 0x0C → step s = .next (s.withScript rest)) ∧
      (n ≠ 4 ∨ off.toNat % 4 ≠ 0 → step s = .refused (.registerAccess off n)))

/-- 70_reset_and_hazards.md R210, R211, R213: `rst` from any state; nothing moves while it is asserted; after its
release the block is in IDLE. Nothing is said of the working registers and tables (R212; logs 1 and 9). The
script of host moves is the model's (log 4). -/
def Obligations.ResetInput : Prop :=
  ∀ (s : State) (rest : List HostMove),
    (s.outside.script = .rst true :: rest → ∃ t, step s = .next t ∧
      t.phase = .idle ∧ t.op = .none ∧ t.done = false ∧ t.err = false ∧ t.errcode = 0 ∧ t.inLen = 0 ∧ t.outCnt = 0 ∧
      t.status = 0 ∧ t.outside = { s.outside with script := rest, rst := true }) ∧
    (s.outside.rst = true →
      (s.outside.script = [] → step s = .next s) ∧
      (∀ n, s.outside.script = .run (n + 2) :: rest → step s = .next (s.withScript (.run (n + 1) :: rest))) ∧
      (∀ off v, off.toNat % 4 = 0 → s.outside.script = .regWrite off 4 v :: rest →
        step s = .next (s.withScript rest))) ∧
    (s.outside.script = .rst true :: .rst false :: rest → ∃ t, runFor 2 s = .next t ∧
      t.phase = .idle ∧ t.outside = { s.outside with script := rest, rst := false })

/-- 70_reset_and_hazards.md R211, 10_state.md R30: the reset values the spec states. -/
def Obligations.ResetValues : Prop :=
  State.reset.phase = .idle ∧ State.reset.op = .none ∧ State.reset.done = false ∧ State.reset.err = false ∧
  State.reset.errcode = 0 ∧ State.reset.inLen = 0 ∧ State.reset.outCnt = 0 ∧ State.reset.status = 0

/-! ### Errors -/

/-- 60_exceptions.md R181, R190, R192: every step that raises an error, with its code, the phase and condition that
raise it, and the output written before. -/
def Obligations.ErrorTable : Prop :=
  ∀ s t : State, Inv s → step s = .next t → t.err = true → s.err = false ∨ t.errcode ≠ s.errcode →
    t.phase = .idle ∧ t.done = false ∧ t.inLen = s.inLen ∧ t.outside.out = s.outside.out ∧
    (t.errcode = 0x01 ∧ s.phase = .idle ∧ t.outCnt = s.outCnt ∧
        (∃ w rest, s.outside.script = wrCmd w :: rest ∧ 4 ≤ w.toNat) ∨
     t.errcode = 0x02 ∧ s.phase = .idle ∧ t.outCnt = 0 ∧ 2147483647 < s.inLen.toNat ∧
        (∃ w rest, s.outside.script = wrCmd w :: rest ∧ (w = 1 ∨ w = 2)) ∨
     t.errcode = 0x10 ∧ s.phase = .idle ∧ t.outCnt = 0 ∧ s.inLen.toNat < 1025 ∧
        (∃ rest, s.outside.script = wrCmd 2 :: rest) ∨
     t.errcode = 0x11 ∧ s.phase = .loadhdr ∧ t.outCnt = 0 ∧ 2147483647 < t.work.sum.toNat ∨
     t.errcode = 0x12 ∧ s.phase = .rdtrailer ∧ t.outCnt = 0 ∧
        (7 < t.work.padreg.toNat ∨ t.work.dlen = 0 ∧ t.work.padreg ≠ 0) ∨
     t.errcode = 0x13 ∧ s.phase = .unpack ∧ t.outCnt = t.work.sum ∧ t.work.cur.toNat < 256 ∨
     t.errcode = 0x14 ∧ s.phase = .endcheck ∧ t.outCnt.toNat ≤ t.work.sum.toNat ∧ t.work.cur ≠ t.work.root ∨
     t.errcode = 0x15 ∧ s.phase = .endcheck ∧ t.outCnt.toNat < t.work.sum.toNat ∧ t.work.cur = t.work.root)

/-- 60_exceptions.md R200: no step of a COMPRESS raises, it leaves the running phases by `done` (or by the host's
reset), and while the host only watches it does end so, whatever polls fall in between (the script is log 4). -/
def Obligations.CompressNeverFails : Prop :=
  ∀ s : State, Inv s → s.phase ≠ .idle → s.op = .comp →
    (∀ t, step s = .next t → t.err = false ∧ (t.phase = .idle → t.done = true ∨ t.outside.rst = true)) ∧
    (Watched s → ∃ t, Leads s t ∧ t.outside.script = [] ∧ Succeeded t)

/-- 40_commands.md R89, 70_reset_and_hazards.md R222: every accepted operation ends, within the number of steps R89
gives for the granularity of R221 (which the model refines, log 3). -/
def Obligations.EveryOperationEnds : Prop :=
  ∀ s : State, Inv s → Undisturbed s → s.stage = .entry →
    (s.phase = .count → ∃ k t, k ≤ 2 * s.inLen.toNat * 256 + 200000 ∧ runFor k s = .next t ∧ Succeeded t) ∧
    (s.phase = .loadhdr → ∃ k t, k ≤ 9 * s.inLen.toNat + 200000 ∧ runFor k s = .next t ∧
      (Succeeded t ∨ ∃ e, FailedWith t e))

/-! ### Frames over all instructions -/

/-- 20_memory.md R40, R42, 10_state.md R27: what an instruction may do outside the block. A byte of `OUT` goes to
position `OUT_CNT` and nowhere else, by the four phases that write; `IN`, the ports and the host's data stay. -/
def Obligations.OutputOnlyAppended : Prop :=
  ∀ (i : Instr) (s t : State), exec i s = .next t →
    t.outside = { s.outside with out := t.outside.out } ∧
    ((i = .emithdr ∨ i = .pack ∨ i = .finish ∨ i = .unpack) ∧ t.outCnt = s.outCnt + 1 ∧
        (∀ a, a ≠ s.outCnt.toNat → t.outside.out.read a = s.outside.out.read a) ∨
     (t.outCnt = s.outCnt ∨ t.outCnt = 0 ∧ (i = .compress ∨ i = .decompress ∨ i = .clear)) ∧
        ∀ a, t.outside.out.read a = s.outside.out.read a)

/-- 10_state.md R22 to R26, 41_frequency_table.md R107: which phases write each working register and each table, "and by
nothing else". R105 names `BYTE` among LOADHDR's writes; the statement keeps to R22's table (log 14). -/
def Obligations.WorkingStateWrittenBy : Prop :=
  ∀ (i : Instr) (s t : State), exec i s = .next t →
    (t.work.acc = s.work.acc ∨ i = .pack ∨ i = .finish) ∧
    (t.work.free = s.work.free ∨ i = .pack) ∧
    (t.work.pos = s.work.pos ∨ i = .count ∨ i = .loadhdr ∨ i = .pack ∨ i = .unpack) ∧
    (t.work.cidx = s.work.cidx ∨ i = .pack) ∧
    (t.work.byte = s.work.byte ∨ i = .count ∨ i = .pack ∨ i = .unpack) ∧
    (t.work.bcnt = s.work.bcnt ∨ i = .unpack) ∧
    (t.work.cur = s.work.cur ∨ i = .unpack) ∧
    (t.work.padreg = s.work.padreg ∨ i = .rdtrailer) ∧
    (t.work.dlen = s.work.dlen ∨ i = .rdtrailer) ∧
    (t.work.sum = s.work.sum ∨ i = .loadhdr) ∧
    (t.work.vidx = s.work.vidx ∨ i = .count ∨ i = .loadhdr ∨ i = .build ∨ i = .emithdr) ∧
    (t.work.sidx = s.work.sidx ∨ i = .build) ∧
    (t.work.sela = s.work.sela ∨ i = .build) ∧
    (t.work.selb = s.work.selb ∨ i = .build) ∧
    (t.work.live = s.work.live ∨ i = .build) ∧
    (t.work.next = s.work.next ∨ i = .build) ∧
    (t.work.root = s.work.root ∨ i = .build) ∧
    (t.tab.freq = s.tab.freq ∨ i = .count ∨ i = .loadhdr) ∧
    (t.tab.node = s.tab.node ∨ i = .build) ∧
    (t.tab.slot = s.tab.slot ∨ i = .build) ∧
    (t.tab.code = s.tab.code ∨ i = .codegen)

/-- 10_state.md R12, R15, R18, R19, 40_commands.md R88: which instructions write `OP`, the flags, `ERRCODE` and `IN_LEN`;
`DONE` is set by FINISH and ENDCHECK only, on the way to IDLE. -/
def Obligations.FlagsWrittenBy : Prop :=
  ∀ (i : Instr) (s t : State), exec i s = .next t →
    t.inLen = s.inLen ∧
    (t.op = s.op ∨ i = .compress ∨ i = .decompress ∨ i = .clear) ∧
    (t.done = s.done ∧ t.err = s.err ∧ t.errcode = s.errcode ∨
      i = .compress ∨ i = .decompress ∨ i = .clear ∨ (∃ w, i = .reservedCmd w) ∨
      i = .loadhdr ∨ i = .rdtrailer ∨ i = .unpack ∨ i = .finish ∨ i = .endcheck) ∧
    (s.done = false → t.done = true →
      (i = .finish ∨ i = .endcheck) ∧ t.phase = .idle ∧ t.err = s.err ∧ t.errcode = s.errcode)

/-- 40_commands.md R86, R87, R88: the order of the phases. -/
def Obligations.PhaseOrder : Prop :=
  ∀ s t : State, Inv s → step s = .next t → t.phase ≠ s.phase →
    s.phase = .idle ∧ (t.op = .comp ∧ t.phase = .count ∨ t.op = .decomp ∧ t.phase = .loadhdr) ∨
    s.op = .comp ∧ (s.phase, t.phase) ∈
      [(Phase.count, Phase.build), (.build, .emithdr), (.emithdr, .codegen), (.codegen, .pack), (.pack, .finish)] ∨
    s.op = .comp ∧ s.phase = .finish ∧ Succeeded t ∨
    s.op = .decomp ∧ (s.phase, t.phase) ∈
      [(Phase.loadhdr, Phase.build), (.build, .rdtrailer), (.rdtrailer, .unpack), (.unpack, .endcheck)] ∨
    s.op = .decomp ∧ s.phase = .endcheck ∧ Succeeded t ∨
    s.op = .decomp ∧ s.phase ∈ [Phase.loadhdr, .rdtrailer, .unpack, .endcheck] ∧ (∃ e, FailedWith t e) ∨
    t.phase = .idle ∧ t.outside.rst = true

/-- 70_reset_and_hazards.md R218: a step that holds a port transaction waits, changing nothing, while the host does not
answer. Ports that never fail are the model's (log 10), which transactions one step holds is log 3. -/
def Obligations.PortsWait : Prop :=
  ∀ (i : Instr) (s : State), Inv s → decode (.phase s.phase.code) = .ok i →
    (s.outside.inAnswers = false →
      s.phase = .loadhdr ∨ s.phase = .rdtrailer ∨ s.phase = .count ∧ s.stage = .tally ∨
        (s.phase = .pack ∨ s.phase = .unpack) ∧ s.stage = .fetch →
      exec i s = .next s) ∧
    (s.outside.outAccepts = false →
      s.phase = .emithdr ∨ s.phase = .finish ∨ s.phase = .pack ∧ s.stage = .push ∧ s.work.free = 0 ∨
        s.phase = .unpack ∧ s.stage = .walk ∧ s.outCnt ≠ s.work.sum ∧
          (∃ c, s.tab.node.children? s.work.cur = some c ∧ (childOf c s.work.byte.msb).toNat < 256) →
      exec i s = .next s)

/-! ### COUNT, EMITHDR, LOADHDR -/

/-- 41_frequency_table.md R100, one step. `v` is the entry cleared. The model's own: what one step is, with `POS` set to 0
in the last clearing step and the loop tests in the steps that end an iteration (log 3), and `VIDX = 256` and
`POS = IN_LEN` after the loops (log 17). -/
def Obligations.CountStep : Prop :=
  ∀ (s : State) (v : BitVec 9) (b : Byte),
    (v.toNat < 256 → s.stage = .entry ∧ v = 0 ∨ s.stage = .clear ∧ v = s.work.vidx →
      exec .count s = .next { s with
        tab.freq := s.tab.freq.withEntry (v.setWidth 8) 0
        work.vidx := v + 1
        work.pos := if v = 255 then 0 else s.work.pos
        phase := if v = 255 ∧ s.inLen = 0 then .build else s.phase
        stage := if v = 255 then (if s.inLen = 0 then .entry else .tally) else .clear }) ∧
    (s.stage = .tally → s.work.pos.toNat < s.inLen.toNat → s.outside.inAnswers = true →
      b = s.outside.inp.read s.work.pos.toNat →
      exec .count s = .next { s with
        tab.freq := s.tab.freq.withEntry b (s.tab.freq.entry b + 1)
        work.byte := b
        work.pos := s.work.pos + 1
        phase := if s.work.pos.toNat + 1 = s.inLen.toNat then .build else s.phase
        stage := if s.work.pos.toNat + 1 = s.inLen.toNat then .entry else .tally })

/-- 41_frequency_table.md R101, R102: the whole phase. -/
def Obligations.CountCounts : Prop :=
  ∀ s : State, Inv s → Undisturbed s → s.phase = .count → s.stage = .entry →
    ∃ t, Leads s t ∧ t.phase = .build ∧ t.stage = .entry ∧
      t.counts = freq s.input ∧ countSum t.counts = s.inLen.toNat ∧
      (∀ v, (t.counts v).toNat = s.input.count v ∧ (t.counts v).toNat ≤ s.inLen.toNat) ∧
      SameCommand s t ∧ t.outside = s.outside ∧ t.outCnt = 0 ∧ t.tab = { s.tab with freq := t.tab.freq }

/-- 41_frequency_table.md R103, one `OutByte`: byte `k` of `FREQ[v]`. The model's own: one byte a step, where R221 suggests
one entry (log 3), and `VIDX = 256` after the loop (log 17). -/
def Obligations.EmithdrStep : Prop :=
  ∀ (s : State) (v : BitVec 9) (k : Fin 4), v.toNat < 256 → s.outside.outAccepts = true →
    s.stage = .entry ∧ v = 0 ∧ k = 0 ∨ s.stage = .emit k ∧ v = s.work.vidx →
    exec .emithdr s = .next { s with
      outside.out := s.outside.out.write s.outCnt.toNat
        (BitVec.ofNat 8 ((s.tab.freq.entry (v.setWidth 8)).toNat / 256 ^ k.val))
      outCnt := s.outCnt + 1
      work.vidx := if k = 3 then v + 1 else v
      phase := if k = 3 ∧ v = 255 then .codegen else s.phase
      stage := if k = 3 then (if v = 255 then .entry else .emit 0) else .emit (k + 1) }

/-- 41_frequency_table.md R104: the whole phase writes `hdr(FREQ)`, 1024 bytes. -/
def Obligations.EmithdrWritesHeader : Prop :=
  ∀ s : State, Inv s → Undisturbed s → s.phase = .emithdr → s.stage = .entry →
    ∃ t, Leads s t ∧ t.phase = .codegen ∧ t.stage = .entry ∧ t.outCnt = 1024 ∧ t.output = hdr s.counts ∧
      (∀ (v : Byte) (k : Fin 4), t.outside.out.read (4 * v.toNat + k.val) =
        BitVec.ofNat 8 ((s.counts v).toNat / 256 ^ k.val)) ∧
      (∀ a, 1024 ≤ a → t.outside.out.read a = s.outside.out.read a) ∧
      SameCommand s t ∧ t.tab = s.tab ∧ t.outside = { s.outside with out := t.outside.out }

/-- 41_frequency_table.md R105, one `InByte`: the first, the next of an entry, and the fourth with the sum and the test.
The model's own: one byte a step with the loop test in the last step of an entry (log 3), `VIDX = 256` and `POS` left at
1020 after the loop (log 17), `BYTE` left alone as R22 and the pseudocode have it (log 14). -/
def Obligations.LoadhdrStep : Prop :=
  ∀ (s : State) (b : Byte), s.outside.inAnswers = true → 1025 ≤ s.inLen.toNat →
    (s.stage = .entry → b = s.outside.inp.read 0 → exec .loadhdr s = .next { s with
      work.sum := 0, work.vidx := 0, work.pos := 0, stage := .load [b] }) ∧
    (s.work.vidx.toNat < 256 →
      (s.stage = .load [] → b = s.outside.inp.read (4 * s.work.vidx.toNat) → exec .loadhdr s = .next { s with
        work.pos := BitVec.ofNat 32 (4 * s.work.vidx.toNat), stage := .load [b] }) ∧
      (∀ got, s.stage = .load got → s.work.pos.toNat = 4 * s.work.vidx.toNat → got.length = 1 ∨ got.length = 2 →
        b = s.outside.inp.read (4 * s.work.vidx.toNat + got.length) →
        exec .loadhdr s = .next { s with stage := .load (got ++ [b]) }) ∧
      (∀ b0 b1 b2 c, s.stage = .load [b0, b1, b2] → s.work.pos.toNat = 4 * s.work.vidx.toNat →
        b = s.outside.inp.read (4 * s.work.vidx.toNat + 3) →
        c = BitVec.ofNat 32 (b0.toNat + 2 ^ 8 * b1.toNat + 2 ^ 16 * b2.toNat + 2 ^ 24 * b.toNat) →
        ∃ t, exec .loadhdr s = .next t ∧ t.tab = { s.tab with freq := s.tab.freq.withEntry (s.work.vidx.setWidth 8) c } ∧
          t.work = { s.work with sum := s.work.sum + c.setWidth 40, vidx := s.work.vidx + 1 } ∧
          t.outside = s.outside ∧ t.outCnt = s.outCnt ∧ t.op = s.op ∧ t.inLen = s.inLen ∧
          (s.work.vidx ≠ 255 → SameCommand s t ∧ t.phase = s.phase ∧ t.stage = .load []) ∧
          (s.work.vidx = 255 → t.work.sum.toNat ≤ 2147483647 →
            SameCommand s t ∧ t.phase = .build ∧ t.stage = .entry) ∧
          (s.work.vidx = 255 → 2147483647 < t.work.sum.toNat → FailedWith t .sum)))

/-- 41_frequency_table.md R105, R106: the whole phase. -/
def Obligations.LoadhdrLoadsHeader : Prop :=
  ∀ s : State, Inv s → Undisturbed s → s.phase = .loadhdr → s.stage = .entry →
    ∃ t, Leads s t ∧ t.counts = unhdr (s.outside.inp.bytes 0 1024) ∧ t.work.sum.toNat = countSum t.counts ∧
      (countSum t.counts ≤ 2147483647 → SameCommand s t ∧ t.phase = .build ∧ t.stage = .entry) ∧
      (2147483647 < countSum t.counts → FailedWith t .sum) ∧
      t.outside = s.outside ∧ t.outCnt = 0 ∧ t.tab = { s.tab with freq := t.tab.freq }

/-- 41_frequency_table.md R104, R106: the header as a map on byte sequences. -/
def Obligations.HeaderRoundTrip : Prop :=
  (∀ F : Counts, (hdr F).length = 1024 ∧ unhdr (hdr F) = F) ∧
  (∀ H : List Byte, H.length = 1024 → hdr (unhdr H) = H ∧ ∀ v : Byte, ((unhdr H) v).toNat =
    (H.getD (4 * v.toNat) 0).toNat + 2 ^ 8 * (H.getD (4 * v.toNat + 1) 0).toNat +
      2 ^ 16 * (H.getD (4 * v.toNat + 2) 0).toNat + 2 ^ 24 * (H.getD (4 * v.toNat + 3) 0).toNat)

/-! ### BUILD -/

/-- 42_tree_builder.md R111, one entry: leaf and slot `v`; after the last one `NEXT`, `LIVE` and the first select. The
model's own: `NEXT`, `LIVE` and the select's `SIDX = 0` set in the last entry's step (log 3), `VIDX = 256` after the loop
(log 17). -/
def Obligations.BuildInitStep : Prop :=
  ∀ (s : State) (v : BitVec 9), v.toNat < 256 → s.stage = .entry ∧ v = 0 ∨ s.stage = .initLeaf ∧ v = s.work.vidx →
    ∃ t, exec .build s = .next t ∧
      (∀ n : BitVec 9, (t.tab.node.node? n).map (·.w) =
        if n = v then some (s.tab.freq.entry (v.setWidth 8)) else (s.tab.node.node? n).map (·.w)) ∧
      (∀ n, t.tab.node.children? n = s.tab.node.children? n) ∧
      (∀ i : Byte, t.tab.slot.entry i = if i.toNat = v.toNat then { v := true, n := v } else s.tab.slot.entry i) ∧
      t.tab.freq = s.tab.freq ∧ t.tab.code = s.tab.code ∧ t.outside = s.outside ∧ t.outCnt = s.outCnt ∧
      SameCommand s t ∧ t.phase = s.phase ∧
      (v ≠ 255 → t.stage = .initLeaf ∧ t.work = { s.work with vidx := v + 1 }) ∧
      (v = 255 → t.stage = .scanA none ∧ t.work = { s.work with vidx := 256, next := 256, live := 256, sidx := 0 })

/-- 42_tree_builder.md R112, R115: from the start of `select(none)` the two selects find the least and the second least
live slot in the order (weight, slot index), and nothing but the scan's registers changes. -/
def Obligations.SelectsTheTwoLeast : Prop :=
  ∀ s : State, Inv s → Undisturbed s → s.phase = .build → s.stage = .scanA none → s.work.sidx = 0 →
    ∃ t wa wb, Leads s t ∧ t.phase = .build ∧ t.stage = .merge ∧
      (s.tab.slot.entry t.work.sela).v = true ∧ slotWeight s.tab t.work.sela = some wa ∧
      (s.tab.slot.entry t.work.selb).v = true ∧ slotWeight s.tab t.work.selb = some wb ∧
      t.work.sela ≠ t.work.selb ∧
      (∀ i w, (s.tab.slot.entry i).v = true → slotWeight s.tab i = some w → i ≠ t.work.sela →
        wa.toNat < w.toNat ∨ wa = w ∧ t.work.sela.toNat < i.toNat) ∧
      (∀ i w, (s.tab.slot.entry i).v = true → slotWeight s.tab i = some w → i ≠ t.work.sela → i ≠ t.work.selb →
        wb.toNat < w.toNat ∨ wb = w ∧ t.work.selb.toNat < i.toNat) ∧
      t.work = { s.work with sidx := t.work.sidx, sela := t.work.sela, selb := t.work.selb } ∧
      t.tab = s.tab ∧ t.outside = s.outside ∧ t.outCnt = s.outCnt ∧ SameCommand s t

/-- 42_tree_builder.md R113 and the loop test of R114. The model's own: the test, and `SIDX` set to 0 for the next select,
in the merge's step (log 3), and `SIDX` left as it is before the root's step (log 17). -/
def Obligations.MergeStep : Prop :=
  ∀ s : State, Inv s → s.phase = .build → s.stage = .merge →
    ∃ t na nb, exec .build s = .next t ∧
      s.tab.node.node? (s.tab.slot.entry s.work.sela).n = some na ∧
      s.tab.node.node? (s.tab.slot.entry s.work.selb).n = some nb ∧
      (∀ n : BitVec 9, t.tab.node.node? n =
        if n.toNat = s.work.next.toNat then
          some { w := na.w + nb.w, l := (s.tab.slot.entry s.work.sela).n, r := (s.tab.slot.entry s.work.selb).n }
        else s.tab.node.node? n) ∧
      (t.tab.slot.entry s.work.sela).v = true ∧ (t.tab.slot.entry s.work.sela).n.toNat = s.work.next.toNat ∧
      (t.tab.slot.entry s.work.selb).v = false ∧
      (∀ i, i ≠ s.work.sela → i ≠ s.work.selb → t.tab.slot.entry i = s.tab.slot.entry i) ∧
      t.work.next.toNat = s.work.next.toNat + 1 ∧ t.work.live.toNat + 1 = s.work.live.toNat ∧
      t.work = { s.work with next := t.work.next, live := t.work.live, sidx := t.work.sidx } ∧
      (2 < s.work.live.toNat → t.stage = .scanA none ∧ t.work.sidx = 0) ∧
      (s.work.live = 2 → t.stage = .root ∧ t.work.sidx = s.work.sidx) ∧
      t.tab.freq = s.tab.freq ∧ t.tab.code = s.tab.code ∧ t.outside = s.outside ∧ t.outCnt = s.outCnt ∧
      SameCommand s t ∧ t.phase = .build

/-- 42_tree_builder.md R116: the root and the successor, in a step of their own (log 3). -/
def Obligations.RootAndSuccessor : Prop :=
  ∀ s : State, Inv s → s.phase = .build → s.stage = .root →
    exec .build s = .next { s with
      work.root := 510, phase := if s.op = .comp then .emithdr else .rdtrailer, stage := .entry }

/-- 42_tree_builder.md R114, R116, R120, R221's count and 10_state.md R29: the whole phase takes 131072 steps for every
table (the step is the model's, log 3) and leaves a binary tree over all the leaves. -/
def Obligations.BuildWhole : Prop :=
  ∀ s : State, Inv s → Undisturbed s → s.phase = .build → s.stage = .entry →
    ∃ t, runFor 131072 s = .next t ∧ t.phase = (if s.op = .comp then .emithdr else .rdtrailer) ∧ t.stage = .entry ∧
      t.work.root = 510 ∧ t.work.next = 511 ∧ t.work.live = 1 ∧ liveSlots t.tab.slot = 1 ∧
      (∀ n : BitVec 9, 256 ≤ n.toNat → n.toNat ≤ 510 → ∃ c, t.tab.node.children? n = some c ∧
        c.1 ≠ c.2 ∧ c.1.toNat < n.toNat ∧ c.2.toNat < n.toNat) ∧
      (∀ m : BitVec 9, m.toNat ≤ 509 → ∃! n : BitVec 9, ∃ c, t.tab.node.children? n = some c ∧ (c.1 = m ∨ c.2 = m)) ∧
      t.tab.freq = s.tab.freq ∧ t.tab.code = s.tab.code ∧ t.outside = s.outside ∧ t.outCnt = s.outCnt ∧ SameCommand s t

/-- 42_tree_builder.md R118 with R117: after BUILD the arena read from `ROOT` is `tree(FREQ)`, and the root's weight is
the sum of the table. -/
def Obligations.BuildsTheTree : Prop :=
  ∀ s : State, Inv s → Undisturbed s → s.phase = .build → s.stage = .entry → countSum s.counts ≤ 2147483647 →
    ∃ t, Leads s t ∧ t.phase = (if s.op = .comp then .emithdr else .rdtrailer) ∧ t.stage = .entry ∧
      ReadsAs t.tab.node t.work.root (tree s.counts) ∧
      (∃ nd, t.tab.node.node? t.work.root = some nd ∧ nd.w.toNat = countSum s.counts)

/-- 42_tree_builder.md R119: two BUILDs from equal tables, whatever else differs, give equal arenas (a leaf has no
children, log 18). -/
def Obligations.BuildDeterministic : Prop :=
  ∀ s s' : State, Inv s → Inv s' → Undisturbed s → Undisturbed s' →
    s.phase = .build → s'.phase = .build → s.stage = .entry → s'.stage = .entry → s.counts = s'.counts →
    ∃ t t', Leads s t ∧ Leads s' t' ∧ t.phase ≠ .build ∧ t'.phase ≠ .build ∧ t.stage = .entry ∧ t'.stage = .entry ∧
      t.work.root = t'.work.root ∧
      ∀ n : BitVec 9, (t.tab.node.node? n).map (·.w) = (t'.tab.node.node? n).map (·.w) ∧
        t.tab.node.children? n = t'.tab.node.children? n

/-- 42_tree_builder.md R120: the tree has exactly the 256 leaves, one for each byte value, and depth 1 to 255. -/
def Obligations.TreeShape : Prop :=
  ∀ F : Counts, List.Perm (tree F).leaves allBytes ∧ ∀ v : Byte,
    (tree F).path v = some (code F v) ∧ 1 ≤ (code F v).length ∧ (code F v).length ≤ 255

/-! ### CODEGEN -/

/-- 43_code_table.md R130, one call of `visit`; `rest` are the calls still to make (the model's stack, logs 3 and 23). -/
def Obligations.CodegenStep : Prop :=
  ∀ (s : State) (n : BitVec 9) (path : List Bool) (rest : List (BitVec 9 × List Bool)),
    s.stage = .entry ∧ n = s.work.root ∧ path = [] ∧ rest = [] ∨ s.stage = .visit ((n, path) :: rest) →
    (n.toNat < 256 → path.length ≤ 255 → ∃ t, exec .codegen s = .next t ∧
      t = { s with tab.code := t.tab.code, phase := if rest = [] then .pack else s.phase,
                   stage := if rest = [] then .entry else .visit rest } ∧
      (t.tab.code.entry (n.setWidth 8)).len.toNat = path.length ∧ (t.tab.code.entry (n.setWidth 8)).bits = path ∧
      ∀ v : Byte, v.toNat ≠ n.toNat → t.tab.code.entry v = s.tab.code.entry v) ∧
    (∀ l r, 256 ≤ n.toNat → s.tab.node.children? n = some (l, r) →
      exec .codegen s = .next { s with stage := .visit ((l, path ++ [false]) :: (r, path ++ [true]) :: rest) })

/-- 43_code_table.md R131: from BUILD on, a COMPRESS reaches PACK with the codes of its table. -/
def Obligations.CodesOfTheTable : Prop :=
  ∀ s : State, Inv s → Undisturbed s → s.phase = .build → s.stage = .entry → s.op = .comp →
    countSum s.counts ≤ 2147483647 →
    ∃ t, Leads s t ∧ t.phase = .pack ∧ t.stage = .entry ∧ t.outCnt = 1024 ∧ t.tab.freq = s.tab.freq ∧ SameCommand s t ∧
      ∀ v, (t.tab.code.entry v).bits = code s.counts v ∧
        (t.tab.code.entry v).len.toNat = (code s.counts v).length

/-- 43_code_table.md R132: no code is a prefix of another, and the code set is complete. -/
def Obligations.PrefixFreeAndComplete : Prop :=
  ∀ F : Counts, (∀ u v : Byte, u ≠ v → ¬ List.IsPrefix (code F u) (code F v)) ∧
    ∀ x : Nat → Bool, ∃! v : Byte, code F v = (List.range (code F v).length).map x

/-! ### PACK, FINISH -/

/-- 44_encoder.md R140 to R142, one step: the start, an `InByte`, a PUSHBIT with its flush. Only a flush waits for the
output port. No code is empty (R133); what an empty one would do, PackAppends says. The model's own: what one step is,
with `POS` set to 0 in the start's step and the loop tests in the steps that end an iteration (log 3), and `CIDX` left at
`LEN - 1` and `POS` at `IN_LEN` after the loops (log 17). -/
def Obligations.PackStep : Prop :=
  ∀ (s : State) (b : Byte) (bit : Bool),
    (s.stage = .entry → exec .pack s = .next { s with
      work.acc := 0, work.free := 8, work.pos := 0
      phase := if s.inLen = 0 then .finish else s.phase
      stage := if s.inLen = 0 then .entry else .fetch }) ∧
    (s.stage = .fetch → s.work.pos.toNat < s.inLen.toNat → s.outside.inAnswers = true →
      b = s.outside.inp.read s.work.pos.toNat → (s.tab.code.entry b).len ≠ 0 →
      exec .pack s = .next { s with work.byte := b, work.cidx := 0, stage := .push }) ∧
    (s.stage = .push → (s.work.free = 0 → s.outside.outAccepts = true) →
      (s.tab.code.entry s.work.byte).bits[s.work.cidx.toNat]? = some bit →
      ∃ t, exec .pack s = .next t ∧
        t.work.acc = BitVec.ofNat 8 (2 * s.work.acc.toNat + bit.toNat) ∧
        (s.work.free ≠ 0 → t.work.free = s.work.free - 1 ∧ t.outside = s.outside ∧ t.outCnt = s.outCnt) ∧
        (s.work.free = 0 → t.work.free = 7 ∧ t.outCnt = s.outCnt + 1 ∧
          t.outside = { s.outside with out := s.outside.out.write s.outCnt.toNat s.work.acc }) ∧
        t.work = { s.work with acc := t.work.acc, free := t.work.free, cidx := t.work.cidx, pos := t.work.pos } ∧
        (s.work.cidx.toNat + 1 < (s.tab.code.entry s.work.byte).len.toNat →
          t.work.cidx = s.work.cidx + 1 ∧ t.work.pos = s.work.pos ∧ t.phase = s.phase ∧ t.stage = .push) ∧
        ((s.tab.code.entry s.work.byte).len.toNat ≤ s.work.cidx.toNat + 1 →
          t.work.cidx = s.work.cidx ∧ t.work.pos = s.work.pos + 1 ∧
          (s.work.pos.toNat + 1 < s.inLen.toNat → t.phase = s.phase ∧ t.stage = .fetch) ∧
          (s.inLen.toNat ≤ s.work.pos.toNat + 1 → t.phase = .finish ∧ t.stage = .entry)) ∧
        t.tab = s.tab ∧ SameCommand s t)

/-- 44_encoder.md R143: the three cases of the last data byte, then the trailer and `done`. The model's own: a step for
each of the two bytes, where R221 suggests one step (log 3). -/
def Obligations.FinishStep : Prop :=
  ∀ s : State, s.outside.outAccepts = true →
    (s.stage = .entry →
      (s.work.free = 8 → exec .finish s = .next { s with
        outside.out := s.outside.out.write s.outCnt.toNat 0, outCnt := s.outCnt + 1
        done := true, phase := .idle }) ∧
      (s.work.free = 0 → exec .finish s = .next { s with
        outside.out := s.outside.out.write s.outCnt.toNat s.work.acc, outCnt := s.outCnt + 1, stage := .trailer }) ∧
      (1 ≤ s.work.free.toNat → s.work.free.toNat ≤ 7 → ∀ a : Byte,
        a = BitVec.ofNat 8 (s.work.acc.toNat * 2 ^ s.work.free.toNat) → exec .finish s = .next { s with
          outside.out := s.outside.out.write s.outCnt.toNat a, outCnt := s.outCnt + 1
          work.acc := a, stage := .trailer })) ∧
    (s.stage = .trailer → s.work.free.toNat ≤ 7 → exec .finish s = .next { s with
      outside.out := s.outside.out.write s.outCnt.toNat (s.work.free.setWidth 8), outCnt := s.outCnt + 1
      done := true, phase := .idle, stage := .entry })

/-- 44_encoder.md R142, R143, R148: PACK and FINISH append the packed codes of the input to what is out already. An entry
with `LEN = 0`, of which CODEGEN leaves none (R133), pushes nothing, as the empty loop of 00_scope.md R8 has it (log 22). -/
def Obligations.PackAppends : Prop :=
  ∀ s : State, Inv s → Undisturbed s → s.phase = .pack → s.stage = .entry →
    ∃ t, Leads s t ∧ Succeeded t ∧
      t.output = s.output ++ packBits (s.input.flatMap fun v => (s.tab.code.entry v).bits) ∧
      t.tab = s.tab ∧ t.op = s.op ∧ t.inLen = s.inLen ∧ t.errcode = 0

/-- 44_encoder.md R144, R146, R147, R148: the body holds the code bits and zeros, the trailer counts them. -/
def Obligations.PackedStream : Prop :=
  ∀ (b : List Byte) (F : Counts) (c : List Bool), c = b.flatMap (code F) →
    ∃ body, pack b F = body ++ [BitVec.ofNat 8 ((8 - c.length % 8) % 8)] ∧
      bitsOf body = c ++ List.replicate ((8 - c.length % 8) % 8) false ∧
      body.length = (c.length + 7) / 8 ∧ b.length ≤ c.length ∧ c.length ≤ 255 * b.length

/-! ### RDTRAILER, UNPACK, ENDCHECK -/

/-- 45_decoder.md R161. -/
def Obligations.RdtrailerStep : Prop :=
  ∀ (s : State) (p : Byte), s.stage = .entry → 1025 ≤ s.inLen.toNat → s.outside.inAnswers = true →
    p = s.outside.inp.read (s.inLen.toNat - 1) →
    (p.toNat ≤ 7 → s.inLen.toNat ≠ 1025 ∨ p = 0 → exec .rdtrailer s = .next { s with
      work.padreg := p, work.dlen := BitVec.ofNat 32 (s.inLen.toNat - 1025), phase := .unpack }) ∧
    (7 < p.toNat ∨ s.inLen.toNat = 1025 ∧ p ≠ 0 → exec .rdtrailer s = .next { s with
      work.padreg := p, work.dlen := BitVec.ofNat 32 (s.inLen.toNat - 1025)
      err := true, done := false, errcode := 0x12, phase := .idle })

/-- 45_decoder.md R162, R163: the start of UNPACK and the `InByte` of a data byte. The model's own: the start is a step and
sets `POS` to 0, even with `DLEN = 0` (log 3). -/
def Obligations.UnpackStep : Prop :=
  ∀ (s : State) (b : Byte),
    (s.stage = .entry → exec .unpack s = .next { s with
      work.cur := s.work.root, work.pos := 0
      phase := if s.work.dlen = 0 then .endcheck else s.phase
      stage := if s.work.dlen = 0 then .entry else .fetch }) ∧
    (s.stage = .fetch → s.work.pos.toNat < s.work.dlen.toNat → 1024 + s.work.pos.toNat < s.inLen.toNat →
      s.work.padreg.toNat ≤ 7 → s.outside.inAnswers = true → b = s.outside.inp.read (1024 + s.work.pos.toNat) →
      exec .unpack s = .next { s with
        work.byte := b
        work.bcnt := if s.work.pos.toNat + 1 = s.work.dlen.toNat then BitVec.ofNat 4 (8 - s.work.padreg.toNat) else 8
        stage := .walk })

/-- 45_decoder.md R163, R164, R165: WALK of the top bit of `BYTE`, with LEAF. `n` is the child descended to; only a leaf
that is emitted waits for the output port. The model's own: the loop test inside the step (log 3), `POS = DLEN` after the
loop (log 17), and that `BCNT = 0`, which no run reaches here, wraps (log 22). -/
def Obligations.WalkStep : Prop :=
  ∀ (s : State) (l r n : BitVec 9), s.stage = .walk →
    s.tab.node.children? s.work.cur = some (l, r) → n = (if s.work.byte.getLsbD 7 then r else l) →
    (n.toNat < 256 → s.outCnt ≠ s.work.sum → s.outside.outAccepts = true) →
    (n.toNat < 256 → s.outCnt = s.work.sum → exec .unpack s = .next { s with
      work.cur := n, err := true, done := false, errcode := 0x13, phase := .idle, stage := .entry }) ∧
    (256 ≤ n.toNat ∨ s.outCnt ≠ s.work.sum → ∃ t, exec .unpack s = .next t ∧
      t.work = { s.work with
        byte := BitVec.ofNat 8 (2 * s.work.byte.toNat), bcnt := s.work.bcnt - 1
        cur := if n.toNat < 256 then s.work.root else n
        pos := if s.work.bcnt = 1 then s.work.pos + 1 else s.work.pos } ∧
      (256 ≤ n.toNat → t.outside = s.outside ∧ t.outCnt = s.outCnt) ∧
      (n.toNat < 256 → t.outCnt = s.outCnt + 1 ∧
        t.outside = { s.outside with out := s.outside.out.write s.outCnt.toNat (n.setWidth 8) }) ∧
      (s.work.bcnt ≠ 1 → t.phase = s.phase ∧ t.stage = .walk) ∧
      (s.work.bcnt = 1 → s.work.pos.toNat + 1 < s.work.dlen.toNat → t.phase = s.phase ∧ t.stage = .fetch) ∧
      (s.work.bcnt = 1 → s.work.dlen.toNat ≤ s.work.pos.toNat + 1 → t.phase = .endcheck ∧ t.stage = .entry) ∧
      t.tab = s.tab ∧ SameCommand s t)

/-- 45_decoder.md R166. -/
def Obligations.EndcheckStep : Prop :=
  ∀ s : State, s.stage = .entry →
    (s.work.cur ≠ s.work.root → exec .endcheck s = .next { s with
      err := true, done := false, errcode := 0x14, phase := .idle }) ∧
    (s.work.cur = s.work.root → s.outCnt ≠ s.work.sum → exec .endcheck s = .next { s with
      err := true, done := false, errcode := 0x15, phase := .idle }) ∧
    (s.work.cur = s.work.root → s.outCnt = s.work.sum → exec .endcheck s = .next { s with
      done := true, phase := .idle })

/-- 45_decoder.md R171: UNPACK and ENDCHECK compute `unwalk` of the tree in the arena, the header's sum and the data
region's bits without the padding. -/
def Obligations.UnpackUnwalks : Prop :=
  ∀ (s : State) (t0 : Sys2Proof.Machine.Tree), Inv s → Undisturbed s → s.phase = .unpack → s.stage = .entry →
    ReadsAs s.tab.node s.work.root t0 →
    ∃ t, Leads s t ∧ EndsAs t (unwalk t0 s.work.sum.toNat
      ((bitsOf (s.outside.inp.bytes 1024 s.work.dlen.toNat)).take (8 * s.work.dlen.toNat - s.work.padreg.toNat))) ∧
      t.tab = s.tab ∧ t.op = s.op ∧ t.inLen = s.inLen

/-- 45_decoder.md R171, last sentence: the walk cuts a concatenation of codes back into its bytes. -/
def Obligations.UnwalkInvertsCodes : Prop :=
  ∀ (F : Counts) (b : List Byte), unwalk (tree F) b.length (b.flatMap (code F)) = .ok b

/-! ### The two operations -/

/-- 40_commands.md R90: what an accepted COMPRESS writes, whatever polls of the host follow the command (the script is
log 4). `t` is a state in which the host's script is done. -/
def Obligations.CompressCompresses : Prop :=
  ∀ (s : State) (rest : List HostMove), Inv s → s.phase = .idle → s.outside.script = wrCmd 1 :: rest →
    Watched (s.withScript rest) → s.inLen.toNat ≤ 2147483647 →
    ∃ t, Leads s t ∧ t.outside.script = [] ∧ Succeeded t ∧ t.errcode = 0 ∧ t.output = compress s.input ∧ t.op = .comp ∧
      t.inLen = s.inLen ∧ t.outside.inp = s.outside.inp

/-- 40_commands.md R91: what a DECOMPRESS ends with, for every content of `IN` and every length, whatever polls of the
host follow the command (the script is log 4). -/
def Obligations.DecompressDecompresses : Prop :=
  ∀ (s : State) (rest : List HostMove), Inv s → s.phase = .idle → s.outside.script = wrCmd 2 :: rest →
    Watched (s.withScript rest) →
    ∃ t, Leads s t ∧ t.outside.script = [] ∧ EndsAs t (decompress s.input) ∧ t.op = .decomp ∧ t.inLen = s.inLen ∧
      t.outside.inp = s.outside.inp

/-- 40_commands.md R92. -/
def Obligations.RoundTrip : Prop :=
  ∀ b : List Byte, b.length ≤ 2147483647 → (compress b).length ≤ 2147483647 → decompress (compress b) = .ok b

/-! ### The invariant -/

/-- The machine right after reset meets the invariant. -/
def Obligations.ResetMeetsInvariant : Prop := Inv State.reset

/-- 10_state.md R15, R18, R29, 20_memory.md R41 and the ranges of R22: every step keeps the invariant, whatever the host
does. -/
def Obligations.StepKeepsInvariant : Prop := ∀ s t : State, Inv s → step s = .next t → Inv t

/-- 20_memory.md R41, 44_encoder.md R142, 45_decoder.md R170: from the invariant no phase ever stops: the instruction
`PHASE` selects answers a next state, and a step is refused only for a register access R20 excludes. -/
def Obligations.NothingStops : Prop :=
  ∀ s : State, Inv s →
    (∀ i, decode (.phase s.phase.code) = .ok i → ∃ t, exec i s = .next t) ∧
    ((∃ t, step s = .next t) ∨ ∃ off n, step s = .refused (.registerAccess off n) ∧
      (n ≠ 4 ∨ off.toNat % 4 ≠ 0))

/-- Where a meaning stops by name, all outside what the spec lets happen (logs 11 to 13), each fault at each place of
every phase, and that there is no other: an `InByte` at or above `IN_LEN` (20_memory.md R41), a node or a child that does
not exist (10_state.md R24), a `select` without a slot (42_tree_builder.md R112), a code bit that does not exist (R26), a
path over 255 bits (43_code_table.md R133), a position of another phase. -/
def Obligations.StopsOutsideTheSpec : Prop :=
  ∀ s : State,
    ((s.stage = .tally → s.inLen.toNat ≤ s.work.pos.toNat →
        exec .count s = .fault (.inputAddress s.work.pos.toNat)) ∧
      (s.stage = .entry → s.inLen = 0 → exec .loadhdr s = .fault (.inputAddress 0) ∧
        exec .rdtrailer s = .fault (.inputAddress 4294967295)) ∧
      (s.stage = .load [] → s.inLen.toNat ≤ 4 * s.work.vidx.toNat →
        exec .loadhdr s = .fault (.inputAddress (4 * s.work.vidx.toNat))) ∧
      (∀ got, s.stage = .load got → 1 ≤ got.length → got.length ≤ 3 → s.inLen.toNat ≤ s.work.pos.toNat + got.length →
        exec .loadhdr s = .fault (.inputAddress (s.work.pos.toNat + got.length))) ∧
      (s.stage = .fetch → s.inLen.toNat ≤ s.work.pos.toNat → exec .pack s = .fault (.inputAddress s.work.pos.toNat)) ∧
      (s.stage = .fetch → s.inLen.toNat ≤ 1024 + s.work.pos.toNat →
        exec .unpack s = .fault (.inputAddress (1024 + s.work.pos.toNat)))) ∧
    (∀ (ex best : Option Byte) (i : Byte), i = s.work.sidx.setWidth 8 →
      s.stage = .scanA best ∧ ex = none ∨ s.stage = .scanB best ∧ ex = some s.work.sela →
      (∀ b, best = some b → (s.tab.slot.entry i).v = true → ex ≠ some i →
        (s.tab.slot.entry i).n = 511 ∨ (s.tab.slot.entry b).n = 511 → exec .build s = .fault (.arenaIndex 511)) ∧
      (255 ≤ s.work.sidx.toNat → best = none → (s.tab.slot.entry i).v = false ∨ ex = some i →
        exec .build s = .fault .emptySelect)) ∧
    (s.stage = .merge →
      ((s.tab.slot.entry s.work.sela).n = 511 ∨ (s.tab.slot.entry s.work.selb).n = 511 →
        exec .build s = .fault (.arenaIndex 511)) ∧
      ((s.tab.slot.entry s.work.sela).n ≠ 511 → (s.tab.slot.entry s.work.selb).n ≠ 511 → 511 ≤ s.work.next.toNat →
        exec .build s = .fault (.arenaIndex s.work.next.toNat))) ∧
    ((s.stage = .entry → s.work.root = 511 → exec .codegen s = .fault (.arenaIndex 511)) ∧
      (∀ p rest, s.stage = .visit ((511, p) :: rest) → exec .codegen s = .fault (.arenaIndex 511)) ∧
      (∀ n p rest, s.stage = .visit ((n, p) :: rest) → n.toNat < 256 → 255 < p.length →
        exec .codegen s = .fault (.codePath p.length))) ∧
    (s.stage = .push → (s.tab.code.entry s.work.byte).bits.length ≤ s.work.cidx.toNat →
      exec .pack s = .fault (.codeBit s.work.byte s.work.cidx.toNat)) ∧
    (s.stage = .walk → s.work.cur.toNat < 256 ∨ s.work.cur = 511 →
      exec .unpack s = .fault (.arenaIndex s.work.cur.toNat)) ∧
    (∀ (i : Instr) (p : Phase), decode (.phase p.code) = .ok i → p.owns s.stage = false →
      exec i s = .fault .sequencerPosition) ∧
    (∀ (i : Instr) (r : Fault), exec i s = .fault r → match r with
      | .inputAddress a => s.inLen.toNat ≤ a ∧ (i = .count ∨ i = .loadhdr ∨ i = .pack ∨ i = .rdtrailer ∨ i = .unpack)
      | .arenaIndex n => (n < 256 ∧ i = .unpack) ∨ (511 ≤ n ∧ (i = .build ∨ i = .codegen ∨ i = .unpack))
      | .emptySelect => 255 ≤ s.work.sidx.toNat ∧ i = .build
      | .codeBit v k => (s.tab.code.entry v).bits.length ≤ k ∧ i = .pack
      | .codePath n => 255 < n ∧ i = .codegen
      | .sequencerPosition => ∃ p : Phase, decode (.phase p.code) = .ok i ∧ p.owns s.stage = false) ∧
    ∀ (i : Instr) (r : Refusal), exec i s ≠ .refused r

end
end

