-- ==== Sys2Proof/Laws/Memory.lean ====
section
/-!
SUPPORT. The laws of the byte spaces and of the tables: read after write, and that a write keeps the canonical form.
-/
namespace Sys2Proof.Machine

/-! ### Byte spaces -/

@[simp] theorem Memory.read_nil (a : Nat) : Memory.read [] a = Config.unplacedByte := rfl

theorem Memory.wf_nil : Memory.wf [] := ⟨List.Pairwise.nil, by simp⟩

theorem Memory.wf_tail {c : Host.Cell} {m : Memory} (h : Memory.wf (c :: m)) : Memory.wf m :=
  ⟨(List.pairwise_cons.1 h.1).2, fun d hd => h.2 d (List.mem_cons_of_mem _ hd)⟩

theorem Memory.wf_cons {c : Host.Cell} {m : Memory} :
    Memory.wf (c :: m) ↔ (∀ d ∈ m, c.1 < d.1) ∧ c.2 ≠ Config.unplacedByte ∧ Memory.wf m := by
  simp only [Memory.wf, List.pairwise_cons, List.mem_cons, forall_eq_or_imp]
  tauto

/-- An address below every listed one reads the unplaced byte. -/
theorem Memory.read_below {m : Memory} {a : Nat} (h : ∀ d ∈ m, a < d.1) : m.read a = Config.unplacedByte := by
  induction m with
  | nil => rfl
  | cons c m ih =>
    obtain ⟨k, c⟩ := c
    have hk : k ≠ a := Nat.ne_of_gt (h (k, c) List.mem_cons_self)
    simp only [Memory.read, hk, if_false]
    exact ih fun d hd => h d (List.mem_cons_of_mem _ hd)

/-- A read of the address just written gives the byte written. -/
theorem Memory.read_write_same {m : Memory} (h : m.wf) (a : Nat) (b : Byte) : (m.write a b).read a = b := by
  induction m with
  | nil => by_cases hb : b = Config.unplacedByte <;> simp [Memory.write, Memory.read, hb]
  | cons c m ih =>
    obtain ⟨k, c⟩ := c
    obtain ⟨hlt, hc, hm⟩ := Memory.wf_cons.1 h
    simp only [Memory.write]
    split
    · next hak =>
      split
      · next hb =>
        rw [hb]
        exact Memory.read_below fun d hd => by
          rcases List.mem_cons.1 hd with rfl | hd
          · exact hak
          · exact Nat.lt_trans hak (hlt d hd)
      · simp [Memory.read]
    · split
      · next hak =>
        subst hak
        split
        · next hb => rw [hb]; exact Memory.read_below fun d hd => hlt d hd
        · simp [Memory.read]
      · next hak =>
        simp only [Memory.read, Ne.symm hak, if_false]
        exact ih hm

/-- A write leaves every other address alone. -/
theorem Memory.read_write_other (m : Memory) {a x : Nat} (b : Byte) (hx : x ≠ a) :
    (m.write a b).read x = m.read x := by
  induction m with
  | nil => by_cases hb : b = Config.unplacedByte <;> simp [Memory.write, Memory.read, hb, Ne.symm hx]
  | cons c m ih =>
    obtain ⟨k, c⟩ := c
    simp only [Memory.write]
    split
    · split
      · rfl
      · simp [Memory.read, Ne.symm hx]
    · split
      · next hak =>
        subst hak
        split <;> simp [Memory.read, Ne.symm hx]
      · simp only [Memory.read, ih]

theorem Memory.read_write {m : Memory} (h : m.wf) (a x : Nat) (b : Byte) :
    (m.write a b).read x = if x = a then b else m.read x := by
  split
  · next hx => rw [hx, Memory.read_write_same h]
  · next hx => exact Memory.read_write_other m b hx

/-- Every address listed after a write was listed before, or is the one written. -/
theorem Memory.mem_write {m : Memory} {a : Nat} {b : Byte} {d : Host.Cell} (hd : d ∈ m.write a b) :
    d ∈ m ∨ d = (a, b) := by
  induction m with
  | nil =>
    simp only [Memory.write] at hd
    split at hd <;> simp_all
  | cons c m ih =>
    obtain ⟨k, c⟩ := c
    simp only [Memory.write] at hd
    split at hd
    · split at hd
      · exact .inl hd
      · rcases List.mem_cons.1 hd with h | h
        · exact .inr h
        · exact .inl h
    · split at hd
      · split at hd
        · exact .inl (List.mem_cons_of_mem _ hd)
        · rcases List.mem_cons.1 hd with h | h
          · exact .inr h
          · exact .inl (List.mem_cons_of_mem _ h)
      · rcases List.mem_cons.1 hd with h | h
        · exact .inl (h ▸ List.mem_cons_self)
        · rcases ih h with h | h
          · exact .inl (List.mem_cons_of_mem _ h)
          · exact .inr h

/-- A write keeps the canonical form. -/
theorem Memory.write_wf {m : Memory} (h : m.wf) (a : Nat) (b : Byte) : (m.write a b).wf := by
  induction m with
  | nil =>
    simp only [Memory.write]
    split
    · exact Memory.wf_nil
    · next hb => exact Memory.wf_cons.2 ⟨by simp, hb, Memory.wf_nil⟩
  | cons c m ih =>
    obtain ⟨k, c⟩ := c
    obtain ⟨hlt, hc, hm⟩ := Memory.wf_cons.1 h
    simp only [Memory.write]
    split
    · next hak =>
      split
      · exact h
      · next hb =>
        refine Memory.wf_cons.2 ⟨fun d hd => ?_, hb, h⟩
        rcases List.mem_cons.1 hd with rfl | hd
        · exact hak
        · exact Nat.lt_trans hak (hlt d hd)
    · split
      · next hak =>
        subst hak
        split
        · exact hm
        · next hb => exact Memory.wf_cons.2 ⟨hlt, hb, hm⟩
      · next hak hne =>
        refine Memory.wf_cons.2 ⟨fun d hd => ?_, hc, ih hm⟩
        rcases Memory.mem_write hd with hd | rfl
        · exact hlt d hd
        · exact Nat.lt_of_le_of_ne (Nat.le_of_not_lt hak) (Ne.symm hne)

theorem Memory.place_wf {m : Memory} (h : m.wf) (a : Nat) (bs : List Byte) : (m.place a bs).wf := by
  induction bs generalizing m a with
  | nil => exact h
  | cons b bs ih => exact ih (Memory.write_wf h a b) (a + 1)

/-- A byte placed is read back; every other address is left alone. -/
theorem Memory.read_place {m : Memory} (h : m.wf) (a : Nat) (bs : List Byte) (x : Nat) :
    (m.place a bs).read x = if a ≤ x ∧ x < a + bs.length then bs.getD (x - a) 0 else m.read x := by
  induction bs generalizing m a with
  | nil => simp [Memory.place]
  | cons b bs ih =>
    rw [Memory.place, ih (Memory.write_wf h a b), Memory.read_write h]
    by_cases hx : x = a
    · subst hx; simp
    · by_cases hr : a + 1 ≤ x ∧ x < a + 1 + bs.length
      · obtain ⟨n, rfl⟩ : ∃ n, x = a + 1 + n := ⟨x - (a + 1), by omega⟩
        have h1 : a + 1 + n - a = n + 1 := by omega
        have h2 : a ≤ a + 1 + n ∧ a + 1 + n < a + (b :: bs).length := by
          simp only [List.length_cons]; omega
        rw [if_pos hr, if_pos h2, h1]
        simp
      · have h2 : ¬ (a ≤ x ∧ x < a + (b :: bs).length) := by simp only [List.length_cons]; omega
        rw [if_neg hr, if_neg hx, if_neg h2]

@[simp] theorem Memory.bytes_length (m : Memory) (a n : Nat) : (m.bytes a n).length = n := by
  simp [Memory.bytes]

theorem Memory.bytes_zero (m : Memory) (a : Nat) : m.bytes a 0 = [] := rfl

theorem Memory.bytes_succ (m : Memory) (a n : Nat) : m.bytes a (n + 1) = m.bytes a n ++ [m.read (a + n)] := by
  simp [Memory.bytes, List.range_succ]

/-! ### Tables -/

variable {α : Type}

@[simp] theorem Table.entry_withEntry_same (t : Table α) (i : Byte) (x : α) : (Table.withEntry t i x).entry i = x := by
  simp [Table.entry, Table.withEntry]

theorem Table.entry_withEntry_other (t : Table α) {i j : Byte} (x : α) (h : j ≠ i) :
    (Table.withEntry t i x).entry j = Table.entry t j := by
  have h' : i.toNat ≠ j.toNat := fun e => h (BitVec.eq_of_toNat_eq e).symm
  simp [Table.entry, Table.withEntry, h']

theorem Table.entry_withEntry (t : Table α) (i j : Byte) (x : α) :
    (Table.withEntry t i x).entry j = if j = i then x else Table.entry t j := by
  split
  · next h => subst h; exact Table.entry_withEntry_same t j x
  · next h => exact Table.entry_withEntry_other t x h

/-- A table is its entries. -/
theorem Table.ext {t u : Table α} (h : ∀ i, Table.entry t i = Table.entry u i) : t = u := by
  refine Vector.ext fun n hn => ?_
  have := h (BitVec.ofNat 8 n)
  simpa [Table.entry, Nat.mod_eq_of_lt hn] using this

theorem Arena.node?_withLeafWeight (a : Arena) (v : Byte) (w : Word) (n : BitVec 9) :
    (Arena.withLeafWeight a v w).node? n =
      if n.toNat = v.toNat then (Arena.node? a n).map fun nd => { nd with w := w } else Arena.node? a n := by
  have hv : v.toNat < 511 := Nat.lt_trans v.isLt (by decide)
  unfold Arena.node? Arena.withLeafWeight
  split
  · next h => rw [h]; simp [hv]
  · next h => simp [Ne.symm h]

theorem Arena.node?_withNode (a : Arena) (k : Nat) (nd : Node) (n : BitVec 9) :
    (Arena.withNode a k nd).node? n = if n.toNat = k ∧ k < 511 then some nd else Arena.node? a n := by
  unfold Arena.node? Arena.withNode
  by_cases h : n.toNat = k
  · subst h
    by_cases hk : n.toNat < 511 <;> simp [hk]
  · simp [h, Ne.symm h]

theorem Arena.node?_eq_some {a : Arena} {n : BitVec 9} (h : n.toNat < 511) : ∃ nd, Arena.node? a n = some nd :=
  ⟨a[n.toNat], by simp [Arena.node?, h]⟩

theorem Arena.node?_eq_none {a : Arena} {n : BitVec 9} : Arena.node? a n = none ↔ 511 ≤ n.toNat := by
  simp [Arena.node?]

theorem Arena.children?_eq_some {a : Arena} {n : BitVec 9} {c : BitVec 9 × BitVec 9} :
    Arena.children? a n = some c ↔ 256 ≤ n.toNat ∧ ∃ nd, Arena.node? a n = some nd ∧ c = (nd.l, nd.r) := by
  unfold Arena.children?
  split
  · next h => simp; omega
  · next h =>
    split <;> simp_all
    exact eq_comm

end Sys2Proof.Machine
end

