-- ==== Sys2Proof/Laws/State.lean ====
section
/-!
SUPPORT. One lemma per field per named update of the state, true by `rfl`, so that no proof unfolds a record update.
-/
namespace Sys2Proof.Machine

variable (s : State) (p : Phase) (e : ErrCode) (k : OpKind) (v : Byte) (sc : List HostMove) (off w : Word)

/-! ### `goto` -/
@[simp] theorem State.goto_phase : (s.goto p).phase = p := rfl
@[simp] theorem State.goto_stage : (s.goto p).stage = .entry := rfl
@[simp] theorem State.goto_op : (s.goto p).op = s.op := rfl
@[simp] theorem State.goto_done : (s.goto p).done = s.done := rfl
@[simp] theorem State.goto_err : (s.goto p).err = s.err := rfl
@[simp] theorem State.goto_errcode : (s.goto p).errcode = s.errcode := rfl
@[simp] theorem State.goto_inLen : (s.goto p).inLen = s.inLen := rfl
@[simp] theorem State.goto_outCnt : (s.goto p).outCnt = s.outCnt := rfl
@[simp] theorem State.goto_work : (s.goto p).work = s.work := rfl
@[simp] theorem State.goto_tab : (s.goto p).tab = s.tab := rfl
@[simp] theorem State.goto_outside : (s.goto p).outside = s.outside := rfl

/-! ### `complete` -/
@[simp] theorem State.complete_phase : s.complete.phase = .idle := rfl
@[simp] theorem State.complete_stage : s.complete.stage = .entry := rfl
@[simp] theorem State.complete_op : s.complete.op = s.op := rfl
@[simp] theorem State.complete_done : s.complete.done = true := rfl
@[simp] theorem State.complete_err : s.complete.err = s.err := rfl
@[simp] theorem State.complete_errcode : s.complete.errcode = s.errcode := rfl
@[simp] theorem State.complete_inLen : s.complete.inLen = s.inLen := rfl
@[simp] theorem State.complete_outCnt : s.complete.outCnt = s.outCnt := rfl
@[simp] theorem State.complete_work : s.complete.work = s.work := rfl
@[simp] theorem State.complete_tab : s.complete.tab = s.tab := rfl
@[simp] theorem State.complete_outside : s.complete.outside = s.outside := rfl

/-! ### `raise` -/
@[simp] theorem State.raise_phase : (s.raise e).phase = .idle := rfl
@[simp] theorem State.raise_stage : (s.raise e).stage = .entry := rfl
@[simp] theorem State.raise_op : (s.raise e).op = s.op := rfl
@[simp] theorem State.raise_done : (s.raise e).done = false := rfl
@[simp] theorem State.raise_err : (s.raise e).err = true := rfl
@[simp] theorem State.raise_errcode : (s.raise e).errcode = e.code.setWidth 32 := rfl
@[simp] theorem State.raise_inLen : (s.raise e).inLen = s.inLen := rfl
@[simp] theorem State.raise_outCnt : (s.raise e).outCnt = s.outCnt := rfl
@[simp] theorem State.raise_work : (s.raise e).work = s.work := rfl
@[simp] theorem State.raise_tab : (s.raise e).tab = s.tab := rfl
@[simp] theorem State.raise_outside : (s.raise e).outside = s.outside := rfl

/-! ### `clearFor` -/
@[simp] theorem State.clearFor_phase : (s.clearFor k).phase = s.phase := rfl
@[simp] theorem State.clearFor_stage : (s.clearFor k).stage = s.stage := rfl
@[simp] theorem State.clearFor_op : (s.clearFor k).op = k := rfl
@[simp] theorem State.clearFor_done : (s.clearFor k).done = false := rfl
@[simp] theorem State.clearFor_err : (s.clearFor k).err = false := rfl
@[simp] theorem State.clearFor_errcode : (s.clearFor k).errcode = 0 := rfl
@[simp] theorem State.clearFor_inLen : (s.clearFor k).inLen = s.inLen := rfl
@[simp] theorem State.clearFor_outCnt : (s.clearFor k).outCnt = 0 := rfl
@[simp] theorem State.clearFor_work : (s.clearFor k).work = s.work := rfl
@[simp] theorem State.clearFor_tab : (s.clearFor k).tab = s.tab := rfl
@[simp] theorem State.clearFor_outside : (s.clearFor k).outside = s.outside := rfl

/-! ### `outByte` -/
@[simp] theorem State.outByte_phase : (s.outByte v).phase = s.phase := rfl
@[simp] theorem State.outByte_stage : (s.outByte v).stage = s.stage := rfl
@[simp] theorem State.outByte_op : (s.outByte v).op = s.op := rfl
@[simp] theorem State.outByte_done : (s.outByte v).done = s.done := rfl
@[simp] theorem State.outByte_err : (s.outByte v).err = s.err := rfl
@[simp] theorem State.outByte_errcode : (s.outByte v).errcode = s.errcode := rfl
@[simp] theorem State.outByte_inLen : (s.outByte v).inLen = s.inLen := rfl
@[simp] theorem State.outByte_outCnt : (s.outByte v).outCnt = s.outCnt + 1 := rfl
@[simp] theorem State.outByte_work : (s.outByte v).work = s.work := rfl
@[simp] theorem State.outByte_tab : (s.outByte v).tab = s.tab := rfl
@[simp] theorem State.outByte_outside :
    (s.outByte v).outside = { s.outside with out := s.outside.out.write s.outCnt.toNat v } := rfl

/-! ### `withScript` -/
@[simp] theorem State.withScript_phase : (s.withScript sc).phase = s.phase := rfl
@[simp] theorem State.withScript_stage : (s.withScript sc).stage = s.stage := rfl
@[simp] theorem State.withScript_op : (s.withScript sc).op = s.op := rfl
@[simp] theorem State.withScript_done : (s.withScript sc).done = s.done := rfl
@[simp] theorem State.withScript_err : (s.withScript sc).err = s.err := rfl
@[simp] theorem State.withScript_errcode : (s.withScript sc).errcode = s.errcode := rfl
@[simp] theorem State.withScript_inLen : (s.withScript sc).inLen = s.inLen := rfl
@[simp] theorem State.withScript_outCnt : (s.withScript sc).outCnt = s.outCnt := rfl
@[simp] theorem State.withScript_work : (s.withScript sc).work = s.work := rfl
@[simp] theorem State.withScript_tab : (s.withScript sc).tab = s.tab := rfl
@[simp] theorem State.withScript_outside :
    (s.withScript sc).outside = { s.outside with script := sc } := rfl
@[simp] theorem State.withScript_self : s.withScript s.outside.script = s := rfl
@[simp] theorem State.withScript_withScript (sc' : List HostMove) :
    (s.withScript sc).withScript sc' = s.withScript sc' := rfl
@[simp] theorem State.withScript_busy : (s.withScript sc).busy = s.busy := rfl

/-! ### `regRead`, `assertReset`, `releaseReset` -/
@[simp] theorem State.regRead_outside :
    (s.regRead off).outside = { s.outside with reads := s.regValue off :: s.outside.reads } := rfl
@[simp] theorem State.assertReset_phase : s.assertReset.phase = .idle := rfl
@[simp] theorem State.assertReset_outside : s.assertReset.outside = { s.outside with rst := true } := rfl
@[simp] theorem State.releaseReset_phase : s.releaseReset.phase = s.phase := rfl
@[simp] theorem State.releaseReset_outside : s.releaseReset.outside = { s.outside with rst := false } := rfl

/-! ### `BUSY` and the drop of writes -/
theorem State.busy_iff : s.busy = true ↔ s.phase ≠ .idle := by simp [State.busy]
theorem State.busy_eq_false_iff : s.busy = false ↔ s.phase = .idle := by simp [State.busy]

end Sys2Proof.Machine
end

