-- ==== Sys2Proof/Laws/Ports.lean ====
section
/-!
SUPPORT. What the port transactions can do, and what every step of a running phase carries over.
-/
namespace Sys2Proof.Machine

variable {s t : State}

/-- The block's registers and flags that no running phase writes, the input and `rst` are the same in `t`, and its
output is in canonical form if that of `s` is. -/
structure Carries (s t : State) : Prop where
  done : t.done = s.done
  err : t.err = s.err
  errcode : t.errcode = s.errcode
  op : t.op = s.op
  inLen : t.inLen = s.inLen
  inp : t.outside.inp = s.outside.inp
  out : s.outside.out.wf → t.outside.out.wf
  rst : t.outside.rst = s.outside.rst

theorem Carries.refl (s : State) : Carries s s := ⟨rfl, rfl, rfl, rfl, rfl, rfl, id, rfl⟩

theorem outByte_carries (s : State) (v : Byte) : Carries s (s.outByte v) :=
  ⟨rfl, rfl, rfl, rfl, rfl, rfl, fun h => Memory.write_wf h _ _, rfl⟩

theorem Carries.trans {u : State} (a : Carries s t) (b : Carries t u) : Carries s u :=
  ⟨b.done.trans a.done, b.err.trans a.err, b.errcode.trans a.errcode, b.op.trans a.op, b.inLen.trans a.inLen,
   b.inp.trans a.inp, fun h => b.out (a.out h), b.rst.trans a.rst⟩

/-- `InByte` of an existing address waits or goes on with the byte. -/
theorem inByte_cases (s : State) (a : Nat) (k : Byte → Res) (h : a < s.inLen.toNat) :
    inByte s a k = .next s ∨ inByte s a k = k (s.outside.inp.read a) := by
  unfold inByte
  rw [if_neg (Nat.not_le.2 h)]
  split
  · exact .inr rfl
  · exact .inl rfl

/-- A step holding an `OutByte` waits or goes on. -/
theorem whenAccepted_cases (s : State) (k : Res) : whenAccepted s k = .next s ∨ whenAccepted s k = k := by
  unfold whenAccepted
  split
  · exact .inr rfl
  · exact .inl rfl

/-- A counter below its bound does not wrap. -/
theorem toNat_succ {n : Nat} {x : BitVec n} {b : Nat} (h : x.toNat < b) (hb : b < 2 ^ n) :
    (x + 1).toNat = x.toNat + 1 := by
  have h1 : (1 : BitVec n).toNat = 1 % 2 ^ n := BitVec.toNat_ofNat 1 n
  rw [BitVec.toNat_add, h1, Nat.mod_eq_of_lt (show 1 < 2 ^ n by omega), Nat.mod_eq_of_lt (by omega)]

theorem vidx_succ {v : BitVec 9} (h : v.toNat < 255) : (v + 1).toNat = v.toNat + 1 :=
  toNat_succ h (by decide)

end Sys2Proof.Machine
end

