-- ==== Sys2Proof/Laws/Invariant.lean ====
section
/-!
SUPPORT. The invariant through the phases COUNT, LOADHDR and EMITHDR: from a state with `Inv`, the phase's step answers a
next state with `Inv`.
-/
namespace Sys2Proof.Machine

variable {s t : State}

/-- `BITS` has `LEN` bits, in every entry of `CODE`. -/
def CodeLen (t : State) : Prop :=
  ∀ v, (Table.entry t.tab.code v).len.toNat = (Table.entry t.tab.code v).bits.length

/-- The invariant's positions are the running phase's own. -/
theorem PositionOk.owned (h : PositionOk s) : s.phase.owns s.stage = true := by
  unfold PositionOk at h
  generalize s.phase = p at h ⊢
  generalize s.stage = st at h ⊢
  cases p <;> cases st <;> first | rfl | exact h.elim | skip
  · exact decide_eq_true h.2.2.1
  · next todo => cases todo with
    | nil => exact absurd rfl h.2.2.1
    | cons x l => rfl

/-- A step of a running phase that stays in a running phase. -/
theorem Inv.run (h : Inv s) (hb : s.phase ≠ .idle) (c : Carries s t) (hop : t.phase.allows s.op)
    (hcode : CodeLen t) (hpos : PositionOk t) : Inv t := by
  obtain ⟨hd, he⟩ := h.busy_clear hb
  refine ⟨c.inp ▸ h.inp_wf, c.out h.out_wf, ?_, ?_, ?_, ?_, ?_, ?_, ?_, ?_, hcode, hpos⟩
  · rw [c.done, c.err]; exact h.done_err
  · rw [c.err, c.errcode]; exact h.no_err
  · rw [c.err, c.errcode]; exact h.err_code
  · rw [c.rst]; intro hr; exact absurd (h.rst_idle hr) hb
  · intro _; rw [c.done, c.err]; exact ⟨hd, he⟩
  · rw [c.op]; exact hop
  · intro _; rw [c.inLen]; exact h.len_high hb
  · intro _; rw [c.op, c.inLen]; exact h.len_low hb

/-- A step of a running phase that raises. -/
theorem Inv.raised (h : Inv s) (c : Carries s t) (hcode : CodeLen t) (e : ErrCode) :
    Inv (t.raise e) := by
  refine ⟨c.inp ▸ h.inp_wf, c.out h.out_wf, by simp, by simp, fun _ => ⟨e, rfl⟩, fun _ => rfl, by simp, ?_, by simp,
    by simp, hcode, ?_⟩
  · simp [Phase.allows]
  · simp [PositionOk]

/-- A step of a running phase that ends by `done`. -/
theorem Inv.completed (h : Inv s) (hb : s.phase ≠ .idle) (c : Carries s t) (hcode : CodeLen t) :
    Inv t.complete := by
  obtain ⟨hd, he⟩ := h.busy_clear hb
  refine ⟨c.inp ▸ h.inp_wf, c.out h.out_wf, ?_, ?_, ?_, fun _ => rfl, by simp, ?_, by simp,
    by simp, hcode, ?_⟩
  · simp [c.err, he]
  · intro h'; simp only [State.complete_err, c.err] at h'; simpa [c.errcode] using h.no_err h'
  · simp [c.err, he]
  · simp [Phase.allows]
  · simp [PositionOk]

/-- A step that keeps the invariant. -/
def Fine (r : Res) : Prop := ∃ t, r = .next t ∧ Inv t

theorem Fine.of {t : State} (h : Inv t) : Fine (.next t) := ⟨t, rfl, h⟩

theorem fine_inByte (h : Inv s) {a : Nat} (ha : a < s.inLen.toNat) {k : Byte → Res}
    (hk : Fine (k (s.outside.inp.read a))) : Fine (inByte s a k) := by
  rcases inByte_cases s a k ha with e | e
  · rw [e]; exact .of h
  · rw [e]; exact hk

theorem fine_whenAccepted (h : Inv s) {k : Res} (hk : Fine k) : Fine (whenAccepted s k) := by
  rcases whenAccepted_cases s k with e | e
  · rw [e]; exact .of h
  · rw [e]; exact hk

/-! ### COUNT -/

theorem clearEntry_inv (h : Inv s) (hp : s.phase = .count) (h0 : s.outCnt = 0) {v : BitVec 9} (hv : v.toNat < 256) :
    Inv (clearEntry v s) := by
  have hb : s.phase ≠ .idle := by simp [hp]
  have hop : s.op = .comp := by have := h.op; rw [hp] at this; exact this
  unfold clearEntry
  simp only
  split
  · next hlt =>
    refine h.run hb ⟨rfl, rfl, rfl, rfl, rfl, rfl, id, rfl⟩ (by rw [hp]; exact hop) h.code_len ?_
    simp only [PositionOk, hp]
    exact ⟨h0, by rw [vidx_succ hlt]; omega⟩
  · split
    · next hz =>
      refine h.run hb ⟨rfl, rfl, rfl, rfl, rfl, rfl, id, rfl⟩ (by simp [Phase.allows, hop]) h.code_len ?_
      exact h0
    · next hz =>
      refine h.run hb ⟨rfl, rfl, rfl, rfl, rfl, rfl, id, rfl⟩ (by rw [hp]; exact hop) h.code_len ?_
      simp only [PositionOk, hp]
      refine ⟨h0, ?_⟩
      have : s.inLen.toNat ≠ 0 := fun e => hz (BitVec.eq_of_toNat_eq (by simpa using e))
      simp; omega

theorem execCount_fine (h : Inv s) (hp : s.phase = .count) : Fine (execCount s) := by
  have hb : s.phase ≠ .idle := by simp [hp]
  have hop : s.op = .comp := by have := h.op; rw [hp] at this; exact this
  have hpos := h.position
  unfold execCount
  cases hs : s.stage with
  | entry =>
    simp only [PositionOk, hp, hs] at hpos
    exact .of (clearEntry_inv h hp hpos (by simp))
  | clear =>
    simp only [PositionOk, hp, hs] at hpos
    exact .of (clearEntry_inv h hp hpos.1 hpos.2)
  | tally =>
    simp only [PositionOk, hp, hs] at hpos
    obtain ⟨h0, hlt⟩ := hpos
    refine fine_inByte h hlt ?_
    simp only
    have hle := h.len_high hb
    split
    · next hl =>
      refine .of (h.run hb ⟨rfl, rfl, rfl, rfl, rfl, rfl, id, rfl⟩ (by rw [hp]; exact hop) h.code_len ?_)
      simp only [PositionOk, hp]
      refine ⟨h0, ?_⟩
      show (s.work.pos + 1).toNat < s.inLen.toNat
      rwa [toNat_succ (Nat.lt_of_lt_of_le hlt hle) (by decide)]
    · refine .of (h.run hb ⟨rfl, rfl, rfl, rfl, rfl, rfl, id, rfl⟩ (by simp [Phase.allows, hop]) h.code_len h0)
  | _ => simp only [PositionOk, hp, hs] at hpos

/-! ### LOADHDR -/

theorem headerAddress_toNat {v : BitVec 9} (h : v.toNat < 256) : (headerAddress v).toNat = 4 * v.toNat := by
  unfold headerAddress
  rw [BitVec.toNat_shiftLeft, BitVec.toNat_setWidth, Nat.mod_eq_of_lt (by omega), Nat.shiftLeft_eq, Nat.mod_eq_of_lt (by omega)]
  omega

theorem loadEntry_inv (h : Inv s) (hp : s.phase = .loadhdr) (h0 : s.outCnt = 0) (hv : s.work.vidx.toNat < 256)
    (b0 b1 b2 b3 : Byte) : Inv (loadEntry b0 b1 b2 b3 s) := by
  have hb : s.phase ≠ .idle := by simp [hp]
  have hop : s.op = .decomp := by have := h.op; rw [hp] at this; exact this
  unfold loadEntry
  simp only
  split
  · next hlt =>
    refine h.run hb ⟨rfl, rfl, rfl, rfl, rfl, rfl, id, rfl⟩ (by rw [hp]; exact hop) h.code_len ?_
    simp only [PositionOk, hp]
    exact ⟨h0, by rw [vidx_succ hlt]; omega, by simp, by simp⟩
  · unfold checkSum
    split
    · exact h.raised (t := { s with
        tab.freq := s.tab.freq.withEntry (s.work.vidx.setWidth 8) (assembleCount b0 b1 b2 b3)
        work.sum := s.work.sum + (assembleCount b0 b1 b2 b3).setWidth 40, work.vidx := s.work.vidx + 1 })
        ⟨rfl, rfl, rfl, rfl, rfl, rfl, id, rfl⟩ h.code_len .sum
    · exact h.run hb ⟨rfl, rfl, rfl, rfl, rfl, rfl, id, rfl⟩ (by simp [Phase.allows, hop]) h.code_len h0

theorem execLoadhdr_fine (h : Inv s) (hp : s.phase = .loadhdr) : Fine (execLoadhdr s) := by
  have hb : s.phase ≠ .idle := by simp [hp]
  have hop : s.op = .decomp := by have := h.op; rw [hp] at this; exact this
  have hlen := h.len_low hb hop
  have hpos := h.position
  simp only [Config.minStream] at hlen
  unfold execLoadhdr
  cases hs : s.stage with
  | entry =>
    simp only [PositionOk, hp, hs] at hpos
    refine fine_inByte h (by omega) (.of (h.run hb ⟨rfl, rfl, rfl, rfl, rfl, rfl, id, rfl⟩ (by rw [hp]; exact hop) h.code_len ?_))
    simp only [PositionOk, hp]
    exact ⟨hpos, by simp, by simp, fun _ => rfl⟩
  | load got =>
    simp only [PositionOk, hp, hs] at hpos
    obtain ⟨h0, hv, hl, ha⟩ := hpos
    have had := headerAddress_toNat hv
    match got, hl with
    | [], _ =>
      show Fine (loadByte _ s)
      simp only [loadByte]
      refine fine_inByte (a := (headerAddress s.work.vidx).toNat) h (by omega) ?_
      refine .of (h.run hb ⟨rfl, rfl, rfl, rfl, rfl, rfl, id, rfl⟩ (by rw [hp]; exact hop) h.code_len ?_)
      simp only [PositionOk, hp]
      exact ⟨h0, hv, by simp, fun _ => trivial⟩
    | [b0], _ =>
      rw [← ha (by simp)] at had
      show Fine (loadByte _ s)
      simp only [loadByte]
      refine fine_inByte (a := s.work.pos.toNat + 1) h (by omega) ?_
      refine .of (h.run hb ⟨rfl, rfl, rfl, rfl, rfl, rfl, id, rfl⟩ (by rw [hp]; exact hop) h.code_len ?_)
      simp only [PositionOk, hp]
      exact ⟨h0, hv, by simp, fun _ => ha (by simp)⟩
    | [b0, b1], _ =>
      rw [← ha (by simp)] at had
      show Fine (loadByte _ s)
      simp only [loadByte]
      refine fine_inByte (a := s.work.pos.toNat + 2) h (by omega) ?_
      refine .of (h.run hb ⟨rfl, rfl, rfl, rfl, rfl, rfl, id, rfl⟩ (by rw [hp]; exact hop) h.code_len ?_)
      simp only [PositionOk, hp]
      exact ⟨h0, hv, by simp, fun _ => ha (by simp)⟩
    | [b0, b1, b2], _ =>
      rw [← ha (by simp)] at had
      show Fine (loadByte _ s)
      simp only [loadByte]
      refine fine_inByte (a := s.work.pos.toNat + 3) h (by omega) ?_
      exact .of (loadEntry_inv h hp h0 hv b0 b1 b2 _)
    | _ :: _ :: _ :: _ :: _, hl => simp only [List.length_cons] at hl; omega
  | _ => simp only [PositionOk, hp, hs] at hpos

/-! ### EMITHDR -/


theorem emitCountByte_fine (h : Inv s) (hp : s.phase = .emithdr) (ht : TreeOk s.work s.tab) {v : BitVec 9} {k : Fin 4} (hv : v.toNat < 256)
    (hc : s.outCnt.toNat = 4 * v.toNat + k.val) : Fine (emitCountByte v k s) := by
  have hb : s.phase ≠ .idle := by simp [hp]
  have hop : s.op = .comp := by have := h.op; rw [hp] at this; exact this
  have hk := k.isLt
  have hoc : (s.outCnt + 1).toNat = 4 * v.toNat + k.val + 1 := by
    rw [toNat_succ (b := 2000) (by omega) (by decide), hc]
  refine fine_whenAccepted h ?_
  simp only
  split
  · next hk3 =>
    refine .of (h.run hb (t := { s.outByte (countByte (s.tab.freq.entry (v.setWidth 8)) k) with work.vidx := v, stage := .emit (k + 1) }) ?_ ?_ h.code_len ?_)
    · exact (outByte_carries s _).trans ⟨rfl, rfl, rfl, rfl, rfl, rfl, id, rfl⟩
    · show s.phase.allows s.op
      rw [hp]; exact hop
    · simp only [PositionOk, State.outByte_phase, hp]
      refine ⟨⟨ht.root, ht.children⟩, hv, ?_⟩
      rw [State.outByte_outCnt, hoc, Fin.val_add_one_of_lt' (by omega)]; omega
  · next hk3 =>
    split
    · next hlt =>
      refine .of (h.run hb (t := { s.outByte (countByte (s.tab.freq.entry (v.setWidth 8)) k) with work.vidx := v + 1, stage := .emit 0 }) ?_ ?_ h.code_len ?_)
      · exact (outByte_carries s _).trans ⟨rfl, rfl, rfl, rfl, rfl, rfl, id, rfl⟩
      · show s.phase.allows s.op
        rw [hp]; exact hop
      · simp only [PositionOk, State.outByte_phase, hp]
        refine ⟨⟨ht.root, ht.children⟩, by rw [vidx_succ hlt]; omega, ?_⟩
        rw [State.outByte_outCnt, hoc, vidx_succ hlt]; simp; omega
    · next hlt =>
      refine .of (h.run hb (t := State.goto { s.outByte (countByte (s.tab.freq.entry (v.setWidth 8)) k) with work.vidx := v + 1 } .codegen) ?_ ?_ h.code_len ?_)
      · exact (outByte_carries s _).trans ⟨rfl, rfl, rfl, rfl, rfl, rfl, id, rfl⟩
      · exact hop
      · refine ⟨?_, ⟨ht.root, ht.children⟩⟩
        apply BitVec.eq_of_toNat_eq
        show (s.outCnt + 1).toNat = 1024
        rw [hoc]; omega

theorem execEmithdr_fine (h : Inv s) (hp : s.phase = .emithdr) : Fine (execEmithdr s) := by
  have hpos := h.position
  unfold execEmithdr
  cases hs : s.stage with
  | entry =>
    simp only [PositionOk, hp, hs] at hpos
    exact emitCountByte_fine h hp hpos.2 (by simp) (by rw [hpos.1]; rfl)
  | emit k =>
    simp only [PositionOk, hp, hs] at hpos
    exact emitCountByte_fine h hp hpos.1 hpos.2.1 hpos.2.2
  | _ => simp only [PositionOk, hp, hs] at hpos

end Sys2Proof.Machine
end

