-- ==== Sys2Proof/Laws/InvariantBuild.lean ====
section
/-!
SUPPORT. The invariant through BUILD: counting live slots, a select finds a slot, a merge keeps the arena's order.
-/
namespace Sys2Proof.Machine

variable {s t : State}

theorem mem_allBytes (v : Byte) : v ∈ allBytes :=
  List.mem_map.2 ⟨v.toNat, List.mem_range.2 v.isLt, by simp⟩

theorem nodup_allBytes : allBytes.Nodup := by
  refine List.Nodup.map_on (fun a ha b hb h => ?_) List.nodup_range
  have := congrArg BitVec.toNat h
  simpa [Nat.mod_eq_of_lt (List.mem_range.1 ha), Nat.mod_eq_of_lt (List.mem_range.1 hb)] using this

theorem countP_congr_off {α : Type} {p q : α → Bool} {i : α} :
    ∀ {l : List α}, i ∉ l → (∀ j, j ≠ i → p j = q j) → l.countP p = l.countP q
  | l, hi, h => List.countP_congr fun j hj => by rw [h j (fun e => hi (e ▸ hj))]

theorem countP_drop_one {α : Type} [DecidableEq α] {p q : α → Bool} {i : α} {l : List α} (hn : l.Nodup) (hi : i ∈ l)
    (hp : p i = true) (hq : q i = false) (h : ∀ j, j ≠ i → p j = q j) : l.countP q + 1 = l.countP p := by
  induction l with
  | nil => simp at hi
  | cons x l ih =>
    obtain ⟨hx, hl⟩ := List.nodup_cons.1 hn
    rcases List.mem_cons.1 hi with rfl | hi
    · simp [hp, hq, countP_congr_off hx h]
    · have hxi : x ≠ i := fun e => hx (e ▸ hi)
      rw [List.countP_cons, List.countP_cons, h x hxi, ← ih hl hi]; omega

theorem countP_le_one {α : Type} {p : α → Bool} {e : α} {l : List α} (hn : l.Nodup)
    (h : ∀ i, p i = true → i = e) : l.countP p ≤ 1 := by
  induction l with
  | nil => simp
  | cons x l ih =>
    obtain ⟨hx, hl⟩ := List.nodup_cons.1 hn
    rw [List.countP_cons]
    split
    · next hpx =>
      have : l.countP p = 0 := List.countP_eq_zero.2 fun y hy hpy => hx (by rw [h x hpx, ← h y hpy]; exact hy)
      omega
    · have := ih hl; omega

theorem liveSlots_all {t : Table Slot} (h : ∀ i, (Table.entry t i).v = true) : liveSlots t = 256 := by
  unfold liveSlots
  rw [List.countP_eq_length.2 fun i _ => h i]
  simp [allBytes]

theorem liveSlots_merged {t : Table Slot} {a b : Byte} {n : BitVec 9}
    (ha : (Table.entry t a).v = true) (hb : (Table.entry t b).v = true) :
    liveSlots (mergedSlots t a b n) + 1 = liveSlots t := by
  refine countP_drop_one nodup_allBytes (mem_allBytes b) hb ?_ fun j hj => ?_
  · simp [mergedSlots]
  · simp only [mergedSlots, Table.entry_withEntry, hj, if_false]
    split
    · next h => rw [h]; exact ha
    · rfl

theorem liveSlots_le_one {t : Table Slot} {e : Byte} (h : ∀ i, (Table.entry t i).v = true → i = e) : liveSlots t ≤ 1 :=
  countP_le_one nodup_allBytes h

/-! ### SELECT -/

theorem slotWeight_some (hb : BuildOk s.work s.tab) {i : Byte} (hi : (Table.entry s.tab.slot i).v = true) :
    ∃ w, slotWeight s.tab i = some w := by
  have h1 := hb.roots i hi
  have h2 := hb.counts
  have h3 := hb.live_low
  obtain ⟨nd, hnd⟩ := Arena.node?_eq_some (a := s.tab.node) (n := (Table.entry s.tab.slot i).n) (by omega)
  exact ⟨nd.w, by simp [slotWeight, hnd]⟩

/-- everything a visit can answer -/
theorem selectVisit_some (hb : BuildOk s.work s.tab) {ex best : Option Byte} (i : Byte)
    (hbest : ∀ b, best = some b → (Table.entry s.tab.slot b).v = true ∧ ex ≠ some b) :
    ∃ best', selectVisit s.tab ex best i = some best' ∧
      (∀ b, best' = some b → (Table.entry s.tab.slot b).v = true ∧ ex ≠ some b) ∧
      (best' = none → best = none ∧ ((Table.entry s.tab.slot i).v = true → ex = some i)) := by
  unfold selectVisit
  split
  · next hc =>
    match best, hbest with
    | none, _ => exact ⟨some i, rfl, fun b e => by cases e; exact hc, fun e => by cases e⟩
    | some b, hbest =>
      obtain ⟨wi, hwi⟩ := slotWeight_some hb hc.1
      obtain ⟨wb, hwb⟩ := slotWeight_some hb (hbest b rfl).1
      simp only [hwi, hwb]
      split
      · exact ⟨some i, rfl, fun b e => by cases e; exact hc, fun e => by cases e⟩
      · exact ⟨some b, rfl, fun b' e => by cases e; exact hbest b rfl, fun e => by cases e⟩
  · next hc =>
    refine ⟨best, rfl, hbest, fun e => ⟨e, fun hv => ?_⟩⟩
    by_contra hne
    exact hc ⟨hv, hne⟩

theorem BuildOk.of_eq {w w' : Work} {t : Tables} (h : BuildOk w t) (h1 : w'.next = w.next) (h2 : w'.live = w.live) :
    BuildOk w' t := by
  refine ⟨?_, ?_, ?_, ?_, ?_, ?_⟩ <;> (try rw [h1]) <;> (try rw [h2])
  exacts [h.next_low, h.live_low, h.counts, h.slots, h.roots, h.children]

/-- One slot of a select: the scan goes on, or the slot found goes to `found`. -/
theorem scanSlot_next (hb : BuildOk s.work s.tab) {ex best : Option Byte} (hsc : ScanOk s.work s.tab ex best) {again : Option Byte → Stage}
    {found : Byte → State → State} :
    (∃ best', scanSlot ex best again found s = .next { s with work.sidx := s.work.sidx + 1, stage := again best' } ∧
      ScanOk { s.work with sidx := s.work.sidx + 1 } s.tab ex best') ∨
    (∃ b, scanSlot ex best again found s = .next (found b { s with work.sidx := s.work.sidx + 1 }) ∧
      (Table.entry s.tab.slot b).v = true ∧ ex ≠ some b) := by
  obtain ⟨best', he, hlive, hnone⟩ := selectVisit_some hb (s.work.sidx.setWidth 8) hsc.best_live
  have hi : (s.work.sidx.setWidth 8 : Byte).toNat = s.work.sidx.toNat := by
    rw [BitVec.toNat_setWidth]; exact Nat.mod_eq_of_lt hsc.sidx
  have seen : best' = none → ∀ i : Byte, i.toNat ≤ s.work.sidx.toNat → (Table.entry s.tab.slot i).v = true → ex = some i := by
    intro hn i hle hv
    rcases Nat.lt_or_eq_of_le hle with hlt | heq
    · exact hsc.none_seen (hnone hn).1 i hlt hv
    · have : i = s.work.sidx.setWidth 8 := BitVec.eq_of_toNat_eq (by rw [hi, heq])
      subst this; exact (hnone hn).2 hv
  unfold scanSlot
  rw [he]
  simp only
  split
  · next hlt =>
    refine .inl ⟨best', rfl, ?_, hsc.two, hlive, ?_⟩
    · show (s.work.sidx + 1).toNat < 256
      rw [vidx_succ hlt]; omega
    · intro hn i hi' hv
      refine seen hn i ?_ hv
      change i.toNat < (s.work.sidx + 1).toNat at hi'
      rw [vidx_succ hlt] at hi'; omega
  · next hlt =>
    right
    match best', hlive, seen with
    | some b, hlive, _ => exact ⟨b, rfl, hlive b rfl⟩
    | none, _, seen =>
      exfalso
      have hall : ∀ i, (Table.entry s.tab.slot i).v = true → ex = some i := fun i hv => seen rfl i (by have := i.isLt; omega) hv
      have h2 := hsc.two
      rw [← hb.slots] at h2
      match ex, hall with
      | none, hall =>
        have : liveSlots s.tab.slot = 0 := List.countP_eq_zero.2 fun i _ hv => by simpa using hall i hv
        omega
      | some e, hall =>
        have := liveSlots_le_one (t := s.tab.slot) (e := e) fun i hv => (Option.some.inj (hall i hv)).symm
        omega

/-! ### INIT -/

theorem initLeaf_inv (h : Inv s) (hp : s.phase = .build) (h0 : s.outCnt = 0) {v : BitVec 9} (hv : v.toNat < 256)
    (hs : ∀ i : Byte, i.toNat < v.toNat → Table.entry s.tab.slot i = { v := true, n := i.setWidth 9 }) :
    Inv (initLeaf v s) := by
  have hb : s.phase ≠ .idle := by simp [hp]
  have hop : s.op ≠ .none := by have := h.op; rw [hp] at this; exact this
  have hi : (v.setWidth 8 : Byte).toNat = v.toNat := by
    rw [BitVec.toNat_setWidth]; exact Nat.mod_eq_of_lt hv
  have hv9 : ((v.setWidth 8 : Byte).setWidth 9) = v := BitVec.eq_of_toNat_eq (by
    rw [BitVec.toNat_setWidth, hi]; omega)
  have hall : ∀ i : Byte, i.toNat < v.toNat + 1 →
      Table.entry (Table.withEntry s.tab.slot (v.setWidth 8) { v := true, n := v }) i = { v := true, n := i.setWidth 9 } := by
    intro i hlt
    rw [Table.entry_withEntry]
    split
    · next e => rw [e, hv9]
    · next e => exact hs i (Nat.lt_of_le_of_ne (by omega) fun e' => e (BitVec.eq_of_toNat_eq (by rw [hi, e'])))
  unfold initLeaf
  simp only
  split
  · next hlt =>
    refine h.run hb ⟨rfl, rfl, rfl, rfl, rfl, rfl, id, rfl⟩ (by rw [hp]; exact hop) h.code_len ?_
    simp only [PositionOk, hp]
    refine ⟨h0, by rw [vidx_succ hlt]; omega, fun i hi => hall i ?_⟩
    rwa [vidx_succ hlt] at hi
  · next hlt =>
    refine h.run hb ⟨rfl, rfl, rfl, rfl, rfl, rfl, id, rfl⟩ (by rw [hp]; exact hop) h.code_len ?_
    simp only [PositionOk, hp]
    have hall' : ∀ i : Byte, Table.entry (Table.withEntry s.tab.slot (v.setWidth 8) { v := true, n := v }) i =
      { v := true, n := i.setWidth 9 } := fun i => hall i (by have := i.isLt; omega)
    refine ⟨h0, ⟨by simp, by simp, by simp, ?_, fun i _ => ?_, ?_⟩, ⟨by simp, by simp, by simp, by simp⟩⟩
    · exact liveSlots_all fun i => by simp only [hall' i]
    · simp only [hall' i, BitVec.toNat_setWidth]
      have := i.isLt
      rw [Nat.mod_eq_of_lt (by omega)]; exact this
    · intro n c hn hc
      have hn' : n.toNat < 256 := hn
      have := (Arena.children?_eq_some.1 hc).1
      omega

theorem ChildrenBelow.withNode {a : Arena} {k : Nat} (h : ChildrenBelow a k) {nd : Node} (hl : nd.l.toNat < k) (hr : nd.r.toNat < k) :
    ChildrenBelow (a.withNode k nd) (k + 1) := by
  intro n c hn hc
  obtain ⟨h256, nd', hnd, rfl⟩ := Arena.children?_eq_some.1 hc
  rw [Arena.node?_withNode] at hnd
  split at hnd
  · next e => cases hnd; rw [e.1]; exact ⟨hl, hr⟩
  · next e =>
    by_cases hnk : n.toNat = k
    · have : ¬ k < 511 := fun h' => e ⟨hnk, h'⟩
      have := Arena.node?_eq_none (a := a) (n := n) |>.2 (by omega)
      rw [this] at hnd; cases hnd
    · exact h n _ (by omega) (Arena.children?_eq_some.2 ⟨h256, nd', hnd, rfl⟩)

/-! ### MERGE -/

theorem mergeStep_fine (h : Inv s) (hp : s.phase = .build) (h0 : s.outCnt = 0) (hbd : BuildOk s.work s.tab) (h2 : 2 ≤ s.work.live.toNat)
    (ha : (Table.entry s.tab.slot s.work.sela).v = true)
    (hbv : (Table.entry s.tab.slot s.work.selb).v = true) : Fine (mergeStep s) := by
  have hb : s.phase ≠ .idle := by simp [hp]
  have hop : s.op ≠ .none := by have := h.op; rw [hp] at this; exact this
  have hn := hbd.next_low
  have hc := hbd.counts
  have hla := hbd.roots _ ha
  have hlb := hbd.roots _ hbv
  obtain ⟨na, hna⟩ := Arena.node?_eq_some (a := s.tab.node) (n := (Table.entry s.tab.slot s.work.sela).n) (by omega)
  obtain ⟨nb, hnb⟩ := Arena.node?_eq_some (a := s.tab.node) (n := (Table.entry s.tab.slot s.work.selb).n) (by omega)
  unfold mergeStep
  simp only [hna, hnb]
  rw [if_pos (show s.work.next.toNat < Config.nodeCount by show _ < 511; omega)]
  have hnext : (s.work.next + 1).toNat = s.work.next.toNat + 1 := toNat_succ (b := 511) (by omega) (by decide)
  have hlive : (s.work.live - 1).toNat = s.work.live.toNat - 1 := by
    rw [BitVec.toNat_sub]; simp; omega
  have hn9 : (s.work.next.setWidth 9).toNat = s.work.next.toNat := by
    rw [BitVec.toNat_setWidth]; exact Nat.mod_eq_of_lt (by omega)
  have key : BuildOk { s.work with next := s.work.next + 1, live := s.work.live - 1 } { s.tab with
        node := s.tab.node.withNode s.work.next.toNat { w := na.w + nb.w, l := (Table.entry s.tab.slot s.work.sela).n, r := (Table.entry s.tab.slot s.work.selb).n }
        slot := mergedSlots s.tab.slot s.work.sela s.work.selb (s.work.next.setWidth 9) } := by
    refine ⟨?_, ?_, ?_, ?_, ?_, ?_⟩
    · show 256 ≤ (s.work.next + 1).toNat
      omega
    · show 1 ≤ (s.work.live - 1).toNat
      omega
    · show (s.work.next + 1).toNat + (s.work.live - 1).toNat = 512
      omega
    · show liveSlots (mergedSlots _ _ _ _) = (s.work.live - 1).toNat
      have := liveSlots_merged (n := s.work.next.setWidth 9) ha hbv
      have := hbd.slots
      omega
    · intro i hv
      show _ < (s.work.next + 1).toNat
      rw [hnext]
      revert hv
      show (Table.entry (mergedSlots _ _ _ _) i).v = true → (Table.entry (mergedSlots _ _ _ _) i).n.toNat < _
      simp only [mergedSlots, Table.entry_withEntry]
      split
      · simp
      · split
        · intro _; rw [hn9]; omega
        · intro hv; have := hbd.roots i hv; omega
    · show ChildrenBelow _ (s.work.next + 1).toNat
      rw [hnext]
      exact hbd.children.withNode hla hlb
  unfold nextMerge
  split
  · next hl =>
    refine .of (h.run hb ⟨rfl, rfl, rfl, rfl, rfl, rfl, id, rfl⟩ (by rw [hp]; exact hop) h.code_len ?_)
    simp only [PositionOk, hp]
    exact ⟨h0, key.of_eq rfl rfl, by simp, hl, by simp, by simp⟩
  · next hl =>
    refine .of (h.run hb ⟨rfl, rfl, rfl, rfl, rfl, rfl, id, rfl⟩ (by rw [hp]; exact hop) h.code_len ?_)
    simp only [PositionOk, hp]
    refine ⟨h0, key.of_eq rfl rfl, BitVec.eq_of_toNat_eq ?_⟩
    change ¬ 1 < (s.work.live - 1).toNat at hl
    rw [hlive] at hl ⊢; simp; omega

theorem execBuild_fine (h : Inv s) (hp : s.phase = .build) : Fine (execBuild s) := by
  have hb : s.phase ≠ .idle := by simp [hp]
  have hop : s.op ≠ .none := by have := h.op; rw [hp] at this; exact this
  have hpos := h.position
  unfold execBuild
  cases hs : s.stage with
  | entry =>
    simp only [PositionOk, hp, hs] at hpos
    exact .of (initLeaf_inv h hp hpos (by simp) (by simp))
  | initLeaf =>
    simp only [PositionOk, hp, hs] at hpos
    exact .of (initLeaf_inv h hp hpos.1 hpos.2.1 hpos.2.2)
  | scanA best =>
    simp only [PositionOk, hp, hs] at hpos
    obtain ⟨h0, hbd, hsc⟩ := hpos
    rcases scanSlot_next hbd hsc (again := .scanA) (found := foundA) with ⟨best', e, hsc'⟩ | ⟨b, e, hv, hx⟩
    · show Fine (scanSlot none best .scanA foundA s)
      rw [e]
      refine .of (h.run hb ⟨rfl, rfl, rfl, rfl, rfl, rfl, id, rfl⟩ (by rw [hp]; exact hop) h.code_len ?_)
      simp only [PositionOk, hp]
      exact ⟨h0, hbd.of_eq rfl rfl, hsc'.sidx, hsc'.two, hsc'.best_live, hsc'.none_seen⟩
    · show Fine (scanSlot none best .scanA foundA s)
      rw [e]
      refine .of (h.run hb ⟨rfl, rfl, rfl, rfl, rfl, rfl, id, rfl⟩ (by show s.phase.allows _; rw [hp]; exact hop) h.code_len ?_)
      simp only [PositionOk, hp, foundA]
      exact ⟨h0, hbd.of_eq rfl rfl, ⟨by simp, hsc.two, by simp, by simp⟩, hv⟩
  | scanB best =>
    simp only [PositionOk, hp, hs] at hpos
    obtain ⟨h0, hbd, hsc, ha⟩ := hpos
    rcases scanSlot_next hbd hsc (again := .scanB) (found := foundB) with ⟨best', e, hsc'⟩ | ⟨b, e, hv, hx⟩
    · show Fine (scanSlot (some s.work.sela) best .scanB foundB s)
      rw [e]
      refine .of (h.run hb ⟨rfl, rfl, rfl, rfl, rfl, rfl, id, rfl⟩ (by rw [hp]; exact hop) h.code_len ?_)
      simp only [PositionOk, hp]
      exact ⟨h0, hbd.of_eq rfl rfl, ⟨hsc'.sidx, hsc'.two, hsc'.best_live, hsc'.none_seen⟩, ha⟩
    · show Fine (scanSlot (some s.work.sela) best .scanB foundB s)
      rw [e]
      refine .of (h.run hb ⟨rfl, rfl, rfl, rfl, rfl, rfl, id, rfl⟩ (by show s.phase.allows _; rw [hp]; exact hop) h.code_len ?_)
      simp only [PositionOk, hp, foundB]
      exact ⟨h0, hbd.of_eq rfl rfl, hsc.two, fun e => hx (by rw [e]), ha, hv⟩
  | merge =>
    simp only [PositionOk, hp, hs] at hpos
    obtain ⟨h0, hbd, h2, -, ha, hbv⟩ := hpos
    exact mergeStep_fine h hp h0 hbd h2 ha hbv
  | root =>
    simp only [PositionOk, hp, hs] at hpos
    obtain ⟨h0, hbd, h1⟩ := hpos
    have hc := hbd.counts
    rw [h1] at hc
    have hnx : s.work.next.toNat = 511 := by simpa using hc
    have htree : TreeOk { s.work with root := (s.work.next - 1).setWidth 9 } s.tab := by
      refine ⟨BitVec.eq_of_toNat_eq ?_, ?_⟩
      · show ((s.work.next - 1).setWidth 9).toNat = 510
        rw [BitVec.toNat_setWidth, BitVec.toNat_sub, hnx]; rfl
      · have := hbd.children; rwa [hnx] at this
    show Fine (.next (takeRoot s))
    unfold takeRoot
    simp only
    split
    · next hc =>
      refine .of (h.run hb ⟨rfl, rfl, rfl, rfl, rfl, rfl, id, rfl⟩ (by simp [Phase.allows, hc]) h.code_len ?_)
      exact ⟨h0, htree.root, htree.children⟩
    · next hc =>
      have hd : s.op = .decomp := by cases ho : s.op <;> simp_all
      refine .of (h.run hb ⟨rfl, rfl, rfl, rfl, rfl, rfl, id, rfl⟩ (by simp [Phase.allows, hd]) h.code_len ?_)
      exact ⟨h0, htree.root, htree.children⟩
  | _ => simp only [PositionOk, hp, hs] at hpos

end Sys2Proof.Machine
end

