-- ==== Sys2Proof/Laws/InvariantHost.lean ====
section
/-!
SUPPORT. The invariant through the commands and the host's moves.
-/
namespace Sys2Proof.Machine

variable {s t : State}

/-! ### Commands -/

theorem accepted_fine (h : Inv s) {k : Res} (hk : s.phase = .idle → s.outside.rst = false → Fine k) : Fine (accepted s k) := by
  unfold accepted
  split
  · exact .of h
  · next hc => simp [State.busy] at hc; exact hk hc.1 hc.2

theorem Inv.idle (h : Inv s) (hp : t.phase = .idle) (hst : t.stage = .entry) (hd : ¬(t.done = true ∧ t.err = true))
    (hn : t.err = false → t.errcode = 0) (he : t.err = true → ∃ e : ErrCode, t.errcode = e.code.setWidth 32)
    (htab : t.tab = s.tab) (ho : t.outside = s.outside) : Inv t := by
  refine ⟨ho ▸ h.inp_wf, ho ▸ h.out_wf, hd, hn, he, fun _ => hp, fun x => absurd hp x, ?_, fun x => absurd hp x, fun x => absurd hp x, htab ▸ h.code_len, ?_⟩
  · rw [hp]; trivial
  · simp [PositionOk, hp, hst]

theorem idle_entry (h : Inv s) (hp : s.phase = .idle) : s.stage = .entry := by
  have hpos := h.position
  cases hs : s.stage with
  | entry => rfl
  | _ => simp only [PositionOk, hp, hs] at hpos

theorem execClear_fine (h : Inv s) : Fine (execClear s) :=
  accepted_fine h fun hp _ => .of (h.idle (t := s.clearFor .none) hp (show s.stage = .entry from idle_entry h hp) (by simp) (by simp) (by simp) rfl rfl)

theorem execReservedCmd_fine (h : Inv s) (w : Word) : Fine (execReservedCmd w s) :=
  accepted_fine h fun _ _ => .of (h.idle rfl rfl (by simp) (by simp) (fun _ => ⟨_, rfl⟩) rfl rfl)

theorem execNop_fine (h : Inv s) : Fine (execNop s) := accepted_fine h fun _ _ => .of h

theorem execCompress_fine (h : Inv s) : Fine (execCompress s) := by
  refine accepted_fine h fun hp hr => ?_
  simp only
  split
  · exact .of (h.idle rfl rfl (by simp) (by simp) (fun _ => ⟨_, rfl⟩) rfl rfl)
  · next hl =>
    exact .of ⟨h.inp_wf, h.out_wf, by simp, by simp, by simp, by simp [hr], by simp, rfl, fun _ => by simpa using hl, by simp, h.code_len, rfl⟩

theorem execDecompress_fine (h : Inv s) : Fine (execDecompress s) := by
  refine accepted_fine h fun hp hr => ?_
  simp only
  split
  · exact .of (h.idle rfl rfl (by simp) (by simp) (fun _ => ⟨_, rfl⟩) rfl rfl)
  · next hl =>
    split
    · exact .of (h.idle rfl rfl (by simp) (by simp) (fun _ => ⟨_, rfl⟩) rfl rfl)
    · next hl2 =>
      exact .of ⟨h.inp_wf, h.out_wf, by simp, by simp, by simp, by simp [hr], by simp, rfl, fun _ => by simpa using hl, fun _ _ => by simpa using hl2, h.code_len, rfl⟩

/-! ### Moves of the host -/

theorem Inv.outsideOnly (h : Inv s) {o : Outside} (hi : o.inp.wf) (ho : o.out.wf) (hr : o.rst = true → s.phase = .idle) :
    Inv { s with outside := o } :=
  ⟨hi, ho, h.done_err, h.no_err, h.err_code, hr, h.busy_clear, h.op, h.len_high, h.len_low, h.code_len, h.position⟩

theorem Inv.withScript (h : Inv s) (sc : List HostMove) : Inv (s.withScript sc) :=
  h.outsideOnly h.inp_wf h.out_wf h.rst_idle

theorem decodeCmd_encode (w : Word) : encode (decodeCmd w) = .cmd w := by
  unfold decodeCmd
  repeat' split
  all_goals first | rfl | (rename_i e; subst e; rfl)

theorem Inv.inLen (h : Inv s) (hp : s.phase = .idle) (w : Word) : Inv { s with inLen := w } := by
  refine ⟨h.inp_wf, h.out_wf, h.done_err, h.no_err, h.err_code, h.rst_idle, h.busy_clear, h.op, fun x => absurd hp x, fun x => absurd hp x, h.code_len, ?_⟩
  simp [PositionOk, hp, idle_entry h hp]

theorem Inv.regWrite (h : Inv s) (off v : Word) : Inv (s.regWrite off v) := by
  unfold State.regWrite
  split
  · split
    · exact h
    · next hc => simp [State.busy] at hc; exact h.inLen hc.1 v
  · exact h

theorem codeLen_reset : CodeLen State.reset := by
  intro v; simp [State.reset, Tables.reset, Table.entry]

theorem Inv.assertReset (h : Inv s) : Inv s.assertReset :=
  ⟨h.inp_wf, h.out_wf, by simp [State.assertReset, State.reset], fun _ => rfl, (fun h' => by cases h'), fun _ => rfl, fun x => absurd rfl x, trivial, fun x => absurd rfl x, fun x => absurd rfl x, codeLen_reset, trivial⟩

end Sys2Proof.Machine
end

