-- ==== Sys2Proof/Laws/InvariantPack.lean ====
section
/-!
SUPPORT. The invariant through CODEGEN, PACK and FINISH.
-/
namespace Sys2Proof.Machine

variable {s t : State}

/-! ### CODEGEN -/

theorem CodeLen.record (h : CodeLen s) {n : Byte} {path : List Bool} (hl : path.length ≤ 255) :
    CodeLen (recordCode n path s) := by
  intro v
  simp only [recordCode, Table.entry_withEntry]
  split
  · simp; omega
  · exact h v

theorem afterVisit_inv (h : Inv s) (hp : s.phase = .codegen) (hc : Carries s t) (htp : t.phase = .codegen) (hcode : CodeLen t)
    (h0 : t.outCnt = 1024) (ht : TreeOk t.work t.tab) {todo : List (BitVec 9 × List Bool)}
    (hv : ∀ x ∈ todo, VisitOk x) : Inv (afterVisit todo t) := by
  have hb : s.phase ≠ .idle := by simp [hp]
  have hop : s.op = .comp := by have := h.op; rw [hp] at this; exact this
  match todo, hv with
  | [], _ => exact h.run hb ⟨hc.done, hc.err, hc.errcode, hc.op, hc.inLen, hc.inp, hc.out, hc.rst⟩ (by simp [afterVisit, Phase.allows, hop]) hcode h0
  | x :: todo, hv =>
    refine h.run hb ⟨hc.done, hc.err, hc.errcode, hc.op, hc.inLen, hc.inp, hc.out, hc.rst⟩ (by simp [afterVisit, htp, Phase.allows, hop]) hcode ?_
    simp only [PositionOk, afterVisit, htp]
    exact ⟨h0, ⟨ht.root, ht.children⟩, by simp, hv⟩

theorem visitNode_fine (h : Inv s) (hp : s.phase = .codegen) (h0 : s.outCnt = 1024) (ht : TreeOk s.work s.tab) {n : BitVec 9} {path : List Bool}
    {rest : List (BitVec 9 × List Bool)} (hn : VisitOk (n, path)) (hr : ∀ x ∈ rest, VisitOk x) :
    Fine (visitNode n path rest s) := by
  unfold visitNode
  split
  · next hlt =>
    rw [if_pos (hn.1 hlt)]
    exact .of (afterVisit_inv (t := recordCode (n.setWidth 8) path s) h hp ⟨rfl, rfl, rfl, rfl, rfl, rfl, id, rfl⟩ hp (CodeLen.record h.code_len (hn.1 hlt)) h0 ⟨ht.root, ht.children⟩ hr)
  · next hge =>
    have h2 := hn.2 (by simpa using hge)
    simp only at h2
    obtain ⟨nd, hnd⟩ := Arena.node?_eq_some (a := s.tab.node) (n := n) (by omega)
    have hch : Arena.children? s.tab.node n = some (nd.l, nd.r) :=
      Arena.children?_eq_some.2 ⟨by simpa using hge, nd, hnd, rfl⟩
    have hlow := ht.children n _ (by omega) hch
    simp only at hlow
    rw [hch]
    refine .of (afterVisit_inv h hp (.refl s) hp h.code_len h0 ht ?_)
    intro x hx
    rcases List.mem_cons.1 hx with rfl | hx
    · constructor <;> intro _ <;> simp at * <;> omega
    rcases List.mem_cons.1 hx with rfl | hx
    · constructor <;> intro _ <;> simp at * <;> omega
    · exact hr x hx

theorem execCodegen_fine (h : Inv s) (hp : s.phase = .codegen) : Fine (execCodegen s) := by
  have hpos := h.position
  unfold execCodegen
  cases hs : s.stage with
  | entry =>
    simp only [PositionOk, hp, hs] at hpos
    refine visitNode_fine h hp hpos.1 hpos.2 ?_ (by simp)
    rw [hpos.2.root]
    exact ⟨by simp, by simp⟩
  | visit todo =>
    simp only [PositionOk, hp, hs] at hpos
    obtain ⟨h0, ht, hne, hv⟩ := hpos
    match todo, hne, hv with
    | (n, path) :: rest, _, hv =>
      exact visitNode_fine h hp h0 ht (hv _ List.mem_cons_self) fun x hx => hv x (List.mem_cons_of_mem _ hx)
  | _ => simp only [PositionOk, hp, hs] at hpos

/-! ### PACK -/

theorem packNextByte_inv (h : Inv s) (hp : s.phase = .pack) (hc : Carries s t) (htp : t.phase = .pack) (hcode : CodeLen t)
    (hlt : t.work.pos.toNat < t.inLen.toNat) (hpk : PackedOk t.outCnt t.work (255 * (t.work.pos.toNat + 1))) : Inv (packNextByte t) := by
  have hb : s.phase ≠ .idle := by simp [hp]
  have hop : s.op = .comp := by have := h.op; rw [hp] at this; exact this
  have hle := h.len_high hb
  rw [← hc.inLen] at hle
  have hs : (t.work.pos + 1).toNat = t.work.pos.toNat + 1 := toNat_succ (Nat.lt_of_lt_of_le hlt hle) (by decide)
  unfold packNextByte
  simp only
  split
  · next hl =>
    refine h.run hb ⟨hc.done, hc.err, hc.errcode, hc.op, hc.inLen, hc.inp, hc.out, hc.rst⟩ (by simp [htp, Phase.allows, hop]) hcode ?_
    simp only [PositionOk, htp]
    exact ⟨by rw [hs]; exact hl, by rw [hs]; exact hpk⟩
  · next hl =>
    refine h.run hb ⟨hc.done, hc.err, hc.errcode, hc.op, hc.inLen, hc.inp, hc.out, hc.rst⟩ (by simp [Phase.allows, hop]) hcode ?_
    have he : t.work.pos.toNat + 1 = t.inLen.toNat := by omega
    rw [he] at hpk
    exact hpk

theorem PackedOk.mono {a b : Nat} (h : PackedOk s.outCnt s.work a) (hab : a ≤ b) : PackedOk s.outCnt s.work b :=
  ⟨h.1, h.2.1, Nat.le_trans h.2.2 (by omega)⟩

theorem outCnt_succ (h : s.outCnt.toNat < 2 ^ 39) : (s.outCnt + 1).toNat = s.outCnt.toNat + 1 :=
  toNat_succ h (by decide)

/-- PUSHBIT pushes one bit. -/
theorem PackedOk.push (s : State) {n : Nat} (h : PackedOk s.outCnt s.work n) (hn : n < 2 ^ 41) (bit : Bool) :
    (s.work.free = 0 → PackedOk (shiftAcc bit (flushAcc s)).outCnt (shiftAcc bit (flushAcc s)).work (n + 1)) ∧ (s.work.free ≠ 0 → PackedOk (shiftAcc bit s).outCnt (shiftAcc bit s).work (n + 1)) := by
  obtain ⟨h1, h2, h3⟩ := h
  constructor
  · intro hf
    rw [hf] at h3
    simp at h3
    have ho := outCnt_succ (s := s) (by omega)
    refine ⟨?_, ?_, ?_⟩
    · show 1024 ≤ (s.outCnt + 1).toNat
      omega
    · show ((8 : BitVec 4) - 1).toNat ≤ 8
      decide
    · show 8 * (s.outCnt + 1).toNat + (8 - ((8 : BitVec 4) - 1).toNat) ≤ 8192 + (n + 1)
      have : ((8 : BitVec 4) - 1).toNat = 7 := rfl
      omega
  · intro hf
    have hf' : s.work.free.toNat ≠ 0 := fun e => hf (BitVec.eq_of_toNat_eq (by simpa using e))
    have hs : (s.work.free - 1).toNat = s.work.free.toNat - 1 := by
      rw [BitVec.toNat_sub]; simp; omega
    refine ⟨h1, ?_, ?_⟩
    · show (s.work.free - 1).toNat ≤ 8
      omega
    · show 8 * s.outCnt.toNat + (8 - (s.work.free - 1).toNat) ≤ 8192 + (n + 1)
      omega

theorem packNextBit_inv (h : Inv s) (hp : s.phase = .pack) (hc : Carries s t) (htp : t.phase = .pack) (hcode : CodeLen t)
    (hlt : t.work.pos.toNat < t.inLen.toNat) (hci : t.work.cidx.toNat < (Table.entry t.tab.code t.work.byte).len.toNat)
    (hpk : PackedOk t.outCnt t.work (255 * t.work.pos.toNat + t.work.cidx.toNat + 1)) : Inv (packNextBit t) := by
  have hb : s.phase ≠ .idle := by simp [hp]
  have hop : s.op = .comp := by have := h.op; rw [hp] at this; exact this
  have hl8 := (Table.entry t.tab.code t.work.byte).len.isLt
  unfold packNextBit
  split
  · next hl =>
    have hs : (t.work.cidx + 1).toNat = t.work.cidx.toNat + 1 := toNat_succ (b := 255) (by omega) (by decide)
    refine h.run hb ⟨hc.done, hc.err, hc.errcode, hc.op, hc.inLen, hc.inp, hc.out, hc.rst⟩ (by simp [htp, Phase.allows, hop]) hcode ?_
    simp only [PositionOk, htp]
    refine ⟨hlt, by rw [hs]; exact hl, ?_⟩
    rw [hs]; exact hpk
  · next hl =>
    exact packNextByte_inv h hp hc htp hcode hlt (hpk.mono (by omega))

theorem execPack_fine (h : Inv s) (hp : s.phase = .pack) : Fine (execPack s) := by
  have hb : s.phase ≠ .idle := by simp [hp]
  have hop : s.op = .comp := by have := h.op; rw [hp] at this; exact this
  have hle := h.len_high hb
  have hpos := h.position
  simp only [Config.maxLen] at hle
  unfold execPack
  cases hs : s.stage with
  | entry =>
    simp only [PositionOk, hp, hs] at hpos
    refine .of ?_
    unfold packStart
    simp only
    have hpk : ∀ n, PackedOk s.outCnt { s.work with acc := 0, free := 8, pos := 0 } n := fun n =>
      ⟨by simp [hpos], by simp, by simp [hpos]⟩
    split
    · exact h.run hb ⟨rfl, rfl, rfl, rfl, rfl, rfl, id, rfl⟩ (by simp [Phase.allows, hop]) h.code_len (hpk _)
    · next hz =>
      refine h.run hb ⟨rfl, rfl, rfl, rfl, rfl, rfl, id, rfl⟩ (by rw [hp]; exact hop) h.code_len ?_
      simp only [PositionOk, hp]
      have : s.inLen.toNat ≠ 0 := fun e => hz (BitVec.eq_of_toNat_eq (by simpa using e))
      exact ⟨by simp; omega, hpk _⟩
  | fetch =>
    simp only [PositionOk, hp, hs] at hpos
    obtain ⟨hlt, hpk⟩ := hpos
    show Fine (packFetch s)
    unfold packFetch
    refine fine_inByte h hlt ?_
    simp only
    split
    · refine .of (packNextByte_inv (t := { s with work.byte := s.outside.inp.read s.work.pos.toNat, work.cidx := 0 }) h hp ⟨rfl, rfl, rfl, rfl, rfl, rfl, id, rfl⟩ hp h.code_len hlt ?_)
      exact PackedOk.mono hpk (Nat.mul_le_mul_left _ (Nat.le_succ _))
    · next hz =>
      refine .of (h.run hb ⟨rfl, rfl, rfl, rfl, rfl, rfl, id, rfl⟩ (by rw [hp]; exact hop) h.code_len ?_)
      simp only [PositionOk, hp]
      refine ⟨hlt, ?_, hpk⟩
      have : (Table.entry s.tab.code (s.outside.inp.read s.work.pos.toNat)).len.toNat ≠ 0 :=
        fun e => hz (BitVec.eq_of_toNat_eq (by simpa using e))
      simp; omega
  | push =>
    simp only [PositionOk, hp, hs] at hpos
    obtain ⟨hlt, hci, hpk⟩ := hpos
    have hl := h.code_len s.work.byte
    show Fine (packPush s)
    unfold packPush
    obtain ⟨bit, hbit⟩ : ∃ bit, (s.tab.code.entry s.work.byte).bits[s.work.cidx.toNat]? = some bit :=
      ⟨_, List.getElem?_eq_getElem (by omega)⟩
    rw [hbit]
    have hpp := PackedOk.push s hpk (by have := (Table.entry s.tab.code s.work.byte).len.isLt; omega) bit
    show Fine (pushBit bit s packNextBit)
    unfold pushBit
    split
    · next hf =>
      refine fine_whenAccepted h (.of (packNextBit_inv h hp ?_ hp h.code_len hlt hci (hpp.1 hf)))
      exact (outByte_carries s s.work.acc).trans ⟨rfl, rfl, rfl, rfl, rfl, rfl, id, rfl⟩
    · next hf =>
      exact .of (packNextBit_inv h hp ⟨rfl, rfl, rfl, rfl, rfl, rfl, id, rfl⟩ hp h.code_len hlt hci (hpp.2 hf))
  | _ => simp only [PositionOk, hp, hs] at hpos

/-! ### FINISH -/

theorem finishTrailer_fine (h : Inv s) (hp : s.phase = .finish) : Fine (finishTrailer s) := by
  have hb : s.phase ≠ .idle := by simp [hp]
  exact fine_whenAccepted h (.of (h.completed hb (outByte_carries s _) h.code_len))

theorem execFinish_fine (h : Inv s) (hp : s.phase = .finish) : Fine (execFinish s) := by
  have hb : s.phase ≠ .idle := by simp [hp]
  have hop : s.op = .comp := by have := h.op; rw [hp] at this; exact this
  have hle := h.len_high hb
  have hpos := h.position
  simp only [Config.maxLen] at hle
  unfold execFinish
  cases hs : s.stage with
  | entry =>
    simp only [PositionOk, hp, hs] at hpos
    obtain ⟨h1, h2, h3⟩ := hpos
    have ho := outCnt_succ (s := s) (by omega)
    show Fine (finishData s)
    unfold finishData
    split
    · exact finishTrailer_fine h hp
    · next h8 =>
      have h8' : s.work.free.toNat ≠ 8 := fun e => h8 (BitVec.eq_of_toNat_eq (by simpa using e))
      split
      · next hf =>
        refine fine_whenAccepted h (.of (h.run hb (t := { s.outByte s.work.acc with stage := .trailer }) ?_ ?_ h.code_len ?_))
        · exact (outByte_carries s s.work.acc).trans ⟨rfl, rfl, rfl, rfl, rfl, rfl, id, rfl⟩
        · show s.phase.allows _; rw [hp]; exact hop
        · simp only [PositionOk, State.outByte_phase, hp]
          exact ⟨by simp [hf], by show 1025 ≤ (s.outCnt + 1).toNat; omega, by show 8 * (s.outCnt + 1).toNat ≤ 8200 + 255 * s.inLen.toNat; omega⟩
      · next hf =>
        refine fine_whenAccepted h (.of (h.run hb (t := { s.outByte (s.work.acc <<< s.work.free.toNat) with work.acc := s.work.acc <<< s.work.free.toNat, stage := .trailer }) ?_ ?_ h.code_len ?_))
        · exact (outByte_carries s _).trans ⟨rfl, rfl, rfl, rfl, rfl, rfl, id, rfl⟩
        · show s.phase.allows _; rw [hp]; exact hop
        · simp only [PositionOk, State.outByte_phase, hp]
          exact ⟨by show s.work.free.toNat ≤ 7; omega, by show 1025 ≤ (s.outCnt + 1).toNat; omega, by show 8 * (s.outCnt + 1).toNat ≤ 8200 + 255 * s.inLen.toNat; omega⟩
  | trailer => exact finishTrailer_fine h hp
  | _ => simp only [PositionOk, hp, hs] at hpos

end Sys2Proof.Machine
end

