-- ==== Sys2Proof/Laws/InvariantUnpack.lean ====
section
/-!
SUPPORT. The invariant through RDTRAILER, UNPACK and ENDCHECK.
-/
namespace Sys2Proof.Machine

variable {s t : State}

/-! ### RDTRAILER -/

theorem execRdtrailer_fine (h : Inv s) (hp : s.phase = .rdtrailer) : Fine (execRdtrailer s) := by
  have hb : s.phase ≠ .idle := by simp [hp]
  have hop : s.op = .decomp := by have := h.op; rw [hp] at this; exact this
  have hlen := h.len_low hb hop
  have hpos := h.position
  simp only [Config.minStream] at hlen
  unfold execRdtrailer
  cases hs : s.stage with
  | entry =>
    simp only [PositionOk, hp, hs] at hpos
    obtain ⟨h0, ht⟩ := hpos
    have ha : (s.inLen - 1).toNat < s.inLen.toNat := by
      rw [BitVec.toNat_sub]; simp; omega
    show Fine (readTrailer s)
    unfold readTrailer
    refine fine_inByte h ha ?_
    simp only
    split
    · exact .of (h.raised (t := { s with work.padreg := s.outside.inp.read (s.inLen - 1).toNat, work.dlen := dataLength s.inLen }) ⟨rfl, rfl, rfl, rfl, rfl, rfl, id, rfl⟩ h.code_len .pad)
    · next h7 =>
      split
      · exact .of (h.raised (t := { s with work.padreg := s.outside.inp.read (s.inLen - 1).toNat, work.dlen := dataLength s.inLen }) ⟨rfl, rfl, rfl, rfl, rfl, rfl, id, rfl⟩ h.code_len .pad)
      · next hz =>
        refine .of (h.run hb ⟨rfl, rfl, rfl, rfl, rfl, rfl, id, rfl⟩ (by simp [Phase.allows, hop]) h.code_len ?_)
        refine ⟨h0, ⟨ht.root, ht.children⟩, ⟨by show (s.outside.inp.read (s.inLen - 1).toNat).toNat ≤ 7; omega, rfl, ?_⟩⟩
        intro hd
        by_contra hne
        exact hz ⟨hd, hne⟩
  | _ => simp only [PositionOk, hp, hs] at hpos

/-! ### UNPACK -/

theorem TrailerOk.of_eq {n : Word} {w w' : Work} (h : TrailerOk n w) (h1 : w'.padreg = w.padreg) (h2 : w'.dlen = w.dlen) :
    TrailerOk n w' := ⟨by rw [h1]; exact h.pad, by rw [h2]; exact h.dlen, by rw [h1, h2]; exact h.empty⟩

theorem TreeOk.of_eq {w w' : Work} {t : Tables} (h : TreeOk w t) (h1 : w'.root = w.root) : TreeOk w' t :=
  ⟨by rw [h1]; exact h.root, h.children⟩

theorem unpackNextByte_inv (h : Inv s) (hp : s.phase = .unpack) (hc : Carries s t) (htp : t.phase = .unpack) (hcode : CodeLen t)
    (ht : TreeOk t.work t.tab) (htr : TrailerOk t.inLen t.work) (hw : WalkOk t.outCnt t.work) :
    Inv (unpackNextByte t) := by
  have hb : s.phase ≠ .idle := by simp [hp]
  have hop : s.op = .decomp := by have := h.op; rw [hp] at this; exact this
  unfold unpackNextByte
  simp only
  split
  · next hl =>
    have hd := t.work.dlen.isLt
    have hs : (t.work.pos + 1).toNat = t.work.pos.toNat + 1 := toNat_succ (b := 2 ^ 32 - 1) (by omega) (by decide)
    refine h.run hb ⟨hc.done, hc.err, hc.errcode, hc.op, hc.inLen, hc.inp, hc.out, hc.rst⟩ (by simp [htp, Phase.allows, hop]) hcode ?_
    simp only [PositionOk, htp]
    exact ⟨ht.of_eq rfl, htr.of_eq rfl rfl, ⟨hw.cur_low, hw.cur_high, hw.bounded⟩, by rw [hs]; exact hl⟩
  · refine h.run hb ⟨hc.done, hc.err, hc.errcode, hc.op, hc.inLen, hc.inp, hc.out, hc.rst⟩ (by simp [Phase.allows, hop]) hcode ?_
    exact ⟨ht.of_eq rfl, htr.of_eq rfl rfl, ⟨hw.cur_low, hw.cur_high, hw.bounded⟩⟩

theorem unpackShift_inv (h : Inv s) (hp : s.phase = .unpack) (hc : Carries s t) (htp : t.phase = .unpack) (hcode : CodeLen t)
    (ht : TreeOk t.work t.tab) (htr : TrailerOk t.inLen t.work) (hw : WalkOk t.outCnt t.work) (hlt : t.work.pos.toNat < t.work.dlen.toNat)
    (h1 : 1 ≤ t.work.bcnt.toNat) (h8 : t.work.bcnt.toNat ≤ 8) : Inv (unpackShift t) := by
  have hb : s.phase ≠ .idle := by simp [hp]
  have hop : s.op = .decomp := by have := h.op; rw [hp] at this; exact this
  unfold unpackShift
  simp only
  split
  · exact unpackNextByte_inv h hp ⟨hc.done, hc.err, hc.errcode, hc.op, hc.inLen, hc.inp, hc.out, hc.rst⟩ htp hcode
      (ht.of_eq rfl) (htr.of_eq rfl rfl) ⟨hw.cur_low, hw.cur_high, hw.bounded⟩
  · next hne =>
    have hne' : t.work.bcnt.toNat ≠ 1 := fun e => hne (BitVec.eq_of_toNat_eq (by simpa using e))
    have hs : (t.work.bcnt - 1).toNat = t.work.bcnt.toNat - 1 := by rw [BitVec.toNat_sub]; simp; omega
    refine h.run hb ⟨hc.done, hc.err, hc.errcode, hc.op, hc.inLen, hc.inp, hc.out, hc.rst⟩ (by simp [htp, Phase.allows, hop]) hcode ?_
    simp only [PositionOk, htp]
    exact ⟨ht.of_eq rfl, htr.of_eq rfl rfl, ⟨hw.cur_low, hw.cur_high, hw.bounded⟩, hlt, by rw [hs]; omega, by rw [hs]; omega⟩

theorem bitsToWalk_range {pos dlen : Word} {p : Byte} (h : p.toNat ≤ 7) :
    1 ≤ (bitsToWalk pos dlen p).toNat ∧ (bitsToWalk pos dlen p).toNat ≤ 8 := by
  unfold bitsToWalk
  split
  · rw [BitVec.toNat_sub, BitVec.toNat_setWidth]; simp; omega
  · simp

theorem walkBit_fine (h : Inv s) (hp : s.phase = .unpack) (ht : TreeOk s.work s.tab) (htr : TrailerOk s.inLen s.work) (hw : WalkOk s.outCnt s.work)
    (hlt : s.work.pos.toNat < s.work.dlen.toNat) (h1 : 1 ≤ s.work.bcnt.toNat) (h8 : s.work.bcnt.toNat ≤ 8) : Fine (walkBit s) := by
  have hb : s.phase ≠ .idle := by simp [hp]
  have hcl := hw.cur_low
  have hch := hw.cur_high
  obtain ⟨nd, hnd⟩ := Arena.node?_eq_some (a := s.tab.node) (n := s.work.cur) (by omega)
  have hc : Arena.children? s.tab.node s.work.cur = some (nd.l, nd.r) := Arena.children?_eq_some.2 ⟨hcl, nd, hnd, rfl⟩
  have hlow := ht.children _ _ (by omega) hc
  unfold walkBit
  rw [hc]
  simp only
  have hn : (childOf (nd.l, nd.r) s.work.byte.msb).toNat < s.work.cur.toNat := by
    unfold childOf; split
    · exact hlow.2
    · exact hlow.1
  split
  · next hleaf =>
    unfold leaf
    split
    · exact .of (h.raised (t := { s with work.cur := childOf (nd.l, nd.r) s.work.byte.msb }) ⟨rfl, rfl, rfl, rfl, rfl, rfl, id, rfl⟩ h.code_len .excess)
    · next hne =>
      have hne' : s.outCnt.toNat ≠ s.work.sum.toNat := fun e => hne (BitVec.eq_of_toNat_eq e)
      have hoc := hw.bounded
      have hsum := s.work.sum.isLt
      have ho : (s.outCnt + 1).toNat = s.outCnt.toNat + 1 := toNat_succ (b := 2 ^ 40 - 1) (by omega) (by decide)
      refine fine_whenAccepted h (.of (unpackShift_inv h hp ?_ hp h.code_len (ht.of_eq rfl) (htr.of_eq rfl rfl) ?_ hlt h1 h8))
      · exact (outByte_carries s _).trans ⟨rfl, rfl, rfl, rfl, rfl, rfl, id, rfl⟩
      · refine ⟨?_, ?_, ?_⟩
        · show 256 ≤ s.work.root.toNat
          rw [ht.root]; decide
        · show s.work.root.toNat ≤ 510
          rw [ht.root]; decide
        · show (s.outCnt + 1).toNat ≤ s.work.sum.toNat
          omega
  · next hint =>
    refine .of (unpackShift_inv (t := { s with work.cur := childOf (nd.l, nd.r) s.work.byte.msb }) h hp ⟨rfl, rfl, rfl, rfl, rfl, rfl, id, rfl⟩ hp h.code_len (ht.of_eq rfl) (htr.of_eq rfl rfl) ?_ hlt h1 h8)
    exact ⟨by simpa using hint, by show (childOf (nd.l, nd.r) s.work.byte.msb).toNat ≤ 510; omega, hw.bounded⟩

theorem dataLength_toNat {n : Word} (h : 1025 ≤ n.toNat) : (dataLength n).toNat = n.toNat - 1025 := by
  unfold dataLength; rw [BitVec.toNat_sub]; simp; omega

theorem execUnpack_fine (h : Inv s) (hp : s.phase = .unpack) : Fine (execUnpack s) := by
  have hb : s.phase ≠ .idle := by simp [hp]
  have hop : s.op = .decomp := by have := h.op; rw [hp] at this; exact this
  have hlen := h.len_low hb hop
  have hpos := h.position
  simp only [Config.minStream] at hlen
  have hdl := dataLength_toNat hlen
  unfold execUnpack
  cases hs : s.stage with
  | entry =>
    simp only [PositionOk, hp, hs] at hpos
    obtain ⟨h0, ht, htr⟩ := hpos
    show Fine (.next (unpackStart s))
    have hw : ∀ w : Work, w.cur = s.work.root → WalkOk s.outCnt w := fun w hc =>
      ⟨by rw [hc, ht.root]; decide, by rw [hc, ht.root]; decide, by rw [h0]; simp⟩
    refine .of ?_
    unfold unpackStart
    simp only
    split
    · refine h.run hb ⟨rfl, rfl, rfl, rfl, rfl, rfl, id, rfl⟩ (by simp [Phase.allows, hop]) h.code_len ?_
      exact ⟨ht.of_eq rfl, htr.of_eq rfl rfl, hw _ rfl⟩
    · next hz =>
      refine h.run hb ⟨rfl, rfl, rfl, rfl, rfl, rfl, id, rfl⟩ (by rw [hp]; exact hop) h.code_len ?_
      simp only [PositionOk, hp]
      have : s.work.dlen.toNat ≠ 0 := fun e => hz (BitVec.eq_of_toNat_eq (by simpa using e))
      exact ⟨ht.of_eq rfl, htr.of_eq rfl rfl, hw _ rfl, by simp; omega⟩
  | fetch =>
    simp only [PositionOk, hp, hs] at hpos
    obtain ⟨ht, htr, hw, hlt⟩ := hpos
    show Fine (unpackFetch s)
    unfold unpackFetch
    have hd := htr.dlen
    refine fine_inByte h (by show 1024 + s.work.pos.toNat < _; rw [hd] at hlt; omega) ?_
    simp only
    have hr := bitsToWalk_range (pos := s.work.pos) (dlen := s.work.dlen) htr.pad
    split
    · next hz => rw [hz] at hr; simp at hr
    · refine .of (h.run hb ⟨rfl, rfl, rfl, rfl, rfl, rfl, id, rfl⟩ (by rw [hp]; exact hop) h.code_len ?_)
      simp only [PositionOk, hp]
      exact ⟨ht.of_eq rfl, htr.of_eq rfl rfl, ⟨hw.cur_low, hw.cur_high, hw.bounded⟩, hlt, hr.1, hr.2⟩
  | walk =>
    simp only [PositionOk, hp, hs] at hpos
    obtain ⟨ht, htr, hw, hlt, h1, h8⟩ := hpos
    exact walkBit_fine h hp ht htr hw hlt h1 h8
  | _ => simp only [PositionOk, hp, hs] at hpos

theorem execEndcheck_fine (h : Inv s) (hp : s.phase = .endcheck) : Fine (execEndcheck s) := by
  have hb : s.phase ≠ .idle := by simp [hp]
  have hpos := h.position
  unfold execEndcheck
  cases hs : s.stage with
  | entry =>
    show Fine (.next (endCheck s))
    refine .of ?_
    unfold endCheck
    split
    · exact h.raised (.refl s) h.code_len .trunc
    · split
      · exact h.raised (.refl s) h.code_len .count
      · exact h.completed hb (.refl s) h.code_len
  | _ => simp only [PositionOk, hp, hs] at hpos

end Sys2Proof.Machine
end

