-- ==== Sys2Proof/Laws/PerInstr.lean ====
section
/-!
SUPPORT. Statements about every instruction as syntax, one lemma per constructor. `Spelled`: the opcode table's number of
a well-formed instruction, in its format's width, spells the code word the encoder gives and is read back by the decoder.
-/
namespace Sys2Proof.Laws

/-- The width the opcode table gives a code word, in whole bytes: `CMD` 32 bits, `PHASE` 4 bits. -/
def tableBits : CodeWord → Nat
  | .cmd _ => 32
  | .phase _ => 8

/-- The code word as a number, bit 0 the least significant. -/
def tableNumber : CodeWord → Nat
  | .cmd w => w.toNat
  | .phase c => c.toNat

namespace Spelled

/-- The table's number of `i` spells `encode i`, and decodes to `i`. -/
def Statement (i : Instr) : Prop :=
  WellFormed i →
    tableWord (tableBits (encode i)) (tableNumber (encode i)) = some (encode i) ∧
    decodeTableWord (tableBits (encode i)) (tableNumber (encode i)) = some i

theorem nop : Statement .nop := fun _ => by decide
theorem compress : Statement .compress := fun _ => by decide
theorem decompress : Statement .decompress := fun _ => by decide
theorem clear : Statement .clear := fun _ => by decide

theorem reservedCmd (opcode : Word) : Statement (.reservedCmd opcode) := fun h => by
  have h4 : 4 ≤ opcode.toNat := of_decide_eq_true h
  have hw : tableWord 32 opcode.toNat = some (.cmd opcode) := by
    simp [tableWord, opcode.isLt]
  have hd : decodeCmd opcode = .reservedCmd opcode := by
    unfold decodeCmd
    rw [if_neg (by rintro rfl; exact absurd h4 (by decide)), if_neg (by rintro rfl; exact absurd h4 (by decide)),
      if_neg (by rintro rfl; exact absurd h4 (by decide)), if_neg (by rintro rfl; exact absurd h4 (by decide))]
  refine ⟨hw, ?_⟩
  show decodeTableWord 32 opcode.toNat = _
  simp only [decodeTableWord, hw, decode, hd]

theorem idle : Statement .idle := fun _ => by decide
theorem count : Statement .count := fun _ => by decide
theorem loadhdr : Statement .loadhdr := fun _ => by decide
theorem build : Statement .build := fun _ => by decide
theorem emithdr : Statement .emithdr := fun _ => by decide
theorem codegen : Statement .codegen := fun _ => by decide
theorem pack : Statement .pack := fun _ => by decide
theorem finish : Statement .finish := fun _ => by decide
theorem rdtrailer : Statement .rdtrailer := fun _ => by decide
theorem unpack : Statement .unpack := fun _ => by decide
theorem endcheck : Statement .endcheck := fun _ => by decide

end Spelled
end Sys2Proof.Laws
end

