-- ==== Sys2Proof/Laws/Run.lean ====
section
/-!
SUPPORT. Composing runs.
-/
namespace Sys2Proof.Machine

variable {s t u : State}

@[simp] theorem runFor_zero (s : State) : runFor 0 s = .next s := rfl

/-- A run by its first step. -/
theorem runFor_step (k : Nat) (s : State) : runFor (k + 1) s =
    match step s with
    | .next t => runFor k t
    | .fault r => .fault r
    | .refused r => .refused r := by
  have e := Host.Core.run.eq_2 core s k
  cases h : step s with
  | next t => rw [show core.step s = .next t from h] at e; exact e
  | fault r => rw [show core.step s = .fault r from h] at e; exact e
  | refused r => rw [show core.step s = .refused r from h] at e; exact e

theorem runFor_succ (k : Nat) (h : step s = .next t) : runFor (k + 1) s = runFor k t := by rw [runFor_step, h]

/-- A run after a run. -/
theorem runFor_add {j k : Nat} (h1 : runFor j s = .next t) (h2 : runFor k t = .next u) : runFor (j + k) s = .next u := by
  induction j generalizing s with
  | zero => cases h1; simpa using h2
  | succ j ih =>
    cases hs : step s with
    | next s' =>
      rw [runFor_succ j hs] at h1
      rw [Nat.succ_add, runFor_succ _ hs]
      exact ih h1
    | fault r => rw [runFor_step, hs] at h1; cases h1
    | refused r => rw [runFor_step, hs] at h1; cases h1

theorem Leads.refl (s : State) : Leads s s := ⟨0, rfl⟩

theorem Leads.step (h : Machine.step s = .next t) : Leads s t := ⟨1, by rw [runFor_succ 0 h]; rfl⟩

theorem Leads.trans (h1 : Leads s t) (h2 : Leads t u) : Leads s u := by
  obtain ⟨j, hj⟩ := h1
  obtain ⟨k, hk⟩ := h2
  exact ⟨j + k, runFor_add hj hk⟩

/-- The premises of an undisturbed run speak of the ports only. -/
theorem Undisturbed.of_outside (h : Undisturbed s) (e : t.outside = { s.outside with out := t.outside.out }) :
    Undisturbed t := by
  obtain ⟨h1, h2, h3, h4⟩ := h
  constructor <;> rw [e]
  exacts [h1, h2, h3, h4]

end Sys2Proof.Machine
end

