-- ==== Sys2Proof/Laws/Watch.lean ====
section
/-!
SUPPORT. A host that only watches: the sequencer is blind to the host's moves still to come and to what its reads
returned, and what one move of such a host can do.
-/
namespace Sys2Proof.Machine

/-- The state with what the host alone sees and drives replaced: the moves still to come, the values its reads returned,
and `rst`. -/
def State.withHost (script : List HostMove) (reads : List Word) (rst : Bool) (s : State) : State :=
  { s with outside.script := script, outside.reads := reads, outside.rst := rst }

/-- An outcome with its next state changed. -/
def Res.mapNext (f : State → State) : Res → Res
  | .next t => .next (f t)
  | .fault r => .fault r
  | .refused r => .refused r

variable {script : List HostMove} {reads : List Word} {rst : Bool}

/-- The outcome with the host's data replaced. -/
abbrev Res.withHost (script : List HostMove) (reads : List Word) (rst : Bool) : Res → Res :=
  Res.mapNext (State.withHost script reads rst)

theorem Res.withHost_ite (c : Prop) [Decidable c] (a b : Res) :
    Res.withHost script reads rst (if c then a else b) =
      if c then Res.withHost script reads rst a else Res.withHost script reads rst b := apply_ite _ c a b

theorem State.withHost_ite (c : Prop) [Decidable c] (a b : State) :
    State.withHost script reads rst (if c then a else b) =
      if c then State.withHost script reads rst a else State.withHost script reads rst b := apply_ite _ c a b

@[simp] theorem State.withHost_tab (s : State) : (s.withHost script reads rst).tab = s.tab := rfl
@[simp] theorem State.withHost_work (s : State) : (s.withHost script reads rst).work = s.work := rfl

theorem inByte_withHost (s : State) (a : Nat) {k k' : Byte → Res} (h : ∀ b, k' b = Res.withHost script reads rst (k b)) :
    inByte (s.withHost script reads rst) a k' = Res.withHost script reads rst (inByte s a k) := by
  unfold inByte
  rw [Res.withHost_ite, Res.withHost_ite, h]
  rfl

theorem whenAccepted_withHost (s : State) {k k' : Res} (h : k' = Res.withHost script reads rst k) :
    whenAccepted (s.withHost script reads rst) k' = Res.withHost script reads rst (whenAccepted s k) := by
  unfold whenAccepted
  rw [Res.withHost_ite, h]
  rfl

theorem accepted_withHost (s : State) {k k' : Res} (h : k' = Res.withHost script reads s.outside.rst k) :
    accepted (s.withHost script reads s.outside.rst) k' = Res.withHost script reads s.outside.rst (accepted s k) := by
  unfold accepted
  rw [Res.withHost_ite, h]
  rfl

variable (script reads rst)

theorem execCount_withHost (s : State) :
    execCount (s.withHost script reads rst) = Res.withHost script reads rst (execCount s) := by
  have hc : ∀ v, clearEntry v (s.withHost script reads rst) = (clearEntry v s).withHost script reads rst := fun v => by
    simp only [clearEntry, State.withHost_ite]; rfl
  unfold execCount
  cases hs : s.stage <;> simp only [show (s.withHost script reads rst).stage = _ from hs, hc] <;> try rfl
  exact inByte_withHost s _ fun b => by simp only [Res.withHost_ite]; rfl

theorem execEmithdr_withHost (s : State) :
    execEmithdr (s.withHost script reads rst) = Res.withHost script reads rst (execEmithdr s) := by
  have he : ∀ v k, emitCountByte v k (s.withHost script reads rst) = Res.withHost script reads rst (emitCountByte v k s) :=
    fun v k => whenAccepted_withHost s (by simp only [Res.withHost_ite]; rfl)
  unfold execEmithdr
  cases hs : s.stage <;> simp only [show (s.withHost script reads rst).stage = _ from hs, he] <;> rfl

theorem execLoadhdr_withHost (s : State) :
    execLoadhdr (s.withHost script reads rst) = Res.withHost script reads rst (execLoadhdr s) := by
  have he : ∀ b0 b1 b2 b3, loadEntry b0 b1 b2 b3 (s.withHost script reads rst) = (loadEntry b0 b1 b2 b3 s).withHost script reads rst :=
    fun b0 b1 b2 b3 => by simp only [loadEntry, checkSum, State.withHost_ite]; rfl
  unfold execLoadhdr
  cases hs : s.stage <;> simp only [show (s.withHost script reads rst).stage = _ from hs] <;> try rfl
  · exact inByte_withHost s _ fun _ => rfl
  · next got =>
    unfold loadByte
    split <;> try rfl
    all_goals exact inByte_withHost s _ fun _ => by first | rfl | rw [he]; rfl

theorem execBuild_withHost (s : State) :
    execBuild (s.withHost script reads rst) = Res.withHost script reads rst (execBuild s) := by
  have hi : ∀ v, initLeaf v (s.withHost script reads rst) = (initLeaf v s).withHost script reads rst := fun v => by
    simp only [initLeaf, State.withHost_ite]; rfl
  have hsc : ∀ ex best again found, (∀ b u, found b (State.withHost script reads rst u) = (found b u).withHost script reads rst) →
      scanSlot ex best again found (s.withHost script reads rst) = Res.withHost script reads rst (scanSlot ex best again found s) := by
    intro ex best again found hf
    unfold scanSlot
    rw [State.withHost_tab, State.withHost_work]
    cases selectVisit s.tab ex best (s.work.sidx.setWidth 8) with
    | none => rfl
    | some best' =>
      simp only [Res.withHost_ite]
      cases best' with
      | none => rfl
      | some b => simp only [Res.mapNext, ← hf]; rfl
  unfold execBuild
  cases hs : s.stage <;> simp only [show (s.withHost script reads rst).stage = _ from hs, hi] <;> try rfl
  · exact hsc _ _ _ _ fun _ _ => rfl
  · exact hsc _ _ _ _ fun _ _ => rfl
  · unfold mergeStep
    simp only [State.withHost_tab, State.withHost_work]
    split
    · simp only [Res.withHost_ite, Res.mapNext, nextMerge, State.withHost_ite]; rfl
    · rfl
  · simp only [takeRoot, Res.mapNext, State.withHost_ite]; rfl

theorem execCodegen_withHost (s : State) :
    execCodegen (s.withHost script reads rst) = Res.withHost script reads rst (execCodegen s) := by
  have ha : ∀ todo (u : State), afterVisit todo (u.withHost script reads rst) = (afterVisit todo u).withHost script reads rst :=
    fun todo u => by cases todo <;> rfl
  have hv : ∀ n p rest, visitNode n p rest (s.withHost script reads rst) = Res.withHost script reads rst (visitNode n p rest s) := by
    intro n p rest
    unfold visitNode
    rw [Res.withHost_ite, Res.withHost_ite, State.withHost_tab]
    cases s.tab.node.children? n with
    | none => simp only [Res.mapNext, ← ha]; rfl
    | some c => simp only [Res.mapNext, ← ha]; rfl
  unfold execCodegen
  cases hs : s.stage <;> simp only [show (s.withHost script reads rst).stage = _ from hs] <;> try rfl
  · exact hv _ _ _
  · next todo => cases todo with
    | nil => rfl
    | cons x rest => exact hv _ _ _

theorem execPack_withHost (s : State) :
    execPack (s.withHost script reads rst) = Res.withHost script reads rst (execPack s) := by
  have hn : ∀ u : State, packNextByte (u.withHost script reads rst) = (packNextByte u).withHost script reads rst := fun u => by
    simp only [packNextByte, State.withHost_ite]; rfl
  have hb : ∀ u : State, packNextBit (u.withHost script reads rst) = (packNextBit u).withHost script reads rst := fun u => by
    simp only [packNextBit, State.withHost_ite, ← hn]; rfl
  unfold execPack
  cases hs : s.stage <;> simp only [show (s.withHost script reads rst).stage = _ from hs] <;> try rfl
  · simp only [packStart, Res.mapNext, State.withHost_ite]; rfl
  · exact inByte_withHost s _ fun b => by simp only [Res.withHost_ite, Res.mapNext, ← hn]; rfl
  · unfold packPush
    rw [State.withHost_tab, State.withHost_work]
    cases (s.tab.code.entry s.work.byte).bits[s.work.cidx.toNat]? with
    | none => rfl
    | some bit =>
      simp only [pushBit, Res.withHost_ite]
      rw [whenAccepted_withHost s (k := .next (packNextBit (shiftAcc bit (flushAcc s)))) (by simp only [Res.mapNext, ← hb]; rfl)]
      simp only [Res.mapNext, ← hb]
      rfl

theorem execFinish_withHost (s : State) :
    execFinish (s.withHost script reads rst) = Res.withHost script reads rst (execFinish s) := by
  have ht : finishTrailer (s.withHost script reads rst) = Res.withHost script reads rst (finishTrailer s) :=
    whenAccepted_withHost s rfl
  unfold execFinish
  cases hs : s.stage <;> simp only [show (s.withHost script reads rst).stage = _ from hs] <;> try rfl
  · simp only [finishData, Res.withHost_ite]
    exact ite_congr rfl (fun _ => ht) fun _ =>
      ite_congr rfl (fun _ => whenAccepted_withHost s rfl) fun _ => whenAccepted_withHost s rfl
  · exact ht

theorem execRdtrailer_withHost (s : State) :
    execRdtrailer (s.withHost script reads rst) = Res.withHost script reads rst (execRdtrailer s) := by
  unfold execRdtrailer
  cases hs : s.stage <;> simp only [show (s.withHost script reads rst).stage = _ from hs] <;> try rfl
  exact inByte_withHost s _ fun b => by simp only [Res.withHost_ite]; rfl

theorem execUnpack_withHost (s : State) :
    execUnpack (s.withHost script reads rst) = Res.withHost script reads rst (execUnpack s) := by
  have hn : ∀ u : State, unpackNextByte (u.withHost script reads rst) = (unpackNextByte u).withHost script reads rst := fun u => by
    simp only [unpackNextByte, State.withHost_ite]; rfl
  have hsh : ∀ u : State, unpackShift (u.withHost script reads rst) = (unpackShift u).withHost script reads rst := fun u => by
    simp only [unpackShift, State.withHost_ite, ← hn]; rfl
  unfold execUnpack
  cases hs : s.stage <;> simp only [show (s.withHost script reads rst).stage = _ from hs] <;> try rfl
  · simp only [unpackStart, Res.mapNext, State.withHost_ite]; rfl
  · exact inByte_withHost s _ fun b => by simp only [Res.withHost_ite, Res.mapNext, ← hn]; rfl
  · unfold walkBit
    rw [State.withHost_tab, State.withHost_work]
    cases s.tab.node.children? s.work.cur with
    | none => rfl
    | some c =>
      simp only [Res.withHost_ite, leaf]
      rw [whenAccepted_withHost s (k := .next (unpackShift { s.outByte ((childOf c s.work.byte.msb).setWidth 8) with work.cur := s.work.root })) (by simp only [Res.mapNext, ← hsh]; rfl)]
      simp only [Res.mapNext, ← hsh]
      rfl

theorem execEndcheck_withHost (s : State) :
    execEndcheck (s.withHost script reads rst) = Res.withHost script reads rst (execEndcheck s) := by
  unfold execEndcheck
  cases hs : s.stage <;> simp only [show (s.withHost script reads rst).stage = _ from hs] <;> try rfl
  simp only [endCheck, Res.mapNext, State.withHost_ite]
  rfl

/-- The instruction a `PHASE` code selects is a phase of the sequencer. -/
def isPhase : Instr → Bool
  | .nop | .compress | .decompress | .clear | .reservedCmd _ => false
  | .idle | .count | .loadhdr | .build | .emithdr | .codegen | .pack | .finish | .rdtrailer | .unpack | .endcheck => true

/-- No phase looks at the host's own data or changes it, and a command looks at `rst` only. -/
theorem exec_withHost (i : Instr) (s : State) (h : isPhase i = true ∨ rst = s.outside.rst) :
    exec i (s.withHost script reads rst) = Res.withHost script reads rst (exec i s) := by
  cases i with
  | nop | clear | reservedCmd _ =>
    obtain h | rfl := h
    · cases h
    · exact accepted_withHost s rfl
  | compress | decompress =>
    obtain h | rfl := h
    · cases h
    · exact accepted_withHost s (by simp only [Res.withHost_ite]; rfl)
  | idle => rfl
  | count => exact execCount_withHost script reads rst s
  | loadhdr => exact execLoadhdr_withHost script reads rst s
  | build => exact execBuild_withHost script reads rst s
  | emithdr => exact execEmithdr_withHost script reads rst s
  | codegen => exact execCodegen_withHost script reads rst s
  | pack => exact execPack_withHost script reads rst s
  | finish => exact execFinish_withHost script reads rst s
  | rdtrailer => exact execRdtrailer_withHost script reads rst s
  | unpack => exact execUnpack_withHost script reads rst s
  | endcheck => exact execEndcheck_withHost script reads rst s

variable {s t : State}

/-- An instruction leaves the host's own data as they are. -/
theorem exec_keeps_host {i : Instr} (h : exec i s = .next t) :
    t = t.withHost s.outside.script s.outside.reads s.outside.rst := by
  have e := exec_withHost s.outside.script s.outside.reads s.outside.rst i s (.inr rfl)
  rw [show s.withHost _ _ _ = s from rfl, h] at e
  exact Host.Outcome.next.inj e

/-! ### A run under a watching host -/

/-- The state with the host's data taken away: no move to come, nothing read, `rst` released. -/
abbrev State.alone (s : State) : State := s.withHost [] [] false

theorem Watched.alone (h : Watched s) : Undisturbed s.alone := ⟨rfl, h.inAnswers, h.outAccepts, rfl⟩

/-- `PHASE` always selects a phase, and in IDLE the one that changes nothing. -/
theorem phase_selects (p : Phase) : ∃ i, decode (.phase p.code) = .ok i ∧ isPhase i = true ∧
    (p = .idle → i = .idle) := by
  cases p <;> exact ⟨_, rfl, rfl, by simp⟩

theorem sequencerTurn_eq {i : Instr} (hr : s.outside.rst = false) (hi : decode (.phase s.phase.code) = .ok i) :
    sequencerTurn s = .instr i s := by
  unfold sequencerTurn
  rw [hr, hi]
  rfl

/-- The steps a script of watching moves takes from an idle machine. -/
def scriptSteps : List HostMove → Nat
  | [] => 0
  | .run n :: rest => n + 1 + scriptSteps rest
  | _ :: rest => 1 + scriptSteps rest

/-- One step under a watching host is a move of the host that leaves the block alone, or the sequencer's own step with
the host's data beside it. -/
theorem watched_step (hw : ∀ m ∈ s.outside.script, m.watches = true) (hr : s.outside.rst = false) :
    ∃ script reads, (∀ m ∈ script, m.watches = true) ∧
      (step s = .next (s.withHost script reads false) ∧ scriptSteps script < scriptSteps s.outside.script ∨
       ∃ i, decode (.phase s.phase.code) = .ok i ∧ isPhase i = true ∧
        step s = Res.withHost script reads false (exec i s) ∧ scriptSteps script ≤ scriptSteps s.outside.script ∧
        (s.phase = .idle → s.outside.script ≠ [] → scriptSteps script < scriptSteps s.outside.script)) := by
  obtain ⟨i, hi, hph, -⟩ := phase_selects s.phase
  have turn : ∀ rest, sequencerTurn (s.withScript rest) = .instr i (s.withHost rest s.outside.reads false) := fun rest => by
    rw [sequencerTurn_eq (s := s.withScript rest) hr hi, State.withHost, ← hr]
    rfl
  have seq : ∀ rest, fetch s = sequencerTurn (s.withScript rest) →
      step s = Res.withHost rest s.outside.reads false (exec i s) := fun rest hf => by
    unfold step
    rw [hf, turn]
    exact exec_withHost rest _ false i s (.inl hph)
  have move : ∀ rest reads, fetch s = .moved (.next (s.withHost rest reads s.outside.rst)) →
      step s = .next (s.withHost rest reads false) := fun rest reads hf => by
    unfold step
    rw [hf, hr]
  cases hs : s.outside.script with
  | nil =>
    refine ⟨[], s.outside.reads, by simp, .inr ⟨i, hi, hph, seq [] ?_, Nat.le_refl _, fun _ h => absurd rfl h⟩⟩
    unfold fetch
    rw [hs]
    rw [show s.withScript [] = s by unfold State.withScript; rw [← hs]]
  | cons m rest =>
    rw [hs] at hw
    have hrest : ∀ m ∈ rest, m.watches = true := fun x hx => hw x (List.mem_cons_of_mem _ hx)
    have hm : m.watches = true := hw m List.mem_cons_self
    cases m with
    | regRead off n =>
      refine ⟨rest, s.regValue off :: s.outside.reads, hrest, .inl ⟨move _ _ ?_, by simp [scriptSteps]⟩⟩
      unfold fetch
      simp only [hs, show wholeAccess off n = true from hm, if_true]
      rfl
    | run n =>
      match n with
      | 0 =>
        refine ⟨rest, s.outside.reads, hrest, .inl ⟨move _ _ ?_, by simp [scriptSteps]⟩⟩
        unfold fetch
        simp only [hs]
        rfl
      | 1 =>
        refine ⟨rest, s.outside.reads, hrest, .inr ⟨i, hi, hph, seq rest ?_, by simp [scriptSteps], fun _ _ => by simp [scriptSteps]⟩⟩
        unfold fetch
        simp only [hs]
      | n + 2 =>
        refine ⟨.run (n + 1) :: rest, s.outside.reads, ?_, .inr ⟨i, hi, hph, seq _ ?_, by simp [scriptSteps], fun _ _ => by simp [scriptSteps]⟩⟩
        · simpa [HostMove.watches] using hrest
        · unfold fetch
          simp only [hs]
    | wait =>
      by_cases hb : s.phase = .idle
      · refine ⟨rest, s.outside.reads, hrest, .inl ⟨move _ _ ?_, by simp [scriptSteps]⟩⟩
        unfold fetch
        simp only [hs, State.busy, hb]
        rfl
      · refine ⟨.wait :: rest, s.outside.reads, hw, .inr ⟨i, hi, hph, seq _ ?_, Nat.le_refl _, fun h => absurd h hb⟩⟩
        unfold fetch
        simp only [hs, State.busy, ne_eq, hb, not_false_eq_true, decide_true, if_true]
        rw [show s.withScript (.wait :: rest) = s by unfold State.withScript; rw [← hs]]
    | regWrite | putIn | newSink | inPort | outPort | rst => cases hm

/-- A run that comes to IDLE when the host does nothing comes to the same block state, its script done, under a host that
watches. -/
theorem leads_watched (hw : ∀ m ∈ s.outside.script, m.watches = true) (hr : s.outside.rst = false)
    (h : Leads s.alone t) (hi : t.phase = .idle) : ∃ reads, Leads s (t.withHost [] reads false) := by
  obtain ⟨k, hk⟩ := h
  generalize hn : k + scriptSteps s.outside.script = n
  induction n using Nat.strongRecOn generalizing k s with
  | _ n ih =>
    obtain ⟨script, reads, hsc, hst⟩ := watched_step hw hr
    obtain ⟨hst, hlt⟩ | ⟨i, hd, hph, hst, hle, hidle⟩ := hst
    · obtain ⟨reads', hl⟩ := ih (k + scriptSteps script) (by omega) (s := s.withHost script reads false) hsc rfl k hk rfl
      exact ⟨reads', (Leads.step hst).trans hl⟩
    · cases k with
      | zero =>
        have ht : s.alone = t := Host.Outcome.next.inj hk
        have hp : s.phase = .idle := by rw [← ht] at hi; exact hi
        by_cases hs : s.outside.script = []
        · refine ⟨s.outside.reads, ?_⟩
          rw [← ht]
          have : s = State.withHost [] s.outside.reads false s.alone := by
            rw [← hs, ← hr]
            rfl
          rw [← this]
          exact Leads.refl s
        · obtain ⟨j, hj, -, hj0⟩ := phase_selects s.phase
          rw [hj] at hd
          cases hd
          rw [hj0 hp] at hst
          obtain ⟨reads', hl⟩ := ih (0 + scriptSteps script) (by have := hidle hp hs; omega)
            (s := s.withHost script reads false) hsc rfl 0 hk rfl
          exact ⟨reads', (Leads.step hst).trans hl⟩
      | succ k =>
        have ha : step s.alone = Res.withHost [] [] false (exec i s) := by
          have hf : fetch s.alone = .instr i s.alone := sequencerTurn_eq (s := s.alone) rfl hd
          unfold step
          rw [hf]
          exact exec_withHost [] [] false i s (.inl hph)
        rw [runFor_step, ha] at hk
        cases he : exec i s with
        | fault r => rw [he] at hk; cases hk
        | refused r => rw [he] at hk; cases hk
        | next u =>
          rw [he] at hk hst
          obtain ⟨reads', hl⟩ := ih (k + scriptSteps script) (by omega) (s := u.withHost script reads false) hsc rfl k hk rfl
          exact ⟨reads', (Leads.step hst).trans hl⟩

end Sys2Proof.Machine
end

