-- ==== Sys2Proof/Tests/Slice0.lean ====
section
/-!
SUPPORT. The model's own tests: ill-formed terms, words written out from 30_encoding.md, single steps with expected values
from spec/ (mostly 95_test_vectors.md, named V-...), and one witness per statement that has hypotheses.
-/
namespace Sys2Proof.Machine.Tests

/-! ### Well-formedness -/

theorem test_reserved_3_is_ill_formed : ¬ WellFormed (.reservedCmd 3) := by decide
theorem test_reserved_4_is_well_formed : WellFormed (.reservedCmd 4) := by decide

/-! ### Words written out (R62, R63, R69) -/

theorem test_decode_nop : decode (.cmd 0b00000000000000000000000000000000) = .ok .nop := by decide
theorem test_decode_compress : decode (.cmd 0b00000000000000000000000000000001) = .ok .compress := by decide
theorem test_decode_decompress : decode (.cmd 0b00000000000000000000000000000010) = .ok .decompress := by decide
theorem test_decode_clear : decode (.cmd 0b00000000000000000000000000000011) = .ok .clear := by decide
theorem test_decode_reserved : decode (.cmd 0b00000000000000000000000000000100) = .ok (.reservedCmd 4) := by decide
theorem test_decode_reserved_top : decode (.cmd 0xFFFFFFFF) = .ok (.reservedCmd 0xFFFFFFFF) := by decide
theorem test_decode_idle : decode (.phase 0b0000) = .ok .idle := by decide
theorem test_decode_count : decode (.phase 0b0001) = .ok .count := by decide
theorem test_decode_loadhdr : decode (.phase 0b0010) = .ok .loadhdr := by decide
theorem test_decode_build : decode (.phase 0b0011) = .ok .build := by decide
theorem test_decode_emithdr : decode (.phase 0b0100) = .ok .emithdr := by decide
theorem test_decode_codegen : decode (.phase 0b0101) = .ok .codegen := by decide
theorem test_decode_pack : decode (.phase 0b0110) = .ok .pack := by decide
theorem test_decode_finish : decode (.phase 0b0111) = .ok .finish := by decide
theorem test_decode_rdtrailer : decode (.phase 0b1000) = .ok .rdtrailer := by decide
theorem test_decode_unpack : decode (.phase 0b1001) = .ok .unpack := by decide
theorem test_decode_endcheck : decode (.phase 0b1010) = .ok .endcheck := by decide
theorem test_decode_phase_11_rejected : decode (.phase 0b1011) = .error (.unassignedPhase 11) := by decide
theorem test_decode_phase_15_rejected : decode (.phase 0b1111) = .error (.unassignedPhase 15) := by decide

/-! ### Single steps -/

/-- A field of the next state. -/
def seen {α : Type} (f : State → α) : Res → Option α
  | .next t => some (f t)
  | _ => none

/-- From reset, in phase `p` of operation `op`. -/
def at' (p : Phase) (op : OpKind) : State := { State.reset with phase := p, op := op }

/-- V-C5. -/
theorem test_nop_keeps_the_error :
    seen (fun t => (t.status, t.errcode)) (exec .nop (State.reset.raise .illcmd)) = some (4, 1) := by decide

/-- V-C11. -/
theorem test_compress_accepts_the_longest :
    seen (fun t => (t.status, t.phase)) (exec .compress { State.reset with inLen := 0x7FFFFFFF }) = some (1, .count) := by
  decide
/-- V-C7. -/
theorem test_compress_too_large :
    seen (fun t => (t.status, t.errcode)) (exec .compress { State.reset with inLen := 0x80000000 }) = some (4, 2) := by
  decide
/-- V-C8. -/
theorem test_decompress_too_large :
    seen (fun t => (t.status, t.errcode)) (exec .decompress { State.reset with inLen := 0x80000000 }) = some (4, 2) := by
  decide
/-- V-C9. -/
theorem test_decompress_short :
    seen (fun t => (t.status, t.errcode)) (exec .decompress { State.reset with inLen := 1024 }) = some (4, 0x10) := by
  decide
/-- V-C6. -/
theorem test_clear_after_error :
    seen (fun t => (t.status, t.errcode)) (exec .clear (State.reset.raise .illcmd)) = some (0, 0) := by decide
/-- V-C12. -/
theorem test_clear_dropped_while_busy :
    seen (fun t => (t.status, t.op)) (exec .clear (at' .count .comp)) = some (1, .comp) := by decide
/-- V-C13. -/
theorem test_reserved_keeps_the_counter :
    seen (fun t => (t.status, t.errcode, t.outCnt)) (exec (.reservedCmd 4) { State.reset with done := true, outCnt := 1025 }) =
      some (4, 1, 1025) := by decide
/-- R13. -/
theorem test_idle_does_nothing : seen State.phase (exec .idle State.reset) = some .idle := by decide

/-- V-F3: the stale entry is cleared. -/
theorem test_count_clears :
    seen (fun t => (t.tab.freq.entry 7, t.work.vidx)) (exec .count { at' .count .comp with
      stage := .clear, work.vidx := 7, tab.freq := State.reset.tab.freq.withEntry 7 9 }) = some (0, 8) := by decide
/-- The last byte of V-F1. -/
theorem test_count_tallies_the_last_byte :
    seen (fun t => (t.tab.freq.entry 2, t.work.byte, t.phase)) (exec .count { at' .count .comp with
      stage := .tally, inLen := 4, work.pos := 3, tab.freq := State.reset.tab.freq.withEntry 2 1
      outside.inp := [(1, 1), (2, 2), (3, 2)] }) = some (2, 2, .build) := by decide
/-- V-F5: the second byte of `FREQ[1] = 0x12345678`. -/
theorem test_emithdr_is_little_endian :
    seen (fun t => (t.outside.out, t.outCnt)) (exec .emithdr { at' .emithdr .comp with
      stage := .emit 1, work.vidx := 1, outCnt := 5, tab.freq := State.reset.tab.freq.withEntry 1 0x12345678 }) =
      some ([(5, 0x56)], 6) := by decide
/-- V-F6. -/
theorem test_loadhdr_assembles :
    seen (fun t => (t.tab.freq.entry 1, t.work.sum)) (exec .loadhdr { at' .loadhdr .decomp with
      stage := .load [0x78, 0x56, 0x34], inLen := 1025, work.vidx := 1, work.pos := 4
      outside.inp := [(7, 0x12)] }) = some (305419896, 305419896) := by decide
/-- V-F8: the last entry brings the sum to 2147483648. -/
theorem test_loadhdr_sum_too_large :
    seen (fun t => (t.status, t.errcode, t.work.sum)) (exec .loadhdr { at' .loadhdr .decomp with
      stage := .load [1, 0, 0], inLen := 1025, work.vidx := 255, work.pos := 1020, work.sum := 0x7FFFFFFF }) =
      some (4, 0x11, 2147483648) := by decide

/-- `select(none)` before the last merge of R115's example: slot 1 holds node 509 and slot 2 leaf 2, both of weight 2. -/
def tieState : State := { at' .build .comp with
  stage := .scanA (some 1), work.sidx := 2, work.live := 2, work.next := 510
  tab.slot := (State.reset.tab.slot.withEntry 1 { v := true, n := 509 }).withEntry 2 { v := true, n := 2 }
  tab.node := ((State.reset.tab.node.withLeafWeight 2 2).withNode 509 { w := 2, l := 1, r := 508 }) }

/-- R115: the slot order breaks the tie, so slot 1 stays the best. -/
theorem test_build_tie : seen State.stage (exec .build tieState) = some (.scanA (some 1)) := by decide +kernel
/-- V-B2: the last merge makes `510 = (1, 2; 4, 509, 2)`. -/
theorem test_build_merge :
    seen (fun t => (t.tab.node.node? 510, (t.tab.slot.entry 1).n, (t.tab.slot.entry 2).v, t.stage))
      (exec .build { tieState with stage := .merge, work.sela := 1, work.selb := 2 }) =
      some (some { w := 4, l := 509, r := 2 }, 510, false, .root) := by decide +kernel

/-- V-G2: the walk to leaf 1 is `00`. -/
theorem test_codegen_leaf :
    seen (fun t => (t.tab.code.entry 1, t.phase)) (exec .codegen { at' .codegen .comp with
      stage := .visit [(1, [false, false])] }) = some ({ len := 2, bits := [false, false] }, .pack) := by decide
/-- V-B2: node 509 is `(L = 1, R = 508)`; 0 is the left child. -/
theorem test_codegen_node :
    seen State.stage (exec .codegen { tieState with phase := .codegen, stage := .visit [(509, [false])] }) =
      some (.visit [(1, [false, false]), (508, [false, true])]) := by decide +kernel

/-- The last PUSHBIT of V-E1. -/
theorem test_pack_pushbit :
    seen (fun t => (t.work.acc, t.work.free, t.outCnt)) (exec .pack { at' .pack .comp with
      stage := .push, inLen := 3, outCnt := 1024, work.acc := 0x06, work.free := 5, work.pos := 2, work.byte := 1
      work.cidx := 1, tab.code := State.reset.tab.code.withEntry 1 { len := 2, bits := [false, true] } }) =
      some (0x0D, 4, 1024) := by decide
/-- The ninth push of V-E4: the lazy flush. -/
theorem test_pack_flush :
    seen (fun t => (t.work.acc, t.work.free, t.outCnt, t.outside.out)) (exec .pack { at' .pack .comp with
      stage := .push, inLen := 9, outCnt := 1024, work.acc := 0xFF, work.free := 0, work.pos := 8, work.byte := 0xFF
      work.cidx := 0, tab.code := State.reset.tab.code.withEntry 0xFF { len := 1, bits := [true] } }) =
      some (0xFF, 7, 1025, [(1024, 0xFF)]) := by decide
/-- V-E1: data byte `d0`. -/
theorem test_finish_partial :
    seen (fun t => (t.outside.out, t.stage)) (exec .finish { at' .finish .comp with
      outCnt := 1024, work.acc := 0x0D, work.free := 4 }) = some ([(1024, 0xD0)], .trailer) := by decide
/-- V-E1: trailer `04`, then `done`. -/
theorem test_finish_trailer :
    seen (fun t => (t.outside.out, t.status)) (exec .finish { at' .finish .comp with
      stage := .trailer, outCnt := 1025, work.acc := 0xD0, work.free := 4 }) = some ([(1025, 0x04)], 2) := by decide

/-- V-D7. -/
theorem test_rdtrailer_padding_without_data :
    seen (fun t => (t.status, t.errcode)) (exec .rdtrailer { at' .rdtrailer .decomp with
      inLen := 1025, outside.inp := [(1024, 1)] }) = some (4, 0x12) := by decide
/-- R161's example: `IN_LEN = 1026`, last byte `07`. -/
theorem test_rdtrailer_accepts :
    seen (fun t => (t.work.padreg, t.work.dlen, t.phase)) (exec .rdtrailer { at' .rdtrailer .decomp with
      inLen := 1026, outside.inp := [(1025, 7)] }) = some (7, 1, .unpack) := by decide

/-- UNPACK at a WALK whose right child is leaf 0 (R165's example). -/
def walkState : State := { at' .unpack .decomp with
  stage := .walk, inLen := 1026, work.dlen := 1, work.root := 510, work.cur := 510, work.bcnt := 1, work.byte := 0x80
  work.sum := 1, tab.node := State.reset.tab.node.withNode 510 { w := 3, l := 509, r := 0 } }

/-- R165's example: byte `00` goes out and `CUR` returns to 510. -/
theorem test_unpack_leaf :
    seen (fun t => (t.outCnt, t.work.cur, t.phase)) (exec .unpack walkState) = some (1, 510, .endcheck) := by decide +kernel
/-- V-D9: a second leaf with `OUT_CNT = SUM`. -/
theorem test_unpack_excess :
    seen (fun t => (t.status, t.errcode, t.outCnt)) (exec .unpack { walkState with outCnt := 1 }) = some (4, 0x13, 1) := by
  decide +kernel
/-- V-D8. -/
theorem test_endcheck_trunc :
    seen (fun t => (t.status, t.errcode)) (exec .endcheck { at' .endcheck .decomp with
      work.cur := 509, work.root := 510, work.sum := 1, outCnt := 1 }) = some (4, 0x14) := by decide
/-- V-D10. -/
theorem test_endcheck_count :
    seen (fun t => (t.status, t.errcode)) (exec .endcheck { at' .endcheck .decomp with
      work.cur := 510, work.root := 510, work.sum := 2, outCnt := 1 }) = some (4, 0x15) := by decide

/-- V-C1 and V-C15: an unmapped offset reads 0, `CMD` reads 0. -/
theorem test_register_reads :
    (State.reset.regValue 0x00, State.reset.regValue 0x04, State.reset.regValue 0x18) = (0, 0, 0) := by decide
/-- V-C17. -/
theorem test_rst_while_busy :
    seen (fun t => (t.status, t.errcode, t.inLen, t.outCnt)) (step { at' .pack .comp with
      inLen := 9, outCnt := 1025, outside.script := [.rst true] }) = some (0, 0, 0, 0) := by decide

/-- R118 with V-B2's shape: the reference functions on a tree of two leaves (R131's `path`). -/
theorem test_path : (Tree.node (.leaf 3) (.node (.leaf 5) (.leaf 9))).path 9 = some [true, true] := by decide
/-- V-E1 by `pack`'s bits: `1,1,0,1` is `d0` with trailer `04`. -/
theorem test_packBits : packBits [true, true, false, true] = [0xD0, 0x04] := by decide
/-- V-E12. -/
theorem test_padding : [0, 1, 7, 8, 9, 16, 26, 3072].map padding = [0, 7, 1, 0, 7, 0, 6, 0] := by decide

/-! ### Witnesses: states that meet the hypotheses of the statements -/

theorem codeLen_reset : ∀ v, (Table.entry Tables.reset.code v).len.toNat = (Table.entry Tables.reset.code v).bits.length := by
  intro v; simp [Tables.reset, Table.entry]

theorem childrenBelow_reset (k : Nat) : ChildrenBelow Tables.reset.node k := by
  intro n c hn hc
  obtain ⟨h256, nd, hnd, rfl⟩ := Arena.children?_eq_some.1 hc
  have h : nd = { w := 0, l := 0, r := 0 } := by
    simp only [Arena.node?, Tables.reset, Vector.getElem?_replicate] at hnd
    split at hnd
    · exact (Option.some.inj hnd).symm
    · cases hnd
  subst h
  exact ⟨by simp; omega, by simp; omega⟩

/-- A running state with cleared flags and empty byte spaces. -/
theorem inv_running {s : State} (hi : s.outside.inp = []) (ho : s.outside.out = []) (hd : s.done = false) (he : s.err = false)
    (hc : s.errcode = 0) (hr : s.outside.rst = false) (hop : s.phase.allows s.op) (hh : s.inLen.toNat ≤ 2147483647)
    (hl : s.phase ≠ .idle → s.op = .decomp → 1025 ≤ s.inLen.toNat) (hcode : s.tab.code = Tables.reset.code)
    (hp : PositionOk s) : Inv s :=
  { inp_wf := hi ▸ Memory.wf_nil, out_wf := ho ▸ Memory.wf_nil, done_err := by simp [hd], no_err := fun _ => hc
    err_code := by simp [he], rst_idle := by simp [hr], busy_clear := fun _ => ⟨hd, he⟩, op := hop
    len_high := fun _ => hh, len_low := hl, code_len := hcode ▸ codeLen_reset, position := hp }

theorem undisturbed {s : State} (h : s.outside = Outside.start) : Undisturbed s := by
  constructor <;> rw [h] <;> rfl

/-- Two live slots, 0 and 1, holding leaves 0 and 1, before the last merge. -/
def twoLive : State := { at' .build .comp with
  work.live := 2, work.next := 510
  tab.slot := (Tables.reset.slot.withEntry 0 { v := true, n := 0 }).withEntry 1 { v := true, n := 1 } }

theorem twoLive_slots (i : Byte) :
    Table.entry twoLive.tab.slot i = if i = 1 then { v := true, n := 1 } else if i = 0 then { v := true, n := 0 }
      else { v := false, n := 0 } := by
  show Table.entry ((Table.withEntry Tables.reset.slot 0 _).withEntry 1 _) i = _
  rw [Table.entry_withEntry, Table.entry_withEntry]
  simp [Tables.reset, Table.entry]

theorem twoLive_build : BuildOk twoLive.work twoLive.tab where
  next_low := by decide
  live_low := by decide
  counts := by decide
  slots := by decide +kernel
  roots := fun i h => by
    rw [twoLive_slots] at h ⊢
    split
    · decide
    · split
      · decide
      · next h1 h0 => rw [if_neg h1, if_neg h0] at h; cases h
  children := childrenBelow_reset _

/-- OnlyCommandsLeaveIdle, PhaseOrder: an accepted COMPRESS. -/
def compressing : State := { State.reset with outside.script := [wrCmd 1], inLen := 1 }
theorem compressing_inv : Inv compressing :=
  inv_running rfl rfl rfl rfl rfl rfl trivial (by decide) (by simp [compressing, State.reset]) rfl trivial
theorem witness_leaves_idle : ∃ t, compressing.phase = .idle ∧ step compressing = .next t ∧ t.phase ≠ .idle :=
  ⟨_, rfl, rfl, by decide⟩
/-- The moves of a host that polls: `RD STATUS`, steps, `RD OUT_CNT_LO`, `WAIT`, `RD STATUS`. -/
def polls : List HostMove := [rd 0x04, .run 5, rd 0x10, .wait, rd 0x04]
theorem watched {s : State} (h : s.outside = { Outside.start with script := polls }) : Watched s := by
  constructor <;> rw [h]
  · exact fun m hm => (by decide : ∀ m ∈ polls, m.watches = true) m hm
  all_goals rfl
/-- CompressCompresses, with no move after the command and with polls. -/
theorem witness_compress : Inv compressing ∧ compressing.phase = .idle ∧ compressing.outside.script = wrCmd 1 :: [] ∧
    Watched (compressing.withScript []) ∧ compressing.inLen.toNat ≤ 2147483647 :=
  ⟨compressing_inv, rfl, rfl, ⟨by simp [State.withScript], rfl, rfl, rfl⟩, by decide⟩
theorem witness_compress_polled : Inv (compressing.withScript (wrCmd 1 :: polls)) ∧
    (compressing.withScript (wrCmd 1 :: polls)).phase = .idle ∧ Watched (compressing.withScript polls) :=
  ⟨inv_running rfl rfl rfl rfl rfl rfl trivial (by decide) (fun h => absurd rfl h) rfl trivial, rfl, watched rfl⟩

/-- DecompressDecompresses: `IN_LEN = 1025`. -/
def decompressing : State := { State.reset with outside.script := [wrCmd 2], inLen := 1025 }
theorem witness_decompress : Inv (decompressing.withScript (wrCmd 2 :: polls)) ∧
    (decompressing.withScript (wrCmd 2 :: polls)).phase = .idle ∧ Watched (decompressing.withScript polls) :=
  ⟨inv_running rfl rfl rfl rfl rfl rfl trivial (by decide) (fun h => absurd rfl h) rfl trivial, rfl, watched rfl⟩

/-- CountCounts, EveryOperationEnds: COUNT of one byte. -/
def counting : State := { at' .count .comp with inLen := 1 }
theorem witness_count : Inv counting ∧ Undisturbed counting ∧ counting.phase = .count ∧ counting.stage = .entry :=
  ⟨inv_running rfl rfl rfl rfl rfl rfl rfl (by decide) (by intro _ h; cases h) rfl rfl, undisturbed rfl, rfl, rfl⟩
/-- CompressNeverFails, with polls. -/
theorem witness_compress_never_fails : Inv (counting.withScript polls) ∧ (counting.withScript polls).phase ≠ .idle ∧
    (counting.withScript polls).op = .comp ∧ Watched (counting.withScript polls) :=
  ⟨inv_running rfl rfl rfl rfl rfl rfl rfl (by decide) (by intro _ h; cases h) rfl rfl, by decide, rfl, watched rfl⟩

/-- LoadhdrLoadsHeader, EveryOperationEnds: LOADHDR of the shortest stream. -/
def loading : State := { at' .loadhdr .decomp with inLen := 1025 }
theorem witness_loadhdr : Inv loading ∧ Undisturbed loading ∧ loading.phase = .loadhdr ∧ loading.stage = .entry :=
  ⟨inv_running rfl rfl rfl rfl rfl rfl rfl (by decide) (by intro _ _; decide) rfl rfl, undisturbed rfl, rfl, rfl⟩

/-- BuildWhole, BuildsTheTree, BuildDeterministic, CodesOfTheTable: BUILD of the all-zero table. -/
theorem witness_build : Inv (at' .build .comp) ∧ Undisturbed (at' .build .comp) ∧ (at' .build .comp).phase = .build ∧
    (at' .build .comp).stage = .entry ∧ (at' .build .comp).op = .comp ∧ countSum (at' .build .comp).counts ≤ 2147483647 := by
  refine ⟨inv_running rfl rfl rfl rfl rfl rfl (by intro h; cases h) (by decide) (by intro _ h; cases h) rfl rfl,
    undisturbed rfl, rfl, rfl, rfl, ?_⟩
  have h : ∀ v, (at' .build .comp).counts v = 0 := fun v => by simp [State.counts, at', State.reset, Tables.reset, Table.entry]
  simp [countSum, h]
/-- BuildDeterministic: the same table in a DECOMPRESS. -/
theorem witness_build_decompress : Inv { at' .build .decomp with inLen := 1025 } :=
  inv_running rfl rfl rfl rfl rfl rfl (by intro h; cases h) (by decide) (by intro _ _; decide) rfl rfl

/-- SelectsTheTwoLeast. -/
theorem witness_select : Inv { twoLive with stage := .scanA none } :=
  inv_running rfl rfl rfl rfl rfl rfl (by intro h; cases h) (by decide) (by intro _ h; cases h) rfl
    ⟨rfl, twoLive_build, by decide, by decide, by simp, by intro _ i hi; exact absurd hi (Nat.not_lt_zero _)⟩
/-- MergeStep. -/
theorem witness_merge : Inv { twoLive with stage := .merge, work.sela := 0, work.selb := 1 } :=
  inv_running rfl rfl rfl rfl rfl rfl (by intro h; cases h) (by decide) (by intro _ h; cases h) rfl
    ⟨rfl, ⟨twoLive_build.1, twoLive_build.2, twoLive_build.3, twoLive_build.4, twoLive_build.5, twoLive_build.6⟩, by decide,
      by decide, by decide, by decide⟩
/-- RootAndSuccessor. -/
def oneLive : State := { at' .build .comp with
  stage := .root, work.live := 1, work.next := 511, tab.slot := Tables.reset.slot.withEntry 0 { v := true, n := 510 } }
theorem witness_root : Inv oneLive :=
  inv_running rfl rfl rfl rfl rfl rfl (by intro h; cases h) (by decide) (by intro _ h; cases h) rfl
    ⟨rfl, { next_low := by decide, live_low := by decide, counts := by decide, slots := by decide +kernel
            roots := fun i h => by
              change (Table.entry (Table.withEntry Tables.reset.slot 0 _) i).v = true at h
              change (Table.entry (Table.withEntry Tables.reset.slot 0 _) i).n.toNat < _
              rw [Table.entry_withEntry] at h ⊢
              split
              · decide
              · next h0 =>
                rw [if_neg h0] at h
                simp [Tables.reset, Table.entry] at h
            children := childrenBelow_reset _ }, rfl⟩

/-- EmithdrWritesHeader. -/
def emitting : State := { at' .emithdr .comp with work.root := 510 }
theorem witness_emithdr : Inv emitting ∧ Undisturbed emitting ∧ emitting.phase = .emithdr ∧ emitting.stage = .entry :=
  ⟨inv_running rfl rfl rfl rfl rfl rfl rfl (by decide) (by intro _ h; cases h) rfl ⟨rfl, rfl, childrenBelow_reset _⟩,
    undisturbed rfl, rfl, rfl⟩

/-- PackAppends: one byte to pack. -/
def packing : State := { at' .pack .comp with outCnt := 1024, inLen := 1 }
theorem witness_pack : Inv packing ∧ Undisturbed packing ∧ packing.phase = .pack ∧ packing.stage = .entry :=
  ⟨inv_running rfl rfl rfl rfl rfl rfl rfl (by decide) (by intro _ h; cases h) rfl rfl, undisturbed rfl, rfl, rfl⟩

/-- UnpackUnwalks: `NODE[510] = (L = 0, R = 1)`, one data byte. -/
def unpacking : State := { at' .unpack .decomp with
  inLen := 1026, work.dlen := 1, work.root := 510, tab.node := Tables.reset.node.withNode 510 { w := 0, l := 0, r := 1 } }
theorem unpacking_children : ChildrenBelow unpacking.tab.node 511 :=
  (childrenBelow_reset 510).withNode (by decide) (by decide)
theorem witness_unpack : Inv unpacking ∧ Undisturbed unpacking ∧ unpacking.phase = .unpack ∧ unpacking.stage = .entry ∧
    ReadsAs unpacking.tab.node unpacking.work.root (.node (.leaf 0) (.leaf 1)) := by
  refine ⟨inv_running rfl rfl rfl rfl rfl rfl rfl (by decide) (by intro _ _; decide) rfl
    ⟨rfl, ⟨rfl, unpacking_children⟩, ⟨by decide, by decide, by decide⟩⟩, undisturbed rfl, rfl, rfl, (0, 1), ?_, rfl, rfl⟩
  refine Arena.children?_eq_some.2 ⟨by decide, { w := 0, l := 0, r := 1 }, ?_, rfl⟩
  show Arena.node? (Arena.withNode Tables.reset.node 510 { w := 0, l := 0, r := 1 }) 510 = _
  rw [Arena.node?_withNode, if_pos (by decide)]

/-- RoundTrip: the empty input. -/
theorem witness_round_trip : ([] : List Byte).length ≤ 2147483647 ∧ (compress []).length ≤ 2147483647 := by
  refine ⟨by decide, ?_⟩
  have h : (compress []).length = (hdr (freq [])).length + 1 := by
    simp [compress, pack, packBits, padding, bytesOfBits]
  have h3 : ∀ l : List Byte, (l.flatMap fun v => countBytes (freq [] v)).length = 4 * l.length := fun l => by
    induction l with
    | nil => rfl
    | cons x l ih => rw [List.flatMap_cons, List.length_append, ih, List.length_cons]; simp [countBytes]; omega
  have h2 : (hdr (freq [])).length = 1024 := by rw [hdr, h3]; simp [allBytes]
  omega

/-! ErrorTable: one raising step for each of the eight codes. -/

/-- A step that raises `c` from a state with the invariant. -/
def Raises (s : State) (c : Word) : Prop :=
  Inv s ∧ s.err = false ∧ seen (fun t => (t.err, t.errcode)) (step s) = some (true, c)

theorem witness_illcmd : Raises { State.reset with outside.script := [wrCmd 4] } 0x01 :=
  ⟨inv_running rfl rfl rfl rfl rfl rfl trivial (by decide) (fun h => absurd rfl h) rfl trivial, rfl, by decide⟩
theorem witness_toolarge : Raises { State.reset with outside.script := [wrCmd 1], inLen := 0x80000000 } 0x02 :=
  ⟨{ inp_wf := Memory.wf_nil, out_wf := Memory.wf_nil, done_err := by decide, no_err := fun _ => rfl
     err_code := fun h => by cases h
     rst_idle := fun _ => rfl, busy_clear := fun h => absurd rfl h, op := trivial, len_high := fun h => absurd rfl h
     len_low := fun h => absurd rfl h, code_len := codeLen_reset, position := trivial }, rfl, by decide⟩
theorem witness_short : Raises { State.reset with outside.script := [wrCmd 2], inLen := 1024 } 0x10 :=
  ⟨inv_running rfl rfl rfl rfl rfl rfl trivial (by decide) (fun h => absurd rfl h) rfl trivial, rfl, by decide⟩
theorem witness_sum : Raises { at' .loadhdr .decomp with
    stage := .load [0, 0, 0], inLen := 1025, work.vidx := 255, work.pos := 1020, work.sum := 0x80000000 } 0x11 :=
  ⟨inv_running rfl rfl rfl rfl rfl rfl rfl (by decide) (by intro _ _; decide) rfl
    ⟨rfl, by decide, by decide, fun _ => by decide⟩, rfl, by decide +kernel⟩
theorem witness_excess : Raises { unpacking with stage := .walk, work.cur := 510, work.bcnt := 1 } 0x13 :=
  ⟨inv_running rfl rfl rfl rfl rfl rfl rfl (by decide) (by intro _ _; decide) rfl
    ⟨⟨rfl, unpacking_children⟩, ⟨by decide, by decide, by decide⟩, ⟨by decide, by decide, by decide⟩, by decide, by decide,
      by decide⟩, rfl, by decide +kernel⟩
theorem witness_trunc : Raises { unpacking with phase := .endcheck, work.cur := 509 } 0x14 :=
  ⟨inv_running rfl rfl rfl rfl rfl rfl rfl (by decide) (by intro _ _; decide) rfl
    ⟨⟨rfl, unpacking_children⟩, ⟨by decide, by decide, by decide⟩, ⟨by decide, by decide, by decide⟩⟩, rfl,
    by decide +kernel⟩
theorem witness_count_short : Raises { unpacking with phase := .endcheck, work.cur := 510, work.sum := 1 } 0x15 :=
  ⟨inv_running rfl rfl rfl rfl rfl rfl rfl (by decide) (by intro _ _; decide) rfl
    ⟨⟨rfl, unpacking_children⟩, ⟨by decide, by decide, by decide⟩, ⟨by decide, by decide, by decide⟩⟩, rfl,
    by decide +kernel⟩
theorem witness_pad : Raises { at' .rdtrailer .decomp with
    inLen := 1025, work.root := 510, outside.inp := [(1024, 1)] } 0x12 := by
  refine ⟨?_, rfl, by decide +kernel⟩
  exact { inp_wf := by decide, out_wf := Memory.wf_nil, done_err := by decide, no_err := fun _ => rfl
          err_code := fun h => by cases h
          rst_idle := fun h => by cases h
          busy_clear := fun _ => ⟨rfl, rfl⟩, op := rfl, len_high := fun _ => by decide, len_low := fun _ _ => by decide
          code_len := codeLen_reset, position := ⟨rfl, rfl, childrenBelow_reset _⟩ }

/-! Statements about one step: the hypotheses of each clause, at the ends of its range. -/

/-- StepRunsDecoded. -/
theorem witness_step_runs : State.reset.outside.rst = false ∧ decode (.phase State.reset.phase.code) = .ok .idle ∧
    (State.reset.withScript [wrCmd 1]).outside.script = wrCmd 1 :: [] ∧ decode (.cmd 1) = .ok .compress ∧
    ({ at' .count .comp with outside.script := [.wait] }).phase ≠ .idle := by decide
/-- PlacedWordRuns: a `CMD` row and a `PHASE` row. -/
theorem witness_placed_word : decodeTableWord 32 1 = some .compress ∧ decodeTableWord 8 10 = some .endcheck := by decide
/-- CompressAcceptance, DecompressAcceptance: both sides of each bound, and a busy machine. -/
theorem witness_acceptance : State.reset.phase = .idle ∧ State.reset.outside.rst = false ∧
    (0x7FFFFFFF : Word).toNat ≤ 2147483647 ∧ 2147483647 < (0x80000000 : Word).toNat ∧
    1025 ≤ (1025 : Word).toNat ∧ (1024 : Word).toNat < 1025 ∧ (at' .count .comp).phase ≠ .idle := by decide
/-- ReservedRaises, ClearAcknowledges: the least and the greatest reserved word. -/
theorem witness_reserved : (at' .idle .none).assertReset.outside.rst = true ∧ 4 ≤ (4 : Word).toNat ∧ 4 ≤ (0xFFFFFFFF : Word).toNat ∧ State.reset.phase = .idle ∧
    (at' .build .comp).phase ≠ .idle := by decide
/-- BusyWritesLost, for both registers. -/
theorem witness_busy_writes :
    ((at' .pack .comp).withScript [wrCmd 3]).outside.script = .regWrite 0x00 4 3 :: [] ∧
    ((at' .pack .comp).withScript [wrInLen 7]).outside.script = .regWrite 0x0C 4 7 :: [] ∧
    (at' .pack .comp).phase ≠ .idle := by decide
/-- StatusRegister, RegisterMap: aligned, misaligned, and of another width. -/
theorem witness_registers : (0x18 : Word).toNat % 4 = 0 ∧ 0x18 ≤ (0x18 : Word).toNat ∧ (0x0E : Word).toNat % 4 ≠ 0 ∧
    (State.reset.withScript [rd 0x04]).outside.script = rd 0x04 :: [] ∧
    (State.reset.withScript [.regWrite 0x04 4 1]).outside.script = .regWrite 0x04 4 1 :: [] ∧
    (State.reset.withScript [.regRead 0x0C 2]).outside.script = .regRead 0x0C 2 :: [] := by decide
/-- ResetInput: mid-run, and while asserted. -/
theorem witness_reset_input :
    ((at' .pack .comp).withScript [.rst true, .rst false]).outside.script = .rst true :: .rst false :: [] ∧
    (at' .pack .comp).assertReset.outside.rst = true ∧ (at' .pack .comp).assertReset.outside.script = [] := by decide
/-- PhaseOrder: a step that changes the phase; StepKeepsInvariant: a step from the invariant. -/
theorem witness_phase_order : Inv compressing ∧ seen State.phase (step compressing) = some .count ∧
    compressing.phase = .idle := ⟨compressing_inv, by decide, rfl⟩
/-- OutputOnlyAppended, WorkingStateWrittenBy, FlagsWrittenBy: an instruction that writes and completes. -/
theorem witness_frames : seen (fun t => (t.outCnt, t.done)) (exec .finish { packing with phase := .finish, work.free := 8 }) =
    some (1025, true) := by decide
/-- PortsWait: a silent input port in LOADHDR, a silent output port in EMITHDR. -/
theorem witness_ports_wait : Inv { loading with outside.inAnswers := false } ∧ Inv { emitting with outside.outAccepts := false } ∧
    decode (.phase loading.phase.code) = .ok .loadhdr ∧ decode (.phase emitting.phase.code) = .ok .emithdr :=
  ⟨inv_running rfl rfl rfl rfl rfl rfl rfl (by decide) (by intro _ _; decide) rfl rfl,
    inv_running rfl rfl rfl rfl rfl rfl rfl (by decide) (by intro _ h; cases h) rfl ⟨rfl, rfl, childrenBelow_reset _⟩,
    by decide, by decide⟩
/-- CountStep: the first and the last entry, and the only byte of an input. -/
theorem witness_count_step : counting.stage = .entry ∧ (255 : BitVec 9).toNat < 256 ∧
    ({ counting with stage := .clear, work.vidx := 255 }).work.vidx = 255 ∧
    ({ counting with stage := .tally }).work.pos.toNat < counting.inLen.toNat ∧ counting.outside.inAnswers = true := by decide
/-- EmithdrStep: the first and the last byte. -/
theorem witness_emithdr_step : emitting.stage = .entry ∧ emitting.outside.outAccepts = true ∧
    ({ emitting with stage := .emit 3, work.vidx := 255 }).stage = .emit 3 ∧ (255 : BitVec 9).toNat < 256 := by decide
/-- LoadhdrStep: each stage of the entries 0 and 255. -/
theorem witness_loadhdr_step : loading.stage = .entry ∧ 1025 ≤ loading.inLen.toNat ∧ loading.outside.inAnswers = true ∧
    ({ loading with work.vidx := 255, work.pos := 1020 }).work.pos.toNat = 4 * (255 : BitVec 9).toNat ∧
    ([0] : List Byte).length = 1 ∧ ([0, 0] : List Byte).length = 2 := by decide
/-- BuildInitStep: the first and the last leaf. -/
theorem witness_build_init : (at' .build .comp).stage = .entry ∧ (0 : BitVec 9).toNat < 256 ∧
    ({ at' .build .comp with stage := .initLeaf, work.vidx := 255 }).work.vidx = 255 := by decide
/-- CodegenStep: a leaf at depth 255 and a node. -/
theorem witness_codegen_step : (255 : BitVec 9).toNat < 256 ∧ (List.replicate 255 true).length ≤ 255 ∧
    256 ≤ (510 : BitVec 9).toNat ∧ unpacking.tab.node.children? 510 = some (0, 1) := by decide +kernel
/-- PackStep: a code of one bit, at the last byte, with a flush, and without one while the output port is silent. -/
theorem witness_pack_step : packing.stage = .entry ∧ packing.work.pos.toNat < packing.inLen.toNat ∧
    packing.outside.inAnswers = true ∧ packing.outside.outAccepts = true ∧ packing.work.free = 0 ∧
    ({ packing with work.free := 1, outside.outAccepts := false }).work.free ≠ 0 ∧
    ({ packing with tab.code := Tables.reset.code.withEntry 0 { len := 1, bits := [true] } }.tab.code.entry 0).bits[0]? =
      some true := by decide
/-- FinishStep: `FREE` = 8, 0, 1 and 7. -/
theorem witness_finish_step : ({ packing with work.free := 8 }).work.free = 8 ∧ packing.work.free = 0 ∧
    1 ≤ (1 : BitVec 4).toNat ∧ (7 : BitVec 4).toNat ≤ 7 ∧ packing.outside.outAccepts = true := by decide
/-- RdtrailerStep: `IN_LEN` = 1025 with trailers 0 and 1, `IN_LEN` = 1026 with trailers 7 and 8. -/
theorem witness_rdtrailer_step : 1025 ≤ (1025 : Word).toNat ∧ (1026 : Word).toNat ≠ 1025 ∧ (7 : Byte).toNat ≤ 7 ∧
    7 < (8 : Byte).toNat ∧ (1 : Byte) ≠ 0 ∧ (at' .rdtrailer .decomp).stage = .entry := by decide
/-- UnpackStep, WalkStep: the last bit of the last byte, at a leaf with room, and, with the output port silent, at a leaf
without room and at an internal node. -/
theorem witness_unpack_step : walkState.stage = .walk ∧ walkState.outside.outAccepts = true ∧
    walkState.tab.node.children? walkState.work.cur = some (509, 0) ∧ walkState.outCnt ≠ walkState.work.sum ∧
    ({ walkState with outCnt := 1, outside.outAccepts := false }).outCnt = walkState.work.sum ∧
    (0 : BitVec 9).toNat < 256 ∧ 256 ≤ (509 : BitVec 9).toNat ∧ walkState.work.pos.toNat < walkState.work.dlen.toNat ∧
    1024 + walkState.work.pos.toNat < walkState.inLen.toNat ∧ walkState.work.padreg.toNat ≤ 7 := by decide +kernel
/-- EndcheckStep: each of the three outcomes. -/
theorem witness_endcheck_step : ({ unpacking with phase := .endcheck, work.cur := 509 }).work.cur ≠ unpacking.work.root ∧
    ({ unpacking with work.cur := 510 }).work.cur = unpacking.work.root ∧ unpacking.outCnt = unpacking.work.sum ∧
    ({ unpacking with work.sum := 1 }).outCnt ≠ 1 := by decide
/-- StopsOutsideTheSpec: the first address, node, slot, bit and path that does not exist. -/
theorem witness_stops : (0 : Word).toNat ≤ (State.reset).work.pos.toNat ∧ State.reset.inLen = 0 ∧
    State.reset.inLen.toNat ≤ 4 * State.reset.work.vidx.toNat ∧ ([0, 0, 0] : List Byte).length ≤ 3 ∧
    (1024 : Word).toNat ≤ 1024 + State.reset.work.pos.toNat ∧ 255 < (List.replicate 256 true).length ∧
    (State.reset.tab.code.entry 0).bits.length ≤ State.reset.work.cidx.toNat ∧ (255 : BitVec 9).toNat < 256 := by
  decide +kernel
/-- The same: a select at a slot that holds node 511, a select with no slot, and a merge with `NEXT` = 511. -/
theorem witness_stops_build :
    (({ v := true, n := 511 } : Slot).v = true ∧ (some 0 : Option Byte) ≠ some 1 ∧ 255 ≤ (255 : BitVec 9).toNat ∧
      (Table.entry Tables.reset.slot 255).v = false ∧ (Table.entry Tables.reset.slot 0).n ≠ 511 ∧
      511 ≤ (511 : BitVec 10).toNat) ∧
    seen State.stage (exec .build { at' .build .comp with stage := .scanA none, work.sidx := 255 }) = none := by
  decide +kernel
/-- The same: each position is foreign to another phase, the empty and the overlong ones to their own. -/
theorem witness_foreign : Phase.owns .count .walk = false ∧ Phase.owns .unpack .tally = false ∧
    Phase.owns .codegen (.visit []) = false ∧ Phase.owns .loadhdr (.load [0, 0, 0, 0]) = false ∧
    decode (.phase Phase.count.code) = .ok .count := by decide

end Sys2Proof.Machine.Tests
end

section
/-!
PROOFS. PACK and FINISH (44_encoder.md R140 to R143): PUSHBIT keeps the pushed bits as whole bytes in `OUT` and a rest in
`ACC`; the run of PACK pushes the codes of the input byte by byte; FINISH pads the rest.
-/
namespace Sys2Proof.Machine

variable {s s0 t : State} {bits : List Bool}

/-! ### Bits into bytes -/

theorem toNat_pos_iff {n : Nat} (x : BitVec n) : 0 < x.toNat ↔ x ≠ 0 := by
  simp [Nat.pos_iff_ne_zero, BitVec.toNat_eq]

theorem bytesOfBits_append_eight {l : List Bool} (h : l.length = 8) (m : List Bool) :
    bytesOfBits (l ++ m) = byteOfBits l :: bytesOfBits m := by
  match l, h with
  | [_, _, _, _, _, _, _, _], _ => simp only [List.cons_append, List.nil_append, bytesOfBits]

/-- Whole bytes in front are packed on their own. -/
theorem bytesOfBits_append {l : List Bool} (h : 8 ∣ l.length) (m : List Bool) :
    bytesOfBits (l ++ m) = bytesOfBits l ++ bytesOfBits m := by
  obtain ⟨k, hk⟩ := h
  induction k generalizing l with
  | zero =>
    rw [List.length_eq_zero_iff.1 hk]
    rfl
  | succ k ih =>
    have h8 : (l.take 8).length = 8 := by rw [List.length_take]; omega
    rw [← List.take_append_drop 8 l, List.append_assoc, bytesOfBits_append_eight h8, bytesOfBits_append_eight h8,
      ih (by rw [List.length_drop]; omega), List.cons_append]

theorem bytesOfBits_eight {l : List Bool} (h : l.length = 8) : bytesOfBits l = [byteOfBits l] := by
  simpa [bytesOfBits] using bytesOfBits_append_eight h []

/-- Bits pushed into a register move its content up and stand below it. -/
theorem foldl_pushInto (l : List Bool) (x : Byte) :
    l.foldl pushInto x = x <<< l.length ||| byteOfBits l := by
  induction l using List.reverseRecOn with
  | nil => simp [byteOfBits]
  | append_singleton l b ih =>
    simp only [byteOfBits, List.foldl_append, List.foldl_cons, List.foldl_nil] at ih ⊢
    rw [ih]
    simp only [pushInto, List.length_append, List.length_singleton, BitVec.shiftLeft_or_distrib, BitVec.shiftLeft_add,
      BitVec.or_assoc]

/-- Eight pushes leave nothing of what the register held. -/
theorem foldl_pushInto_eight {l : List Bool} (h : l.length = 8) (x : Byte) : l.foldl pushInto x = byteOfBits l := by
  rw [foldl_pushInto, h, BitVec.shiftLeft_eq_zero (Nat.le_refl 8), BitVec.zero_or]

theorem foldl_pushInto_replicate_false (n : Nat) (x : Byte) :
    (List.replicate n false).foldl pushInto x = x <<< n := by
  induction n generalizing x with
  | zero => simp
  | succ n ih =>
    rw [List.replicate_succ, List.foldl_cons, ih, Nat.add_comm n 1, BitVec.shiftLeft_add]
    simp [pushInto]

theorem trailerByte_eq (free : BitVec 4) : trailerByte free = BitVec.ofNat 8 (free.toNat % 8) := by
  revert free
  decide

/-! ### The output after one more byte -/

theorem Memory.bytes_write_end {m : Memory} (h : m.wf) (n : Nat) (b : Byte) :
    (m.write n b).bytes 0 (n + 1) = m.bytes 0 n ++ [b] := by
  rw [Memory.bytes_succ, Nat.zero_add, Memory.read_write_same h]
  congr 1
  refine List.map_congr_left fun i hi => ?_
  have : i < n := List.mem_range.1 hi
  exact Memory.read_write_other m b (by omega)

theorem State.outByte_output (h : s.outside.out.wf) (hc : s.outCnt.toNat < 2 ^ 39) (v : Byte) :
    (s.outByte v).output = s.output ++ [v] := by
  unfold State.output
  rw [State.outByte_outCnt, outCnt_succ hc, State.outByte_outside, Memory.bytes_write_end h]

/-! ### What is out and what is still in the accumulator -/

/-- After `base` the bits `bits` have been pushed (R141): those of `done` are out as bytes, those of `rest` are the
low `8 - FREE` bits of `ACC`, above which stand bits of `old`, since a flush does not clear `ACC`. -/
def Packs (base : List Byte) (bits : List Bool) (s : State) : Prop :=
  ∃ (done rest : List Bool) (old : Byte), bits = done ++ rest ∧ 8 ∣ done.length ∧
    s.output = base ++ bytesOfBits done ∧ rest.length + s.work.free.toNat = 8 ∧ s.work.acc = rest.foldl pushInto old

/-- PUSHBIT's flush, where no free slot remains (R141). -/
def makeRoom (s : State) : State := if s.work.free = 0 then flushAcc s else s

theorem pushBit_eq (ha : s.outside.outAccepts = true) (bit : Bool) (k : State → State) :
    pushBit bit s k = .next (k (shiftAcc bit (makeRoom s))) := by
  unfold pushBit makeRoom whenAccepted
  rw [if_pos ha]
  split <;> rfl

theorem makeRoom_eq (s : State) : makeRoom s = { s with
    outCnt := (makeRoom s).outCnt, work.free := (makeRoom s).work.free, outside.out := (makeRoom s).outside.out } := by
  unfold makeRoom
  split <;> rfl

/-- PACK's `BYTE <- InByte(POS)` and the start of the inner loop (R142). -/
def takeByte (b : Byte) (s : State) : State := { s with work.byte := b, work.cidx := 0 }

/-- What follows the `InByte` of `b`: its first PUSHBIT, or the next input byte where its code is empty (R8, R142). -/
def fetched (b : Byte) (s : State) : State :=
  if (s.tab.code.entry b).len = 0 then packNextByte (takeByte b s) else { takeByte b s with stage := .push }

theorem packFetch_eq (hlt : s.work.pos.toNat < s.inLen.toNat) (ha : s.outside.inAnswers = true) :
    packFetch s = .next (fetched (s.outside.inp.read s.work.pos.toNat) s) := by
  rw [packFetch, inByte, if_neg (Nat.not_le.2 hlt), if_pos ha]
  exact (apply_ite Host.Outcome.next _ _ _).symm

variable {base : List Byte}

theorem Packs.makeRoom (h : Packs base bits s) (hw : s.outside.out.wf) (hc : s.outCnt.toNat < 2 ^ 39) :
    Packs base bits (makeRoom s) ∧ (Machine.makeRoom s).work.free ≠ 0 := by
  unfold Machine.makeRoom
  split
  · next hf =>
    obtain ⟨done, rest, old, hb, hd, ho, hl, hacc⟩ := h
    have hr : rest.length = 8 := by simpa [hf] using hl
    refine ⟨⟨done ++ rest, [], s.work.acc, by simp [hb], ?_, ?_, rfl, rfl⟩, show (8 : BitVec 4) ≠ 0 by decide⟩
    · rw [List.length_append, hr]
      exact Nat.dvd_add hd (Nat.dvd_refl 8)
    · rw [bytesOfBits_append hd, bytesOfBits_eight hr, ← foldl_pushInto_eight hr old, ← hacc,
        ← List.append_assoc, ← ho]
      exact State.outByte_output hw hc _
  · next hf => exact ⟨h, hf⟩

theorem Packs.shiftAcc (h : Packs base bits s) (hf : s.work.free ≠ 0) (bit : Bool) :
    Packs base (bits ++ [bit]) (shiftAcc bit s) := by
  obtain ⟨done, rest, old, hb, hd, ho, hl, hacc⟩ := h
  have hf' : 0 < s.work.free.toNat := (toNat_pos_iff _).2 hf
  refine ⟨done, rest ++ [bit], old, by simp [hb], hd, ho, ?_, ?_⟩
  · show (rest ++ [bit]).length + (s.work.free - 1).toNat = 8
    have hs : (s.work.free - 1).toNat = s.work.free.toNat - 1 := by bv_omega
    rw [hs, List.length_append, List.length_singleton]
    omega
  · show pushInto s.work.acc bit = _
    rw [hacc, List.foldl_append]
    rfl

/-- FINISH's two bytes (R143, R144): `ACC` shifted up by `FREE`, left out when no bit is in `ACC`, and the trailer. -/
theorem packBits_of_packs (h : Packs base bits s) :
    base ++ packBits bits =
      s.output ++ (if s.work.free = 8 then [] else [s.work.acc <<< s.work.free.toNat]) ++ [trailerByte s.work.free] := by
  obtain ⟨done, rest, old, hb, hd, ho, hl, hacc⟩ := h
  have hpad : padding bits.length = s.work.free.toNat % 8 := by
    rw [hb, List.length_append, padding]
    omega
  rw [packBits, hpad, trailerByte_eq, ho, hb, List.append_assoc, bytesOfBits_append hd]
  split
  · next hf =>
    have hr : rest = [] := List.length_eq_zero_iff.1 (by simpa [hf] using hl)
    simp [hf, hr, bytesOfBits]
  · next hf =>
    have hf' : s.work.free.toNat ≠ 8 := by simpa [BitVec.toNat_eq] using hf
    have hm : s.work.free.toNat % 8 = s.work.free.toNat := Nat.mod_eq_of_lt (by omega)
    have h8 : (rest ++ List.replicate s.work.free.toNat false).length = 8 := by simpa using hl
    rw [hm, bytesOfBits_eight h8, ← foldl_pushInto_eight h8 old, List.foldl_append, ← hacc,
      foldl_pushInto_replicate_false]
    simp

/-! ### What PACK leaves unchanged -/

/-- PACK writes working registers, `OUT` and `OUT_CNT`, and moves the sequencer. -/
structure OutputOnly (s t : State) : Prop where
  command : SameCommand s t
  tab : t.tab = s.tab
  outside : t.outside = { s.outside with out := t.outside.out }

theorem OutputOnly.trans {u : State} (a : OutputOnly s t) (b : OutputOnly t u) : OutputOnly s u where
  command := ⟨b.command.op.trans a.command.op, b.command.done.trans a.command.done, b.command.err.trans a.command.err,
    b.command.errcode.trans a.command.errcode, b.command.inLen.trans a.command.inLen⟩
  tab := b.tab.trans a.tab
  outside := by rw [b.outside, a.outside]

theorem OutputOnly.inp (h : OutputOnly s t) : t.outside.inp = s.outside.inp := by rw [h.outside]

theorem packStart_outputOnly (s : State) : OutputOnly s (packStart s) := by
  unfold packStart
  simp only
  split <;> exact ⟨⟨rfl, rfl, rfl, rfl, rfl⟩, rfl, rfl⟩

theorem packNextByte_outputOnly (s : State) : OutputOnly s (packNextByte s) := by
  unfold packNextByte
  simp only
  split <;> exact ⟨⟨rfl, rfl, rfl, rfl, rfl⟩, rfl, rfl⟩

theorem packNextBit_outputOnly (s : State) : OutputOnly s (packNextBit s) := by
  unfold packNextBit
  split
  · exact ⟨⟨rfl, rfl, rfl, rfl, rfl⟩, rfl, rfl⟩
  · exact packNextByte_outputOnly s

theorem fetched_outputOnly (b : Byte) (s : State) : OutputOnly s (fetched b s) := by
  have htake : OutputOnly s (takeByte b s) := ⟨⟨rfl, rfl, rfl, rfl, rfl⟩, rfl, rfl⟩
  unfold fetched
  split
  · exact htake.trans (packNextByte_outputOnly _)
  · exact ⟨⟨rfl, rfl, rfl, rfl, rfl⟩, rfl, rfl⟩

theorem shiftAcc_makeRoom_outputOnly (s : State) (bit : Bool) : OutputOnly s (shiftAcc bit (makeRoom s)) := by
  rw [makeRoom_eq]
  exact ⟨⟨rfl, rfl, rfl, rfl, rfl⟩, rfl, rfl⟩

theorem Packs.packNextByte (h : Packs base bits s) : Packs base bits (packNextByte s) := by
  unfold Machine.packNextByte
  simp only
  split <;> exact h

theorem Packs.fetched (h : Packs base bits s) (b : Byte) : Packs base bits (fetched b s) := by
  unfold Machine.fetched
  split
  · exact Packs.packNextByte (s := takeByte b s) h
  · exact h

theorem Packs.packNextBit (h : Packs base bits s) : Packs base bits (packNextBit s) := by
  unfold Machine.packNextBit
  split
  · exact h
  · exact h.packNextByte

/-! ### Where PACK stands -/

/-- Before input byte `n` (R142): at its `InByte`, or at FINISH when there is none. -/
def BeforeByte (n : Nat) (s : State) : Prop :=
  if n < s.inLen.toNat then s.phase = .pack ∧ s.stage = .fetch ∧ s.work.pos.toNat = n
  else s.phase = .finish ∧ s.stage = .entry

/-- Before bit `i` of the code of the input byte `n`, which is `b` (R142): at its PUSHBIT, or before the next byte when
there is none. -/
def BeforeBit (n : Nat) (b : Byte) (i : Nat) (s : State) : Prop :=
  if i < (s.tab.code.entry b).len.toNat then
    s.phase = .pack ∧ s.stage = .push ∧ s.work.pos.toNat = n ∧ s.work.byte = b ∧ s.work.cidx.toNat = i
  else BeforeByte (n + 1) s

theorem packStart_beforeByte (hp : s.phase = .pack) : BeforeByte 0 (packStart s) := by
  simp only [BeforeByte, (packStart_outputOnly s).command.inLen, toNat_pos_iff, ne_eq, ite_not]
  unfold packStart
  split
  · exact ⟨rfl, rfl⟩
  · exact ⟨hp, rfl, rfl⟩

theorem packNextByte_beforeByte (hp : s.phase = .pack) (hlt : s.work.pos.toNat < s.inLen.toNat) :
    BeforeByte (s.work.pos.toNat + 1) (packNextByte s) := by
  unfold BeforeByte
  rw [(packNextByte_outputOnly s).command.inLen]
  unfold packNextByte
  split
  · exact ⟨hp, rfl, toNat_succ hlt s.inLen.isLt⟩
  · exact ⟨rfl, rfl⟩

theorem fetched_beforeBit (b : Byte) (hp : s.phase = .pack) (hlt : s.work.pos.toNat < s.inLen.toNat) :
    BeforeBit s.work.pos.toNat b 0 (fetched b s) := by
  simp only [BeforeBit, (fetched_outputOnly b s).tab, toNat_pos_iff, ne_eq, ite_not]
  unfold fetched
  split
  · exact packNextByte_beforeByte (s := takeByte b s) hp hlt
  · exact ⟨hp, rfl, rfl, rfl, rfl⟩

theorem packNextBit_beforeBit (hp : s.phase = .pack) (hlt : s.work.pos.toNat < s.inLen.toNat) :
    BeforeBit s.work.pos.toNat s.work.byte (s.work.cidx.toNat + 1) (packNextBit s) := by
  have hl := (Table.entry s.tab.code s.work.byte).len.isLt
  unfold BeforeBit
  rw [(packNextBit_outputOnly s).tab]
  unfold packNextBit
  split
  · next h => exact ⟨hp, rfl, rfl, rfl, toNat_succ (b := 255) (by omega) (by decide)⟩
  · exact packNextByte_beforeByte hp hlt

/-! ### The run of PACK -/

/-- With an undisturbed host a step is the sequencer's. -/
theorem Undisturbed.leads (h : Undisturbed s) {i : Instr} (hi : decode (.phase s.phase.code) = .ok i)
    (he : exec i s = .next t) : Leads s t := by
  refine .step ?_
  unfold step fetch
  rw [h.script]
  simp only [sequencerTurn_eq h.rst hi, he]

theorem execPack_inv (h : Inv s) (hp : s.phase = .pack) (he : execPack s = .next t) : Inv t := by
  obtain ⟨u, hu, hi⟩ := execPack_fine h hp
  cases he.symm.trans hu
  exact hi

/-- The run of PACK from `s0` has come to `s` and has pushed `bits`. -/
structure PackRun (s0 : State) (bits : List Bool) (s : State) : Prop where
  reach : Leads s0 s
  inv : Inv s
  quiet : Undisturbed s
  frame : OutputOnly s0 s
  packs : Packs s0.output bits s

theorem PackRun.step (h : PackRun s0 bits s) (hp : s.phase = .pack) (he : execPack s = .next t) (hf : OutputOnly s t)
    {bits' : List Bool} (hk : Packs s0.output bits' t) : PackRun s0 bits' t where
  reach := h.reach.trans (h.quiet.leads (i := .pack) (by rw [hp]; rfl) he)
  inv := execPack_inv h.inv hp he
  quiet := h.quiet.of_outside hf.outside
  frame := h.frame.trans hf
  packs := hk

/-- The start of PACK (R140): an empty accumulator. -/
theorem packRun_start (hi : Inv s) (hq : Undisturbed s) (hp : s.phase = .pack) (hs : s.stage = .entry) :
    PackRun s [] (packStart s) where
  reach := hq.leads (i := .pack) (by rw [hp]; rfl) (by simp only [exec, execPack, hs])
  inv := execPack_inv hi hp (by simp only [execPack, hs])
  quiet := hq.of_outside (packStart_outputOnly s).outside
  frame := packStart_outputOnly s
  packs := by
    unfold packStart
    simp only
    split <;> exact ⟨[], [], 0, rfl, by simp, (List.append_nil _).symm, rfl, rfl⟩

/-- The `InByte` of input byte `n`. -/
theorem PackRun.fetch {n : Nat} (h : PackRun s0 bits s) (hn : n < s0.inLen.toNat) (hb : BeforeByte n s) :
    ∃ t, PackRun s0 bits t ∧ BeforeBit n (s0.outside.inp.read n) 0 t := by
  rw [← h.frame.command.inLen] at hn
  obtain ⟨hp, hs, rfl⟩ : s.phase = .pack ∧ s.stage = .fetch ∧ s.work.pos.toNat = n := by
    rwa [BeforeByte, if_pos hn] at hb
  have he : execPack s = packFetch s := by simp only [execPack, hs]
  rw [packFetch_eq hn h.quiet.inAnswers, h.frame.inp] at he
  exact ⟨_, h.step hp he (fetched_outputOnly _ s) (h.packs.fetched _), fetched_beforeBit _ hp hn⟩

/-- PUSHBIT of bit `i` of the code of an input byte. -/
theorem PackRun.push {n i : Nat} {b : Byte} (h : PackRun s0 bits s)
    (hi : i < (s0.tab.code.entry b).bits.length) (hb : BeforeBit n b i s) :
    ∃ t, PackRun s0 (bits ++ [(s0.tab.code.entry b).bits[i]]) t ∧ BeforeBit n b (i + 1) t := by
  have hl := h.inv.code_len b
  rw [h.frame.tab] at hl
  obtain ⟨hp, hs, rfl, rfl, rfl⟩ : s.phase = .pack ∧ s.stage = .push ∧ s.work.pos.toNat = n ∧ s.work.byte = b ∧
      s.work.cidx.toNat = i := by
    rwa [BeforeBit, h.frame.tab, if_pos (hl ▸ hi)] at hb
  have hpos := h.inv.position
  simp only [PositionOk, hp, hs] at hpos
  obtain ⟨hlt, -, -, -, hcnt⟩ := hpos
  have hc : s.outCnt.toNat < 2 ^ 39 := by
    have := s.work.pos.isLt
    have := s.work.cidx.isLt
    omega
  have he : execPack s = packPush s := by simp only [execPack, hs]
  simp only [packPush, h.frame.tab, List.getElem?_eq_getElem hi, pushBit_eq h.quiet.outAccepts] at he
  obtain ⟨hroom, hfree⟩ := h.packs.makeRoom h.inv.out_wf hc
  set bit := (s0.tab.code.entry s.work.byte).bits[s.work.cidx.toNat]
  refine ⟨_, h.step hp he ((shiftAcc_makeRoom_outputOnly s bit).trans (packNextBit_outputOnly _))
    (hroom.shiftAcc hfree bit).packNextBit, ?_⟩
  have hbit := packNextBit_beforeBit (s := shiftAcc bit (makeRoom s))
  rw [makeRoom_eq] at hbit ⊢
  exact hbit hp hlt

/-- All bits of the code of one input byte. -/
theorem PackRun.byte {n : Nat} {b : Byte} (h : PackRun s0 bits s) (hb : BeforeBit n b 0 s) :
    ∃ t, PackRun s0 (bits ++ (s0.tab.code.entry b).bits) t ∧ BeforeByte (n + 1) t := by
  have firstBits : ∀ i ≤ (s0.tab.code.entry b).bits.length,
      ∃ t, PackRun s0 (bits ++ (s0.tab.code.entry b).bits.take i) t ∧ BeforeBit n b i t := by
    intro i hi
    induction i with
    | zero => exact ⟨s, by simpa using h, hb⟩
    | succ i ih =>
      obtain ⟨t, ht, hbt⟩ := ih (Nat.le_of_succ_le hi)
      obtain ⟨u, hu, hbu⟩ := ht.push hi hbt
      refine ⟨u, ?_, hbu⟩
      rwa [List.append_assoc, List.take_append_getElem hi] at hu
  obtain ⟨t, ht, hbt⟩ := firstBits _ (Nat.le_refl _)
  have hl := ht.inv.code_len b
  rw [BeforeBit, if_neg (by rw [hl, ht.frame.tab]; exact Nat.lt_irrefl _)] at hbt
  exact ⟨t, by simpa using ht, hbt⟩

/-- The codes of the first `n` input bytes. -/
theorem packRun_bytes (hi : Inv s) (hq : Undisturbed s) (hp : s.phase = .pack) (hs : s.stage = .entry) {n : Nat}
    (hn : n ≤ s.inLen.toNat) :
    ∃ t, PackRun s ((s.outside.inp.bytes 0 n).flatMap fun v => (s.tab.code.entry v).bits) t ∧ BeforeByte n t := by
  induction n with
  | zero => exact ⟨packStart s, packRun_start hi hq hp hs, packStart_beforeByte hp⟩
  | succ n ih =>
    obtain ⟨t, ht, hbt⟩ := ih (Nat.le_of_succ_le hn)
    obtain ⟨u, hu, hbu⟩ := ht.fetch hn hbt
    obtain ⟨w, hw, hbw⟩ := hu.byte hbu
    refine ⟨w, ?_, hbw⟩
    rw [Memory.bytes_succ, List.flatMap_append, Nat.zero_add]
    simpa using hw

/-! ### The run of FINISH -/

theorem finishTrailer_eq (ha : s.outside.outAccepts = true) :
    finishTrailer s = .next (s.outByte (trailerByte s.work.free)).complete := by
  rw [finishTrailer, whenAccepted, if_pos ha]

theorem finishData_eq (ha : s.outside.outAccepts = true) (h8 : s.work.free ≠ 8) :
    finishData s = .next { s.outByte (s.work.acc <<< s.work.free.toNat) with
      work.acc := s.work.acc <<< s.work.free.toNat, stage := .trailer } := by
  unfold finishData whenAccepted
  rw [if_neg h8, if_pos ha]
  split
  · next h0 =>
    have hz : s.work.acc <<< s.work.free.toNat = s.work.acc := by simp [h0]
    rw [hz]
    rfl
  · rfl

theorem finishTrailer_leads (hq : Undisturbed s) (hp : s.phase = .finish) (he : execFinish s = finishTrailer s) :
    Leads s (s.outByte (trailerByte s.work.free)).complete :=
  hq.leads (i := .finish) (by rw [hp]; rfl) (he.trans (finishTrailer_eq hq.outAccepts))

/-- FINISH writes the last data byte, unless no bit waits for it, and the trailer, and ends by `done` (R143). -/
theorem finish_leads (hi : Inv s) (hq : Undisturbed s) (hp : s.phase = .finish) (hs : s.stage = .entry) :
    ∃ t, Leads s t ∧ Succeeded t ∧
      t.output = s.output ++ (if s.work.free = 8 then [] else [s.work.acc <<< s.work.free.toNat]) ++
        [trailerByte s.work.free] ∧
      t.tab = s.tab ∧ t.op = s.op ∧ t.inLen = s.inLen ∧ t.errcode = s.errcode := by
  have herr : s.err = false := (hi.busy_clear (by simp [hp])).2
  have hpos := hi.position
  simp only [PositionOk, hp, hs] at hpos
  obtain ⟨-, -, hcnt⟩ := hpos
  have hc : s.outCnt.toNat + 1 < 2 ^ 39 := by
    have := s.inLen.isLt
    omega
  have hc' : s.outCnt.toNat < 2 ^ 39 := Nat.lt_of_succ_lt hc
  have he : execFinish s = finishData s := by simp only [execFinish, hs]
  by_cases h8 : s.work.free = 8
  · have hd : finishData s = finishTrailer s := by rw [finishData, if_pos h8]
    refine ⟨_, finishTrailer_leads hq hp (he.trans hd), ⟨rfl, rfl, herr⟩, ?_, rfl, rfl, rfl, rfl⟩
    rw [if_pos h8, List.append_nil]
    exact State.outByte_output hi.out_wf hc' _
  · have hu := hq.leads (i := .finish) (by rw [hp]; rfl) (he.trans (finishData_eq hq.outAccepts h8))
    set a := s.work.acc <<< s.work.free.toNat
    set u : State := { s.outByte a with work.acc := a, stage := .trailer }
    have hqu : Undisturbed u := hq.of_outside rfl
    refine ⟨_, hu.trans (finishTrailer_leads hqu hp rfl), ⟨rfl, rfl, herr⟩, ?_, rfl, rfl, rfl, rfl⟩
    rw [if_neg h8, ← State.outByte_output hi.out_wf hc' a]
    exact State.outByte_output (s := u) (Memory.write_wf hi.out_wf _ _) ((outCnt_succ hc').trans_lt hc) _

/-- Settles O45: PACK's run pushes the codes of the input bytes one after the other, FINISH pads what is left. -/
theorem packAppends : Obligations.PackAppends := by
  intro s hi hq hp hs
  obtain ⟨t, ht, hbt⟩ := packRun_bytes hi hq hp hs (Nat.le_refl _)
  have hlen := ht.frame.command.inLen
  obtain ⟨hpt, hst⟩ : t.phase = .finish ∧ t.stage = .entry := by
    rwa [BeforeByte, if_neg (by rw [hlen]; exact Nat.lt_irrefl _)] at hbt
  obtain ⟨u, hu, hsucc, hout, htab, hop, hinLen, herr⟩ := finish_leads ht.inv ht.quiet hpt hst
  refine ⟨u, ht.reach.trans hu, hsucc, ?_, htab.trans ht.frame.tab, hop.trans ht.frame.command.op, hinLen.trans hlen, ?_⟩
  · rw [hout]
    exact (packBits_of_packs ht.packs).symm
  · rw [herr]
    exact ht.inv.no_err (ht.inv.busy_clear (by simp [hpt])).2

end Sys2Proof.Machine
end

section
/-!
PROOFS. What one step of the machine can do (10_state.md R11, R13, R16, R20): the sequencer's turn, a write to `CMD`, or
another move of the host; and with it the invariant over every step.
-/
namespace Sys2Proof.Machine

variable {s t : State}

/-! ### The choice of what moves next -/

/-- What is chosen, carried out. -/
def Fetched.outcome : Fetched → Res
  | .instr i s => exec i s
  | .moved o => o

theorem step_eq_outcome (s : State) : step s = (fetch s).outcome := by
  unfold step
  cases fetch s <;> rfl

theorem wholeAccess_iff {off : Word} {n : Nat} : wholeAccess off n = true ↔ n = 4 ∧ off.toNat % 4 = 0 := by
  simp [wholeAccess]

theorem wholeAccess_eq_false_iff {off : Word} {n : Nat} :
    wholeAccess off n = false ↔ n ≠ 4 ∨ off.toNat % 4 ≠ 0 := by
  rw [← Bool.not_eq_true, wholeAccess_iff]
  tauto

theorem fetch_nil (h : s.outside.script = []) : fetch s = sequencerTurn s := by
  rw [fetch, h]

theorem fetch_regWrite {off v : Word} {n : Nat} {rest : List HostMove} (h : s.outside.script = .regWrite off n v :: rest) :
    fetch s = writeTurn off n v (s.withScript rest) := by
  rw [fetch, h]

theorem fetch_regRead {off : Word} {n : Nat} {rest : List HostMove} (h : s.outside.script = .regRead off n :: rest) :
    fetch s = if wholeAccess off n then .moved (.next ((s.withScript rest).regRead off))
      else .moved (.refused (.registerAccess off n)) := by
  rw [fetch, h]

theorem fetch_run_one {rest : List HostMove} (h : s.outside.script = .run 1 :: rest) :
    fetch s = sequencerTurn (s.withScript rest) := by
  rw [fetch, h]

theorem fetch_run_more {n : Nat} {rest : List HostMove} (h : s.outside.script = .run (n + 2) :: rest) :
    fetch s = sequencerTurn (s.withScript (.run (n + 1) :: rest)) := by
  rw [fetch, h]

theorem fetch_wait {rest : List HostMove} (h : s.outside.script = .wait :: rest) :
    fetch s = if s.busy then sequencerTurn s else .moved (.next (s.withScript rest)) := by
  rw [fetch, h]

theorem fetch_run_zero {rest : List HostMove} (h : s.outside.script = .run 0 :: rest) :
    fetch s = .moved (.next (s.withScript rest)) := by
  rw [fetch, h]

theorem fetch_putIn {a : Nat} {b : Byte} {rest : List HostMove} (h : s.outside.script = .putIn a b :: rest) :
    fetch s = .moved (.next { s.withScript rest with outside.inp := s.outside.inp.write a b }) := by
  rw [fetch, h]
  rfl

theorem fetch_newSink {rest : List HostMove} (h : s.outside.script = .newSink :: rest) :
    fetch s = .moved (.next { s.withScript rest with outside.out := [] }) := by
  rw [fetch, h]

theorem fetch_inPort {b : Bool} {rest : List HostMove} (h : s.outside.script = .inPort b :: rest) :
    fetch s = .moved (.next { s.withScript rest with outside.inAnswers := b }) := by
  rw [fetch, h]

theorem fetch_outPort {b : Bool} {rest : List HostMove} (h : s.outside.script = .outPort b :: rest) :
    fetch s = .moved (.next { s.withScript rest with outside.outAccepts := b }) := by
  rw [fetch, h]

theorem fetch_rst {level : Bool} {rest : List HostMove} (h : s.outside.script = .rst level :: rest) :
    fetch s = .moved (.next (if level then (s.withScript rest).assertReset else (s.withScript rest).releaseReset)) := by
  rw [fetch, h]
  cases level <;> rfl

theorem writeTurn_cmd (w : Word) (s : State) : writeTurn 0x00 4 w s = .instr (decodeCmd w) s := rfl

theorem writeTurn_other {off : Word} (v : Word) (s : State) (ha : off.toNat % 4 = 0) (h0 : off ≠ 0x00) :
    writeTurn off 4 v s = .moved (.next (s.regWrite off v)) := by
  rw [writeTurn, if_pos (wholeAccess_iff.2 ⟨rfl, ha⟩), if_neg h0]

theorem writeTurn_refused {off : Word} {n : Nat} (v : Word) (s : State) (h : n ≠ 4 ∨ off.toNat % 4 ≠ 0) :
    writeTurn off n v s = .moved (.refused (.registerAccess off n)) := by
  rw [writeTurn, wholeAccess_eq_false_iff.2 h]
  rfl

/-- What a move of the host other than a write to `CMD` leaves: surroundings that differ, where `rst` is asserted by
`assertReset` only; a register written; or the reset state. -/
inductive HostLeaves (s : State) : State → Prop
  | outside (o : Outside) (hi : s.outside.inp.wf → o.inp.wf) (ho : s.outside.out.wf → o.out.wf)
      (hr : o.rst = true → s.outside.rst = true) : HostLeaves s { s with outside := o }
  | regWrite (rest : List HostMove) (off v : Word) : HostLeaves s ((s.withScript rest).regWrite off v)
  | reset (rest : List HostMove) : HostLeaves s (s.withScript rest).assertReset

/-- Everything `fetch` can answer. -/
theorem fetch_cases (s : State) :
    (∃ rest, fetch s = sequencerTurn (s.withScript rest)) ∨
    (∃ w rest, s.outside.script = wrCmd w :: rest ∧ fetch s = .instr (decodeCmd w) (s.withScript rest)) ∨
    (∃ t, fetch s = .moved (.next t) ∧ HostLeaves s t) ∨
    (∃ off n, fetch s = .moved (.refused (.registerAccess off n)) ∧ (n ≠ 4 ∨ off.toNat % 4 ≠ 0)) := by
  have self : ∀ rest, s.outside.script = rest → s.withScript rest = s := fun rest h => by rw [← h]; rfl
  cases hs : s.outside.script with
  | nil => exact .inl ⟨[], by rw [self _ hs, fetch_nil hs]⟩
  | cons m rest =>
    cases m with
    | regWrite off n v =>
      rw [fetch_regWrite hs]
      by_cases ha : n = 4 ∧ off.toNat % 4 = 0
      · obtain ⟨rfl, ha⟩ := ha
        by_cases h0 : off = 0x00
        · subst h0
          exact .inr (.inl ⟨v, rest, rfl, rfl⟩)
        · exact .inr (.inr (.inl ⟨_, writeTurn_other v _ ha h0, .regWrite rest off v⟩))
      · have hbad : n ≠ 4 ∨ off.toNat % 4 ≠ 0 := by tauto
        exact .inr (.inr (.inr ⟨off, n, writeTurn_refused v _ hbad, hbad⟩))
    | regRead off n =>
      rw [fetch_regRead hs]
      cases ha : wholeAccess off n with
      | true => exact .inr (.inr (.inl ⟨_, rfl, .outside _ id id id⟩))
      | false => exact .inr (.inr (.inr ⟨off, n, rfl, wholeAccess_eq_false_iff.1 ha⟩))
    | run n =>
      match n with
      | 0 => exact .inr (.inr (.inl ⟨_, fetch_run_zero hs, .outside _ id id id⟩))
      | 1 => exact .inl ⟨rest, fetch_run_one hs⟩
      | n + 2 => exact .inl ⟨_, fetch_run_more hs⟩
    | wait =>
      rw [fetch_wait hs]
      cases s.busy with
      | true => exact .inl ⟨.wait :: rest, by rw [self _ hs]; rfl⟩
      | false => exact .inr (.inr (.inl ⟨_, rfl, .outside _ id id id⟩))
    | putIn a b => exact .inr (.inr (.inl ⟨_, fetch_putIn hs, .outside _ (Memory.write_wf · a b) id id⟩))
    | newSink => exact .inr (.inr (.inl ⟨_, fetch_newSink hs, .outside _ id (fun _ => Memory.wf_nil) id⟩))
    | inPort b => exact .inr (.inr (.inl ⟨_, fetch_inPort hs, .outside _ id id id⟩))
    | outPort b => exact .inr (.inr (.inl ⟨_, fetch_outPort hs, .outside _ id id id⟩))
    | rst level =>
      cases level with
      | true => exact .inr (.inr (.inl ⟨_, fetch_rst hs, .reset rest⟩))
      | false => exact .inr (.inr (.inl ⟨_, fetch_rst hs, .outside _ id id nofun⟩))

/-! ### The invariant over one step -/

/-- From the invariant the instruction `PHASE` selects answers a next state with it. -/
theorem exec_phase_fine {i : Instr} (h : Inv s) (hi : decode (.phase s.phase.code) = .ok i) : Fine (exec i s) := by
  cases hp : s.phase <;> rw [hp] at hi <;> cases hi
  case idle => exact .of h
  case count => exact execCount_fine h hp
  case loadhdr => exact execLoadhdr_fine h hp
  case build => exact execBuild_fine h hp
  case emithdr => exact execEmithdr_fine h hp
  case codegen => exact execCodegen_fine h hp
  case pack => exact execPack_fine h hp
  case finish => exact execFinish_fine h hp
  case rdtrailer => exact execRdtrailer_fine h hp
  case unpack => exact execUnpack_fine h hp
  case endcheck => exact execEndcheck_fine h hp

/-- From the invariant every command answers a next state with it. -/
theorem exec_cmd_fine (h : Inv s) (w : Word) : Fine (exec (decodeCmd w) s) := by
  unfold decodeCmd
  split
  · exact execNop_fine h
  split
  · exact execCompress_fine h
  split
  · exact execDecompress_fine h
  split
  · exact execClear_fine h
  · exact execReservedCmd_fine h w

theorem sequencerTurn_fine (h : Inv s) : Fine (sequencerTurn s).outcome := by
  cases hr : s.outside.rst with
  | true =>
    rw [sequencerTurn, hr]
    exact .of h
  | false =>
    obtain ⟨i, hi, -⟩ := phase_selects s.phase
    rw [sequencerTurn_eq hr hi]
    exact exec_phase_fine h hi

theorem HostLeaves.inv (h : Inv s) (ht : HostLeaves s t) : Inv t := by
  cases ht with
  | outside o hi ho hr => exact h.outsideOnly (hi h.inp_wf) (ho h.out_wf) fun hr' => h.rst_idle (hr hr')
  | regWrite rest off v => exact (h.withScript rest).regWrite off v
  | reset rest => exact (h.withScript rest).assertReset

/-- From the invariant a step answers a next state with it, or refuses an access that R20 excludes. -/
theorem step_fine_or_refused (h : Inv s) :
    Fine (step s) ∨ ∃ off n, step s = .refused (.registerAccess off n) ∧ (n ≠ 4 ∨ off.toNat % 4 ≠ 0) := by
  rw [step_eq_outcome]
  obtain ⟨rest, e⟩ | ⟨w, rest, -, e⟩ | ⟨t, e, ht⟩ | ⟨off, n, e, hbad⟩ := fetch_cases s
  · exact .inl (e ▸ sequencerTurn_fine (h.withScript rest))
  · exact .inl (e ▸ exec_cmd_fine (h.withScript rest) w)
  · exact .inl (e ▸ .of (ht.inv h))
  · exact .inr ⟨off, n, by rw [e]; rfl, hbad⟩

/-- Settles O57: by the cases of what a step can do, each of which keeps the invariant. -/
theorem stepKeepsInvariant : Obligations.StepKeepsInvariant := by
  intro s t h he
  obtain ⟨u, hu, hinv⟩ | ⟨off, n, hr, -⟩ := step_fine_or_refused h
  · cases he.symm.trans hu
    exact hinv
  · cases he.symm.trans hr

/-- Settles O58: each phase is total on the invariant's positions, and only a register access is ever refused. -/
theorem nothingStops : Obligations.NothingStops := by
  intro s h
  refine ⟨fun i hi => ?_, ?_⟩
  · obtain ⟨t, ht, -⟩ := exec_phase_fine h hi
    exact ⟨t, ht⟩
  · obtain ⟨t, ht, -⟩ | hr := step_fine_or_refused h
    · exact .inl ⟨t, ht⟩
    · exact .inr hr

/-! ### The instruction a step runs -/

theorem step_of_fetch_instr {i : Instr} {u : State} (h : fetch s = .instr i u) : step s = exec i u := by
  rw [step_eq_outcome, h]
  rfl

theorem step_of_fetch_moved {o : Res} (h : fetch s = .moved o) : step s = o := by
  rw [step_eq_outcome, h]
  rfl

theorem step_of_wrCmd {w : Word} {rest : List HostMove} (h : s.outside.script = wrCmd w :: rest) :
    step s = exec (decodeCmd w) (s.withScript rest) :=
  step_of_fetch_instr ((fetch_regWrite h).trans (writeTurn_cmd w _))

/-- A step that is the sequencer's runs what `PHASE` selects. -/
theorem step_of_turn {i : Instr} {sc : List HostMove} (hr : s.outside.rst = false)
    (hi : decode (.phase s.phase.code) = .ok i) (hf : fetch s = sequencerTurn (s.withScript sc)) :
    step s = exec i (s.withScript sc) :=
  step_of_fetch_instr (hf.trans (sequencerTurn_eq (s := s.withScript sc) hr hi))

/-- Settles O4, by the equations of `fetch`. -/
theorem stepRunsDecoded : Obligations.StepRunsDecoded := by
  refine fun s i => ⟨fun w rest hs hi => ?_, fun hr hi => ⟨fun hs => ?_, fun rest hs => ?_, fun n rest hs => ?_,
    fun rest hs hp => ?_⟩⟩
  · cases hi
    exact step_of_wrCmd hs
  · exact step_of_turn (sc := s.outside.script) hr hi (fetch_nil hs)
  · exact step_of_turn hr hi (fetch_run_one hs)
  · exact step_of_turn hr hi (fetch_run_more hs)
  · refine step_of_turn (sc := s.outside.script) hr hi ?_
    rw [fetch_wait hs, if_pos ((State.busy_iff s).2 hp)]
    rfl

/-! ### A placed word -/

theorem decodeTableWord_eq_some {nbits w : Nat} {i : Instr} (h : decodeTableWord nbits w = some i) :
    ∃ cw, tableWord nbits w = some cw ∧ decode cw = .ok i := by
  unfold decodeTableWord at h
  cases hw : tableWord nbits w with
  | none => simp [hw] at h
  | some cw =>
    cases hd : decode cw with
    | error e => simp [hw, hd] at h
    | ok j =>
      refine ⟨cw, rfl, ?_⟩
      simpa [hw, hd] using h

/-- A code that decodes is the code of a phase (30_encoding.md R69). -/
theorem ofCode_of_decode {c : BitVec 4} {i : Instr} (h : decode (.phase c) = .ok i) :
    ∃ p, Phase.ofCode c = some p ∧ p.code = c := by
  have assigned : ∀ c : BitVec 4, (Phase.ofCode c).map Phase.code = some c ∨
      decode (.phase c) = .error (.unassignedPhase c) := by decide
  obtain h' | h' := assigned c
  · exact Option.map_eq_some_iff.1 h'
  · rw [h] at h'
    cases h'

theorem encode_of_decode_phase {p : Phase} {i : Instr} (h : decode (.phase p.code) = .ok i) :
    encode i = .phase p.code := by
  cases p <;> cases h <;> rfl

/-- Settles O5: a placed command is the host's next move, a placed phase is where the sequencer stands. -/
theorem placedWordRuns : Obligations.PlacedWordRuns := by
  intro s nbits w i h
  obtain ⟨cw, hw, hd⟩ := decodeTableWord_eq_some h
  have hplace : s.withFetchWord nbits w = placeCodeWord s cw := by rw [State.withFetchWord, hw]
  rw [hplace]
  cases cw with
  | cmd v =>
    cases hd
    exact ⟨s, step_of_wrCmd (s := placeCodeWord s (.cmd v)) rfl, .inl rfl, rfl, rfl, rfl, rfl, rfl, rfl, rfl, rfl⟩
  | phase c =>
    obtain ⟨p, hp, rfl⟩ := ofCode_of_decode hd
    have hplaced : placeCodeWord s (.phase p.code) = { s.goto p with
        outside.script := .run 1 :: s.outside.script, outside.rst := false, inLen := leastInLen p s.inLen } := by
      rw [placeCodeWord, hp]
      rfl
    rw [hplaced]
    exact ⟨_, step_of_turn rfl hd (fetch_run_one rfl), .inr ⟨encode_of_decode_phase hd, rfl⟩,
      rfl, rfl, rfl, rfl, rfl, rfl, rfl, rfl⟩

end Sys2Proof.Machine
end

section
/-!
PROOFS. What each instruction can answer (10_state.md R12 to R26): the fields of the state it may write, said once for
each meaning, and the faults it may stop with (logs 11 to 13); the frames over all instructions follow.
-/
namespace Sys2Proof.Machine

variable {s t : State} {ok : State → Prop} {bad : Fault → Prop}

/-! ### Outcomes -/

/-- The next state is one of `ok`, a fault is one of `bad`, and there is no refusal. -/
def Answers (ok : State → Prop) (bad : Fault → Prop) : Res → Prop
  | .next t => ok t
  | .fault r => bad r
  | .refused _ => False

theorem Answers.next {r : Res} (h : Answers ok bad r) (e : r = .next t) : ok t := by
  subst e
  exact h

theorem Answers.fault {r : Res} {f : Fault} (h : Answers ok bad r) (e : r = .fault f) : bad f := by
  subst e
  exact h

theorem Answers.not_refused {r : Res} (h : Answers ok bad r) (q : Refusal) : r ≠ .refused q := by
  rintro rfl
  exact h

theorem answers_inByte {a : Nat} {k : Byte → Res} (wait : ok s) (hf : s.inLen.toNat ≤ a → bad (.inputAddress a))
    (hk : ∀ b, Answers ok bad (k b)) : Answers ok bad (inByte s a k) := by
  unfold inByte
  split
  · next h => exact hf h
  · split
    · exact hk _
    · exact wait

theorem answers_whenAccepted {k : Res} (wait : ok s) (hk : Answers ok bad k) :
    Answers ok bad (whenAccepted s k) := by
  unfold whenAccepted
  split
  · exact hk
  · exact wait

theorem answers_accepted {k : Res} (dropped : ok s)
    (hk : s.phase = .idle → s.outside.rst = false → Answers ok bad k) : Answers ok bad (accepted s k) := by
  unfold accepted
  split
  · exact dropped
  · next hc =>
    obtain ⟨hb, hr⟩ : s.busy = false ∧ s.outside.rst = false := by simpa using hc
    exact hk ((State.busy_eq_false_iff s).1 hb) hr

/-! ### The effects and the faults of every instruction -/

/-- What a command taken from IDLE may leave; a dropped one leaves `s` (40_commands.md R80, 70_reset_and_hazards.md R210). -/
def Taken (s : State) (done : State → Prop) (t : State) : Prop :=
  t = s ∨ s.phase = .idle ∧ s.outside.rst = false ∧ done t

/-- The fields an instruction may write, and how it may end by `raise` or `done`. -/
def Effect (s : State) : Instr → State → Prop
  | .nop | .idle => fun t => t = s
  | .compress => Taken s fun t =>
    t = (s.clearFor .comp).goto .count ∨ t = (s.clearFor .comp).raise .toolarge
  | .decompress => Taken s fun t =>
    t = (s.clearFor .decomp).goto .loadhdr ∨ ∃ e, t = (s.clearFor .decomp).raise e
  | .clear => Taken s fun t => t = s.clearFor .none
  | .reservedCmd _ => Taken s fun t => t = s.raise .illcmd
  | .count => fun t => ∃ phase stage pos byte vidx freq, t = { s with
      phase := phase, stage := stage, work.pos := pos, work.byte := byte, work.vidx := vidx, tab.freq := freq }
  | .loadhdr => fun t => ∃ phase stage pos sum vidx freq, ∃ u : State, u = { s with
      phase := phase, stage := stage, work.pos := pos, work.sum := sum, work.vidx := vidx, tab.freq := freq } ∧
      (t = u ∨ t = u.raise .sum)
  | .build => fun t => ∃ phase stage vidx sidx sela selb live next root node slot, t = { s with
      phase := phase, stage := stage, work.vidx := vidx, work.sidx := sidx, work.sela := sela, work.selb := selb
      work.live := live, work.next := next, work.root := root, tab.node := node, tab.slot := slot }
  | .emithdr => fun t => ∃ phase stage outCnt out vidx, t = { s with
      phase := phase, stage := stage, outCnt := outCnt, outside.out := out, work.vidx := vidx }
  | .codegen => fun t => ∃ phase stage code, t = { s with phase := phase, stage := stage, tab.code := code }
  | .pack => fun t => ∃ phase stage outCnt out acc free pos cidx byte, t = { s with
      phase := phase, stage := stage, outCnt := outCnt, outside.out := out, work.acc := acc, work.free := free
      work.pos := pos, work.cidx := cidx, work.byte := byte }
  | .finish => fun t => ∃ stage outCnt out acc, ∃ u : State, u = { s with
      stage := stage, outCnt := outCnt, outside.out := out, work.acc := acc } ∧ (t = u ∨ t = u.complete)
  | .rdtrailer => fun t => ∃ phase stage padreg dlen, ∃ u : State, u = { s with
      phase := phase, stage := stage, work.padreg := padreg, work.dlen := dlen } ∧ (t = u ∨ t = u.raise .pad)
  | .unpack => fun t => ∃ phase stage outCnt out pos byte bcnt cur, ∃ u : State, u = { s with
      phase := phase, stage := stage, outCnt := outCnt, outside.out := out, work.pos := pos, work.byte := byte
      work.bcnt := bcnt, work.cur := cur } ∧ (t = u ∨ t = u.raise .excess)
  | .endcheck => fun t => t = s.complete ∨ ∃ e, t = s.raise e

/-- The faults an instruction may stop with. -/
def Stops (s : State) (i : Instr) : Fault → Prop
  | .inputAddress a =>
    s.inLen.toNat ≤ a ∧ (i = .count ∨ i = .loadhdr ∨ i = .pack ∨ i = .rdtrailer ∨ i = .unpack)
  | .arenaIndex n => (n < 256 ∧ i = .unpack) ∨ (511 ≤ n ∧ (i = .build ∨ i = .codegen ∨ i = .unpack))
  | .emptySelect => 255 ≤ s.work.sidx.toNat ∧ i = .build
  | .codeBit v k => (s.tab.code.entry v).bits.length ≤ k ∧ i = .pack
  | .codePath n => 255 < n ∧ i = .codegen
  | .sequencerPosition => ∃ p : Phase, decode (.phase p.code) = .ok i ∧ p.owns s.stage = false

/-- The instruction's outcome is within its effects and faults. -/
abbrev Within (s : State) (i : Instr) (r : Res) : Prop := Answers (Effect s i) (Stops s i) r

/-- A position that is none of the phase's. -/
theorem within_foreign {p : Phase} {i : Instr} {st : Stage} (hs : s.stage = st) (hi : decode (.phase p.code) = .ok i)
    (ho : p.owns st = false) : Within s i (.fault .sequencerPosition) := ⟨p, hi, hs ▸ ho⟩

theorem children?_eq_none {a : Arena} {n : BitVec 9} (h : Arena.children? a n = none) : n.toNat < 256 ∨ 511 ≤ n.toNat := by
  by_contra hn
  obtain ⟨nd, hnd⟩ := Arena.node?_eq_some (a := a) (n := n) (by omega)
  rw [Arena.children?_eq_some.2 ⟨by omega, nd, hnd, rfl⟩] at h
  cases h

/-! ### One meaning after the other -/

theorem execCompress_within (s : State) : Within s .compress (execCompress s) := by
  refine answers_accepted (.inl rfl) fun hp hr => ?_
  simp only
  split
  · exact .inr ⟨hp, hr, .inr rfl⟩
  · exact .inr ⟨hp, hr, .inl rfl⟩

theorem execDecompress_within (s : State) : Within s .decompress (execDecompress s) := by
  refine answers_accepted (.inl rfl) fun hp hr => ?_
  simp only
  split
  · exact .inr ⟨hp, hr, .inr ⟨_, rfl⟩⟩
  split
  · exact .inr ⟨hp, hr, .inr ⟨_, rfl⟩⟩
  · exact .inr ⟨hp, hr, .inl rfl⟩

theorem clearEntry_effect (v : BitVec 9) (s : State) : Effect s .count (clearEntry v s) := by
  unfold clearEntry
  simp only
  split
  · exact ⟨_, _, _, _, _, _, rfl⟩
  split <;> exact ⟨_, _, _, _, _, _, rfl⟩

theorem execCount_within (s : State) : Within s .count (execCount s) := by
  unfold execCount
  cases hs : s.stage with
  | entry => exact clearEntry_effect 0 s
  | clear => exact clearEntry_effect s.work.vidx s
  | tally =>
    refine answers_inByte ⟨_, _, _, _, _, _, rfl⟩ (fun h => ⟨h, .inl rfl⟩) fun b => ?_
    simp only
    split <;> exact ⟨_, _, _, _, _, _, rfl⟩
  | _ => exact within_foreign (p := .count) hs rfl rfl

theorem loadEntry_effect (b0 b1 b2 b3 : Byte) (s : State) : Effect s .loadhdr (loadEntry b0 b1 b2 b3 s) := by
  unfold loadEntry
  simp only
  split
  · exact ⟨_, _, _, _, _, _, _, rfl, .inl rfl⟩
  · unfold checkSum
    split
    · exact ⟨s.phase, s.stage, _, _, _, _, _, rfl, .inr rfl⟩
    · exact ⟨_, _, _, _, _, _, _, rfl, .inl rfl⟩

theorem owns_load (got : List Byte) : Phase.owns .loadhdr (.load got) = decide (got.length ≤ 3) := rfl

theorem loadByte_within {got : List Byte} (hs : s.stage = .load got) : Within s .loadhdr (loadByte got s) := by
  have wait : Effect s .loadhdr s := ⟨_, _, _, _, _, _, _, rfl, .inl rfl⟩
  have outside : ∀ {a}, s.inLen.toNat ≤ a → Stops s .loadhdr (.inputAddress a) := fun h => ⟨h, .inr (.inl rfl)⟩
  unfold loadByte
  split
  · exact answers_inByte wait outside fun b => ⟨_, _, _, _, _, _, _, rfl, .inl rfl⟩
  · exact answers_inByte wait outside fun b => ⟨_, _, _, _, _, _, _, rfl, .inl rfl⟩
  · exact answers_inByte wait outside fun b => ⟨_, _, _, _, _, _, _, rfl, .inl rfl⟩
  · exact answers_inByte wait outside fun b => loadEntry_effect _ _ _ b s
  · next h0 h1 h2 h3 =>
    refine within_foreign (p := .loadhdr) hs rfl ?_
    match got with
    | [] => exact absurd rfl h0
    | [b0] => exact absurd rfl (h1 b0)
    | [b0, b1] => exact absurd rfl (h2 b0 b1)
    | [b0, b1, b2] => exact absurd rfl (h3 b0 b1 b2)
    | _ :: _ :: _ :: _ :: _ =>
      rw [owns_load, decide_eq_false_iff_not]
      simp only [List.length_cons]
      omega

theorem execLoadhdr_within (s : State) : Within s .loadhdr (execLoadhdr s) := by
  unfold execLoadhdr
  cases hs : s.stage with
  | entry =>
    exact answers_inByte ⟨_, _, _, _, _, _, _, rfl, .inl rfl⟩ (fun h => ⟨h, .inr (.inl rfl)⟩)
      fun b => ⟨_, _, _, _, _, _, _, rfl, .inl rfl⟩
  | load got => exact loadByte_within hs
  | _ => exact within_foreign (p := .loadhdr) hs rfl rfl

theorem initLeaf_effect (v : BitVec 9) (s : State) : Effect s .build (initLeaf v s) := by
  unfold initLeaf
  simp only
  split <;> exact ⟨_, _, _, _, _, _, _, _, _, _, _, rfl⟩

theorem scanSlot_within {ex best : Option Byte} {again : Option Byte → Stage} {found : Byte → State → State}
    (hf : ∀ b, Effect s .build (found b { s with work.sidx := s.work.sidx + 1 })) :
    Within s .build (scanSlot ex best again found s) := by
  unfold scanSlot
  split
  · exact .inr ⟨Nat.le_refl 511, .inl rfl⟩
  · simp only
    split
    · exact ⟨_, _, _, _, _, _, _, _, _, _, _, rfl⟩
    · next hl =>
      split
      · exact ⟨Nat.le_of_not_lt hl, rfl⟩
      · exact hf _

theorem mergeStep_within (s : State) : Within s .build (mergeStep s) := by
  unfold mergeStep
  simp only
  split
  · split
    · unfold nextMerge
      simp only [Answers]
      split <;> exact ⟨_, _, _, _, _, _, _, _, _, _, _, rfl⟩
    · next hn => exact .inr ⟨Nat.le_of_not_lt hn, .inl rfl⟩
  · exact .inr ⟨Nat.le_refl 511, .inl rfl⟩

theorem takeRoot_effect (s : State) : Effect s .build (takeRoot s) := by
  unfold takeRoot
  simp only
  split <;> exact ⟨_, _, _, _, _, _, _, _, _, _, _, rfl⟩

theorem execBuild_within (s : State) : Within s .build (execBuild s) := by
  unfold execBuild
  cases hs : s.stage with
  | entry => exact initLeaf_effect 0 s
  | initLeaf => exact initLeaf_effect s.work.vidx s
  | scanA best => exact scanSlot_within fun b => ⟨_, _, _, _, _, _, _, _, _, _, _, rfl⟩
  | scanB best => exact scanSlot_within fun b => ⟨_, _, _, _, _, _, _, _, _, _, _, rfl⟩
  | merge => exact mergeStep_within s
  | root => exact takeRoot_effect s
  | _ => exact within_foreign (p := .build) hs rfl rfl

theorem emitCountByte_within (v : BitVec 9) (k : Fin 4) (s : State) : Within s .emithdr (emitCountByte v k s) := by
  refine answers_whenAccepted ⟨_, _, _, _, _, rfl⟩ ?_
  simp only
  split
  · exact ⟨_, _, _, _, _, rfl⟩
  split <;> exact ⟨_, _, _, _, _, rfl⟩

theorem execEmithdr_within (s : State) : Within s .emithdr (execEmithdr s) := by
  unfold execEmithdr
  cases hs : s.stage with
  | entry => exact emitCountByte_within 0 0 s
  | emit k => exact emitCountByte_within s.work.vidx k s
  | _ => exact within_foreign (p := .emithdr) hs rfl rfl

theorem visitNode_within (n : BitVec 9) (path : List Bool) (rest : List (BitVec 9 × List Bool)) (s : State) :
    Within s .codegen (visitNode n path rest s) := by
  unfold visitNode
  split
  · split
    · cases rest <;> exact ⟨_, _, _, rfl⟩
    · next hl => exact ⟨Nat.lt_of_not_le hl, rfl⟩
  · next h256 =>
    split
    · next hc =>
      obtain h | h := children?_eq_none hc
      · exact absurd h h256
      · exact .inr ⟨h, .inr (.inl rfl)⟩
    · exact ⟨_, _, _, rfl⟩

theorem execCodegen_within (s : State) : Within s .codegen (execCodegen s) := by
  unfold execCodegen
  cases hs : s.stage with
  | entry => exact visitNode_within _ _ _ s
  | visit todo =>
    cases todo with
    | nil => exact within_foreign (p := .codegen) hs rfl rfl
    | cons x rest => exact visitNode_within _ _ _ s
  | _ => exact within_foreign (p := .codegen) hs rfl rfl

theorem packPush_within (s : State) : Within s .pack (packPush s) := by
  have next : ∀ u : State, (∃ outCnt out acc free, u = { s with
      outCnt := outCnt, outside.out := out, work.acc := acc, work.free := free }) → Effect s .pack (packNextBit u) := by
    rintro _ ⟨_, _, _, _, rfl⟩
    unfold packNextBit packNextByte
    simp only
    split
    · exact ⟨_, _, _, _, _, _, _, _, _, rfl⟩
    split <;> exact ⟨_, _, _, _, _, _, _, _, _, rfl⟩
  unfold packPush
  split
  · next h => exact ⟨List.getElem?_eq_none_iff.1 h, rfl⟩
  · unfold pushBit
    split
    · exact answers_whenAccepted ⟨_, _, _, _, _, _, _, _, _, rfl⟩ (next _ ⟨_, _, _, _, rfl⟩)
    · exact next _ ⟨_, _, _, _, rfl⟩

theorem execPack_within (s : State) : Within s .pack (execPack s) := by
  unfold execPack
  cases hs : s.stage with
  | entry =>
    unfold packStart
    simp only [Answers]
    split <;> exact ⟨_, _, _, _, _, _, _, _, _, rfl⟩
  | fetch =>
    refine answers_inByte ⟨_, _, _, _, _, _, _, _, _, rfl⟩ (fun h => ⟨h, .inr (.inr (.inl rfl))⟩) fun b => ?_
    simp only
    split
    · unfold packNextByte
      simp only [Answers]
      split <;> exact ⟨_, _, _, _, _, _, _, _, _, rfl⟩
    · exact ⟨_, _, _, _, _, _, _, _, _, rfl⟩
  | push => exact packPush_within s
  | _ => exact within_foreign (p := .pack) hs rfl rfl

theorem finishTrailer_within (s : State) : Within s .finish (finishTrailer s) :=
  answers_whenAccepted ⟨_, _, _, _, _, rfl, .inl rfl⟩ ⟨s.stage, _, _, _, _, rfl, .inr rfl⟩

theorem execFinish_within (s : State) : Within s .finish (execFinish s) := by
  unfold execFinish
  cases hs : s.stage with
  | entry =>
    show Within s .finish (finishData s)
    unfold finishData
    split
    · exact finishTrailer_within s
    split <;> exact answers_whenAccepted ⟨_, _, _, _, _, rfl, .inl rfl⟩ ⟨_, _, _, _, _, rfl, .inl rfl⟩
  | trailer => exact finishTrailer_within s
  | _ => exact within_foreign (p := .finish) hs rfl rfl

theorem execRdtrailer_within (s : State) : Within s .rdtrailer (execRdtrailer s) := by
  unfold execRdtrailer
  cases hs : s.stage with
  | entry =>
    refine answers_inByte ⟨_, _, _, _, _, rfl, .inl rfl⟩ (fun h => ⟨h, .inr (.inr (.inr (.inl rfl)))⟩) fun b => ?_
    simp only
    split
    · exact ⟨s.phase, s.stage, _, _, _, rfl, .inr rfl⟩
    split
    · exact ⟨s.phase, s.stage, _, _, _, rfl, .inr rfl⟩
    · exact ⟨_, _, _, _, _, rfl, .inl rfl⟩
  | _ => exact within_foreign (p := .rdtrailer) hs rfl rfl

theorem unpackNextByte_effect {byte : BitVec 8} {bcnt : BitVec 4} {cur : BitVec 9} {outCnt : BitVec 40} {out : Memory}
    (s : State) : Effect s .unpack (unpackNextByte { s with
      outCnt := outCnt, outside.out := out, work.byte := byte, work.bcnt := bcnt, work.cur := cur }) := by
  unfold unpackNextByte
  simp only
  split <;> exact ⟨_, _, _, _, _, _, _, _, _, rfl, .inl rfl⟩

theorem unpackShift_effect {cur : BitVec 9} {outCnt : BitVec 40} {out : Memory} (s : State) :
    Effect s .unpack (unpackShift { s with outCnt := outCnt, outside.out := out, work.cur := cur }) := by
  unfold unpackShift
  simp only
  split
  · exact unpackNextByte_effect s
  · exact ⟨_, _, _, _, _, _, _, _, _, rfl, .inl rfl⟩

theorem walkBit_within (s : State) : Within s .unpack (walkBit s) := by
  unfold walkBit
  split
  · next hc =>
    obtain h | h := children?_eq_none hc
    · exact .inl ⟨h, rfl⟩
    · exact .inr ⟨h, .inr (.inr rfl)⟩
  · simp only
    split
    · unfold leaf
      split
      · exact ⟨s.phase, s.stage, _, _, _, _, _, _, _, rfl, .inr rfl⟩
      · exact answers_whenAccepted ⟨_, _, _, _, _, _, _, _, _, rfl, .inl rfl⟩ (unpackShift_effect s)
    · exact unpackShift_effect s

theorem execUnpack_within (s : State) : Within s .unpack (execUnpack s) := by
  unfold execUnpack
  cases hs : s.stage with
  | entry =>
    unfold unpackStart
    simp only [Answers]
    split <;> exact ⟨_, _, _, _, _, _, _, _, _, rfl, .inl rfl⟩
  | fetch =>
    refine answers_inByte ⟨_, _, _, _, _, _, _, _, _, rfl, .inl rfl⟩ (fun h => ⟨h, .inr (.inr (.inr (.inr rfl)))⟩)
      fun b => ?_
    simp only
    split
    · exact unpackNextByte_effect s
    · exact ⟨_, _, _, _, _, _, _, _, _, rfl, .inl rfl⟩
  | walk => exact walkBit_within s
  | _ => exact within_foreign (p := .unpack) hs rfl rfl

theorem execEndcheck_within (s : State) : Within s .endcheck (execEndcheck s) := by
  unfold execEndcheck
  cases hs : s.stage with
  | entry =>
    unfold endCheck
    simp only [Answers]
    split
    · exact .inr ⟨_, rfl⟩
    split
    · exact .inr ⟨_, rfl⟩
    · exact .inl rfl
  | _ => exact within_foreign (p := .endcheck) hs rfl rfl

/-- What every instruction can answer. -/
theorem exec_within (i : Instr) (s : State) : Within s i (exec i s) := by
  cases i with
  | nop => exact answers_accepted rfl fun _ _ => rfl
  | compress => exact execCompress_within s
  | decompress => exact execDecompress_within s
  | clear => exact answers_accepted (.inl rfl) fun hp hr => .inr ⟨hp, hr, rfl⟩
  | reservedCmd w => exact answers_accepted (.inl rfl) fun hp hr => .inr ⟨hp, hr, rfl⟩
  | idle => rfl
  | count => exact execCount_within s
  | loadhdr => exact execLoadhdr_within s
  | build => exact execBuild_within s
  | emithdr => exact execEmithdr_within s
  | codegen => exact execCodegen_within s
  | pack => exact execPack_within s
  | finish => exact execFinish_within s
  | rdtrailer => exact execRdtrailer_within s
  | unpack => exact execUnpack_within s
  | endcheck => exact execEndcheck_within s

theorem exec_effect {i : Instr} (h : exec i s = .next t) : Effect s i t := (exec_within i s).next h

end Sys2Proof.Machine
end

section
/-!
PROOFS. The frames over all instructions (10_state.md R12 to R26).
-/
namespace Sys2Proof.Machine

variable {s t : State}

/-! ### Frames -/

/-- Settles O21: the fields of each instruction's effect are those the statement lists. -/
theorem workingStateWrittenBy : Obligations.WorkingStateWrittenBy := by
  intro i s t h
  have he := exec_effect h
  cases i with
  | nop | idle => cases he; simp
  | compress => obtain rfl | ⟨-, -, rfl | rfl⟩ := he <;> simp
  | decompress => obtain rfl | ⟨-, -, rfl | ⟨_, rfl⟩⟩ := he <;> simp
  | clear | reservedCmd => obtain rfl | ⟨-, -, rfl⟩ := he <;> simp
  | count => obtain ⟨_, _, _, _, _, _, rfl⟩ := he; simp
  | loadhdr => obtain ⟨_, _, _, _, _, _, _, rfl, rfl | rfl⟩ := he <;> simp
  | build => obtain ⟨_, _, _, _, _, _, _, _, _, _, _, rfl⟩ := he; simp
  | emithdr => obtain ⟨_, _, _, _, _, rfl⟩ := he; simp
  | codegen => obtain ⟨_, _, _, rfl⟩ := he; simp
  | pack => obtain ⟨_, _, _, _, _, _, _, _, _, rfl⟩ := he; simp
  | finish => obtain ⟨_, _, _, _, _, rfl, rfl | rfl⟩ := he <;> simp
  | rdtrailer => obtain ⟨_, _, _, _, _, rfl, rfl | rfl⟩ := he <;> simp
  | unpack => obtain ⟨_, _, _, _, _, _, _, _, _, rfl, rfl | rfl⟩ := he <;> simp
  | endcheck => obtain rfl | ⟨_, rfl⟩ := he <;> simp

/-- Settles O22: only FINISH and ENDCHECK end by `done`; acceptance and `raise` clear `DONE`. -/
theorem flagsWrittenBy : Obligations.FlagsWrittenBy := by
  intro i s t h
  have he := exec_effect h
  cases i with
  | nop | idle => cases he; simp
  | compress => obtain rfl | ⟨-, -, rfl | rfl⟩ := he <;> simp
  | decompress => obtain rfl | ⟨-, -, rfl | ⟨_, rfl⟩⟩ := he <;> simp
  | clear | reservedCmd => obtain rfl | ⟨-, -, rfl⟩ := he <;> simp
  | count => obtain ⟨_, _, _, _, _, _, rfl⟩ := he; simp
  | loadhdr => obtain ⟨_, _, _, _, _, _, _, rfl, rfl | rfl⟩ := he <;> simp
  | build => obtain ⟨_, _, _, _, _, _, _, _, _, _, _, rfl⟩ := he; simp
  | emithdr => obtain ⟨_, _, _, _, _, rfl⟩ := he; simp
  | codegen => obtain ⟨_, _, _, rfl⟩ := he; simp
  | pack => obtain ⟨_, _, _, _, _, _, _, _, _, rfl⟩ := he; simp
  | finish => obtain ⟨_, _, _, _, _, rfl, rfl | rfl⟩ := he <;> simp +contextual
  | rdtrailer => obtain ⟨_, _, _, _, _, rfl, rfl | rfl⟩ := he <;> simp
  | unpack => obtain ⟨_, _, _, _, _, _, _, _, _, rfl, rfl | rfl⟩ := he <;> simp
  | endcheck => obtain rfl | ⟨_, rfl⟩ := he <;> simp

end Sys2Proof.Machine
end

section
/-!
PROOFS. Where each meaning stops by name, outside what the spec lets happen, and that it stops nowhere else (logs 11 to
13).
-/
namespace Sys2Proof.Machine

variable {s : State}

/-! ### The access and the position each meaning stops at -/

theorem inByte_fault {a : Nat} (k : Byte → Res) (h : s.inLen.toNat ≤ a) : inByte s a k = .fault (.inputAddress a) := by
  rw [inByte, if_pos h]

theorem headerAddress_eq (v : BitVec 9) : (headerAddress v).toNat = 4 * v.toNat := by
  have hv := v.isLt
  rw [headerAddress, BitVec.toNat_shiftLeft, BitVec.toNat_setWidth, Nat.shiftLeft_eq]
  omega

theorem loadByte_fault {got : List Byte} (h1 : 1 ≤ got.length) (h3 : got.length ≤ 3)
    (hl : s.inLen.toNat ≤ s.work.pos.toNat + got.length) :
    loadByte got s = .fault (.inputAddress (s.work.pos.toNat + got.length)) := by
  match got, h1, h3 with
  | [_], _, _ => rw [loadByte]; exact inByte_fault _ hl
  | [_, _], _, _ => rw [loadByte]; exact inByte_fault _ hl
  | [_, _, _], _, _ => rw [loadByte]; exact inByte_fault _ hl
  | _ :: _ :: _ :: _ :: _, _, h3 =>
    simp only [List.length_cons] at h3
    omega

theorem loadByte_long {got : List Byte} (h : 3 < got.length) : loadByte got s = .fault .sequencerPosition := by
  match got with
  | _ :: _ :: _ :: _ :: _ => rfl

/-- `IN_LEN - 1` wraps where `IN_LEN = 0`. -/
theorem readTrailer_fault (h : s.inLen = 0) : readTrailer s = .fault (.inputAddress 4294967295) := by
  have ha : (s.inLen - 1).toNat = 4294967295 := by rw [h]; rfl
  rw [readTrailer, ha]
  exact inByte_fault _ (by rw [h]; decide)

theorem node?_511 (a : Arena) : Arena.node? a 511 = none := Arena.node?_eq_none.2 (Nat.le_refl 511)

theorem slotWeight_511 {t : Tables} {i : Byte} (h : (t.slot.entry i).n = 511) : slotWeight t i = none := by
  rw [slotWeight, h, node?_511]

theorem execBuild_scan {ex best : Option Byte}
    (h : s.stage = .scanA best ∧ ex = none ∨ s.stage = .scanB best ∧ ex = some s.work.sela) :
    ∃ again found, execBuild s = scanSlot ex best again found s := by
  obtain ⟨hs, rfl⟩ | ⟨hs, rfl⟩ := h
  · exact ⟨.scanA, foundA, by simp only [execBuild, hs]⟩
  · exact ⟨.scanB, foundB, by simp only [execBuild, hs]⟩

theorem scanSlot_bad_weight {ex : Option Byte} {b i : Byte} {again : Option Byte → Stage} {found : Byte → State → State}
    (hi : i = s.work.sidx.setWidth 8) (hv : (s.tab.slot.entry i).v = true) (hx : ex ≠ some i)
    (hn : (s.tab.slot.entry i).n = 511 ∨ (s.tab.slot.entry b).n = 511) :
    scanSlot ex (some b) again found s = .fault (.arenaIndex 511) := by
  have hsel : selectVisit s.tab ex (some b) i = none := by
    rw [selectVisit, if_pos ⟨hv, hx⟩]
    obtain h | h := hn
    · simp only [slotWeight_511 h]
    · cases hw : slotWeight s.tab i <;> simp only [slotWeight_511 h]
  rw [scanSlot, ← hi, hsel]

theorem scanSlot_empty {ex : Option Byte} {i : Byte} {again : Option Byte → Stage} {found : Byte → State → State}
    (hi : i = s.work.sidx.setWidth 8) (hl : 255 ≤ s.work.sidx.toNat) (hv : (s.tab.slot.entry i).v = false ∨ ex = some i) :
    scanSlot ex none again found s = .fault .emptySelect := by
  have hsel : selectVisit s.tab ex none i = some none := by
    rw [selectVisit, if_neg]
    rintro ⟨hv', hx⟩
    obtain h | h := hv
    · exact Bool.noConfusion (hv'.symm.trans h)
    · exact hx h
  rw [scanSlot, ← hi, hsel]
  simp only [if_neg (Nat.not_lt.2 hl)]

theorem mergeStep_bad_slot (h : (s.tab.slot.entry s.work.sela).n = 511 ∨ (s.tab.slot.entry s.work.selb).n = 511) :
    mergeStep s = .fault (.arenaIndex 511) := by
  obtain h | h := h
  · simp only [mergeStep, h, node?_511]
  · simp only [mergeStep, h, node?_511]
    cases s.tab.node.node? (s.tab.slot.entry s.work.sela).n <;> rfl

theorem node?_of_ne {a : Arena} {n : BitVec 9} (h : n ≠ 511) : ∃ nd, Arena.node? a n = some nd :=
  Arena.node?_eq_some (by bv_omega)

theorem mergeStep_full (ha : (s.tab.slot.entry s.work.sela).n ≠ 511) (hb : (s.tab.slot.entry s.work.selb).n ≠ 511)
    (hn : 511 ≤ s.work.next.toNat) : mergeStep s = .fault (.arenaIndex s.work.next.toNat) := by
  obtain ⟨na, hna⟩ := node?_of_ne (a := s.tab.node) ha
  obtain ⟨nb, hnb⟩ := node?_of_ne (a := s.tab.node) hb
  simp only [mergeStep, hna, hnb, if_neg (Nat.not_lt.2 hn)]

theorem children?_511 (a : Arena) : Arena.children? a 511 = none := by
  rw [Arena.children?, if_neg (by decide), node?_511]

theorem visitNode_511 (p : List Bool) (rest : List (BitVec 9 × List Bool)) :
    visitNode 511 p rest s = .fault (.arenaIndex 511) := by
  rw [visitNode, if_neg (by decide), children?_511]
  rfl

theorem visitNode_long {n : BitVec 9} {p : List Bool} (rest : List (BitVec 9 × List Bool)) (hn : n.toNat < 256)
    (hp : 255 < p.length) : visitNode n p rest s = .fault (.codePath p.length) := by
  rw [visitNode, if_pos hn, if_neg (Nat.not_le.2 hp)]

theorem packPush_fault (h : (s.tab.code.entry s.work.byte).bits.length ≤ s.work.cidx.toNat) :
    packPush s = .fault (.codeBit s.work.byte s.work.cidx.toNat) := by
  rw [packPush, List.getElem?_eq_none h]

theorem walkBit_fault (h : s.work.cur.toNat < 256 ∨ s.work.cur = 511) :
    walkBit s = .fault (.arenaIndex s.work.cur.toNat) := by
  have hc : s.tab.node.children? s.work.cur = none := by
    obtain h | h := h
    · rw [Arena.children?, if_pos h]
    · rw [h, children?_511]
  rw [walkBit, hc]

theorem stage_ne_of_foreign {p : Phase} {st : Stage} (h : p.owns s.stage = false) (ho : p.owns st = true) :
    s.stage ≠ st := by
  rintro e
  rw [e, ho] at h
  cases h

/-- A phase stops at a position that is none of its own (log 13). -/
theorem exec_foreign {i : Instr} {p : Phase} (hi : decode (.phase p.code) = .ok i) (h : p.owns s.stage = false) :
    exec i s = .fault .sequencerPosition := by
  have foreign : ∀ {st}, p.owns st = true → s.stage ≠ st := stage_ne_of_foreign h
  cases p <;> cases hi
  case idle => cases h
  case count =>
    cases hs : s.stage with
    | entry | clear | tally => exact absurd hs (foreign rfl)
    | _ => simp only [exec, execCount, hs]
  case loadhdr =>
    cases hs : s.stage with
    | entry => exact absurd hs (foreign rfl)
    | load got =>
      rw [hs, owns_load, decide_eq_false_iff_not, Nat.not_le] at h
      simp only [exec, execLoadhdr, hs, loadByte_long h]
    | _ => simp only [exec, execLoadhdr, hs]
  case build =>
    cases hs : s.stage with
    | entry | initLeaf | scanA | scanB | merge | root => exact absurd hs (foreign rfl)
    | _ => simp only [exec, execBuild, hs]
  case emithdr =>
    cases hs : s.stage with
    | entry | emit => exact absurd hs (foreign rfl)
    | _ => simp only [exec, execEmithdr, hs]
  case codegen =>
    cases hs : s.stage with
    | entry => exact absurd hs (foreign rfl)
    | visit todo =>
      cases todo with
      | nil => simp only [exec, execCodegen, hs]
      | cons x rest => exact absurd hs (foreign rfl)
    | _ => simp only [exec, execCodegen, hs]
  case pack =>
    cases hs : s.stage with
    | entry | fetch | push => exact absurd hs (foreign rfl)
    | _ => simp only [exec, execPack, hs]
  case finish =>
    cases hs : s.stage with
    | entry | trailer => exact absurd hs (foreign rfl)
    | _ => simp only [exec, execFinish, hs]
  case rdtrailer =>
    cases hs : s.stage with
    | entry => exact absurd hs (foreign rfl)
    | _ => simp only [exec, execRdtrailer, hs]
  case unpack =>
    cases hs : s.stage with
    | entry | fetch | walk => exact absurd hs (foreign rfl)
    | _ => simp only [exec, execUnpack, hs]
  case endcheck =>
    cases hs : s.stage with
    | entry => exact absurd hs (foreign rfl)
    | _ => simp only [exec, execEndcheck, hs]

/-- Settles O59: each place by its own lemma, the converse and the absence of refusals by what an instruction can
answer. -/
theorem stopsOutsideTheSpec : Obligations.StopsOutsideTheSpec := by
  intro s
  refine ⟨⟨fun hs h => ?_, fun hs h0 => ⟨?_, ?_⟩, fun hs h => ?_, fun got hs h1 h3 h => ?_, fun hs h => ?_, fun hs h => ?_⟩,
    fun ex best i hi hs => ⟨fun b hb hv hx hn => ?_, fun hl hb hv => ?_⟩, fun hs => ⟨fun h => ?_, fun ha hb hn => ?_⟩,
    ⟨fun hs hr => ?_, fun p rest hs => ?_, fun n p rest hs hn hp => ?_⟩, fun hs h => ?_, fun hs h => ?_,
    fun i p hi h => exec_foreign hi h, fun i r h => ?_, fun i r => (exec_within i s).not_refused r⟩
  · simp only [exec, execCount, hs, tallyByte, inByte_fault _ h]
  · have hl : s.inLen.toNat ≤ 0 := by rw [h0]; decide
    simp only [exec, execLoadhdr, hs, loadFirst, inByte_fault _ hl]
  · simp only [exec, execRdtrailer, hs, readTrailer_fault h0]
  · rw [← headerAddress_eq] at h ⊢
    simp only [exec, execLoadhdr, hs, loadByte, inByte_fault _ h]
  · simp only [exec, execLoadhdr, hs, loadByte_fault h1 h3 h]
  · simp only [exec, execPack, hs, packFetch, inByte_fault _ h]
  · simp only [exec, execUnpack, hs, unpackFetch, inByte_fault _ h]
  · obtain ⟨again, found, e⟩ := execBuild_scan hs
    subst hb
    exact e.trans (scanSlot_bad_weight hi hv hx hn)
  · obtain ⟨again, found, e⟩ := execBuild_scan hs
    subst hb
    exact e.trans (scanSlot_empty hi hl hv)
  · simp only [exec, execBuild, hs, mergeStep_bad_slot h]
  · simp only [exec, execBuild, hs, mergeStep_full ha hb hn]
  · simp only [exec, execCodegen, hs, hr, visitNode_511]
  · simp only [exec, execCodegen, hs, visitNode_511]
  · simp only [exec, execCodegen, hs, visitNode_long rest hn hp]
  · simp only [exec, execPack, hs, packPush_fault h]
  · simp only [exec, execUnpack, hs, walkBit_fault h]
  · have hstop := (exec_within i s).fault h
    cases r <;> exact hstop

end Sys2Proof.Machine
end

section
/-!
PROOFS. Leaving IDLE (10_state.md R13), and the register port as the host sees it (R16 to R21).
-/
namespace Sys2Proof.Machine

variable {s t : State}

/-! ### Leaving IDLE -/

theorem HostLeaves.phase (h : HostLeaves s t) : t.phase = s.phase ∨ t.phase = .idle := by
  cases h with
  | outside => exact .inl rfl
  | regWrite rest off v =>
    unfold State.regWrite
    split
    · split <;> exact .inl rfl
    · exact .inl rfl
  | reset => exact .inr rfl

theorem step_of_idle_turn {sc : List HostMove} (hp : s.phase = .idle) (hf : fetch s = sequencerTurn (s.withScript sc)) :
    step s = .next (s.withScript sc) := by
  cases hr : s.outside.rst with
  | true =>
    refine step_of_fetch_moved (hf.trans ?_)
    rw [sequencerTurn, State.withScript_outside, hr]
    rfl
  | false => exact step_of_turn (i := .idle) hr (by rw [hp]; rfl) hf

theorem decodeCmd_eq_compress {w : Word} (h : decodeCmd w = .compress) : w = 1 := by
  simpa [h, encode] using (decodeCmd_encode w).symm

theorem decodeCmd_eq_decompress {w : Word} (h : decodeCmd w = .decompress) : w = 2 := by
  simpa [h, encode] using (decodeCmd_encode w).symm

/-- A command that leaves IDLE is an accepted COMPRESS or DECOMPRESS (40_commands.md R82, R83). -/
theorem exec_cmd_leaves_idle {w : Word} (hp : s.phase = .idle) (h : exec (decodeCmd w) s = .next t)
    (ht : t.phase ≠ .idle) :
    s.outside.rst = false ∧
      (w = 1 ∧ t = (s.clearFor .comp).goto .count ∨ w = 2 ∧ t = (s.clearFor .decomp).goto .loadhdr) := by
  have he := exec_effect h
  have hw : encode (decodeCmd w) = .cmd w := decodeCmd_encode w
  cases hi : decodeCmd w with
  | compress =>
    rw [hi] at he
    obtain rfl | ⟨-, hr, rfl | rfl⟩ := he
    · exact absurd hp ht
    · exact ⟨hr, .inl ⟨decodeCmd_eq_compress hi, rfl⟩⟩
    · exact absurd rfl ht
  | decompress =>
    rw [hi] at he
    obtain rfl | ⟨-, hr, rfl | ⟨_, rfl⟩⟩ := he
    · exact absurd hp ht
    · exact ⟨hr, .inr ⟨decodeCmd_eq_decompress hi, rfl⟩⟩
    · exact absurd rfl ht
  | nop =>
    rw [hi] at he
    cases he
    exact absurd hp ht
  | clear =>
    rw [hi] at he
    obtain rfl | ⟨-, -, rfl⟩ := he <;> exact absurd hp ht
  | reservedCmd =>
    rw [hi] at he
    obtain rfl | ⟨-, -, rfl⟩ := he
    · exact absurd hp ht
    · exact absurd rfl ht
  | _ => rw [hi] at hw; cases hw

/-- Settles O12: of the cases of what a step can do only an accepted command leaves IDLE. -/
theorem onlyCommandsLeaveIdle : Obligations.OnlyCommandsLeaveIdle := by
  refine fun s t => ⟨rfl, fun hp he ht => ?_⟩
  obtain ⟨sc, e⟩ | ⟨w, rest, hs, -⟩ | ⟨u, e, hu⟩ | ⟨off, n, e, -⟩ := fetch_cases s
  · rw [step_of_idle_turn hp e] at he
    cases he
    exact absurd hp ht
  · rw [step_of_wrCmd hs] at he
    obtain ⟨hr, ⟨rfl, rfl⟩ | ⟨rfl, rfl⟩⟩ := exec_cmd_leaves_idle (s := s.withScript rest) hp he ht
    · exact ⟨hr, rest, rfl, .inl ⟨hs, rfl, rfl⟩⟩
    · exact ⟨hr, rest, rfl, .inr ⟨hs, rfl, rfl⟩⟩
  · rw [step_of_fetch_moved e] at he
    cases he
    obtain h | h := hu.phase
    · exact absurd (h.trans hp) ht
    · exact absurd h ht
  · rw [step_of_fetch_moved e] at he
    cases he

/-! ### The register port -/

theorem step_of_regRead {off : Word} {n : Nat} {rest : List HostMove} (h : s.outside.script = .regRead off n :: rest)
    (ha : n = 4 ∧ off.toNat % 4 = 0) : step s = .next ((s.withScript rest).regRead off) := by
  refine step_of_fetch_moved ((fetch_regRead h).trans ?_)
  rw [if_pos (wholeAccess_iff.2 ha)]

theorem step_of_regRead_refused {off : Word} {n : Nat} {rest : List HostMove}
    (h : s.outside.script = .regRead off n :: rest) (ha : n ≠ 4 ∨ off.toNat % 4 ≠ 0) :
    step s = .refused (.registerAccess off n) := by
  refine step_of_fetch_moved ((fetch_regRead h).trans ?_)
  rw [wholeAccess_eq_false_iff.2 ha]
  rfl

theorem step_of_regWrite {off v : Word} {rest : List HostMove} (h : s.outside.script = .regWrite off 4 v :: rest)
    (ha : off.toNat % 4 = 0) (h0 : off ≠ 0x00) : step s = .next ((s.withScript rest).regWrite off v) :=
  step_of_fetch_moved ((fetch_regWrite h).trans (writeTurn_other v _ ha h0))

theorem State.regWrite_other {off : Word} (v : Word) (h : off ≠ 0x0C) : s.regWrite off v = s := by
  rw [State.regWrite, if_neg h]

theorem State.regWrite_inLen (v : Word) (hp : s.phase = .idle) (hr : s.outside.rst = false) :
    s.regWrite 0x0C v = { s with inLen := v } := by
  rw [State.regWrite, if_pos rfl, (State.busy_eq_false_iff s).2 hp, hr]
  rfl

theorem State.regValue_unmapped {off : Word} (h : 0x18 ≤ off.toNat) : s.regValue off = 0 := by
  have hne : ∀ w : Word, w.toNat < 0x18 → off ≠ w := fun w hw e => absurd (e ▸ h) (Nat.not_le.2 hw)
  unfold State.regValue
  rw [if_neg (hne _ (by decide)), if_neg (hne _ (by decide)), if_neg (hne _ (by decide)), if_neg (hne _ (by decide)),
    if_neg (hne _ (by decide))]

/-- The two halves make up `OUT_CNT` (R21). -/
theorem outCnt_halves (s : State) : s.outCntLo.toNat + 2 ^ 32 * s.outCntHi.toNat = s.outCnt.toNat := by
  have h := s.outCnt.isLt
  rw [State.outCntLo, State.outCntHi, BitVec.toNat_setWidth, BitVec.toNat_setWidth, BitVec.toNat_ushiftRight,
    Nat.shiftRight_eq_div_pow]
  omega

/-- Settles O14, by the equations of a host's access. -/
theorem registerMap : Obligations.RegisterMap := by
  refine fun s off v n rest => ⟨⟨rfl, rfl, rfl, rfl, outCnt_halves s, State.regValue_unmapped⟩,
    fun hs => ⟨fun h4 ha => ?_, fun hbad => ?_⟩, fun hs => ⟨fun h4 h0C hp hr => ?_, fun h4 ha h0 h0C => ?_, fun hbad => ?_⟩⟩
  · exact step_of_regRead hs ⟨h4, ha⟩
  · exact step_of_regRead_refused hs hbad
  · subst h4 h0C
    rw [step_of_regWrite hs (by decide) (by decide), State.regWrite_inLen (s := s.withScript rest) v hp hr]
  · subst h4
    rw [step_of_regWrite hs ha h0, State.regWrite_other v h0C]
  · exact step_of_fetch_moved ((fetch_regWrite hs).trans (writeTurn_refused v _ hbad))

theorem three_flags_getLsbD : ∀ e d b : Bool,
    ((BitVec.ofBool e ++ BitVec.ofBool d ++ BitVec.ofBool b).setWidth 32).getLsbD 0 = b ∧
    ((BitVec.ofBool e ++ BitVec.ofBool d ++ BitVec.ofBool b).setWidth 32).getLsbD 1 = d ∧
    ((BitVec.ofBool e ++ BitVec.ofBool d ++ BitVec.ofBool b).setWidth 32).getLsbD 2 = e := by
  decide

/-- The bits of `STATUS` (R17). -/
theorem status_getLsbD (s : State) (k : Nat) : s.status.getLsbD k =
    if k = 0 then decide (s.phase ≠ .idle) else if k = 1 then s.done else if k = 2 then s.err else false := by
  obtain ⟨h0, h1, h2⟩ := three_flags_getLsbD s.err s.done s.busy
  match k with
  | 0 => exact h0
  | 1 => exact h1
  | 2 => exact h2
  | k + 3 => simp [State.status]

/-- Settles O13, by the equations of a host's access. -/
theorem statusRegister : Obligations.StatusRegister := by
  refine fun s rest => ⟨status_getLsbD s, fun hs => ?_, fun v hs => ?_⟩
  · exact step_of_regRead hs ⟨rfl, by decide⟩
  · rw [step_of_regWrite hs (by decide) (by decide), State.regWrite_other v (by decide)]

end Sys2Proof.Machine
end

section
/-!
PROOFS. The forest BUILD grows (42_tree_builder.md R111 to R114, R120): below `NEXT` every node is held by one valid
slot or is the child of one node, and a merge keeps that.
-/
namespace Sys2Proof.Machine

/-- `m` is a child of the internal node `n` (10_state.md R24). -/
def IsChild (a : Arena) (m n : BitVec 9) : Prop := ∃ c, a.children? n = some c ∧ (c.1 = m ∨ c.2 = m)

/-- The slot `i` is valid and holds the root `m` (R25). -/
def Holds (t : Table Slot) (i : Byte) (m : BitVec 9) : Prop := Table.entry t i = { v := true, n := m }

/-- Of the nodes below `next` each one is a root held by one valid slot or the child of one node, not both. -/
structure Forest (t : Tables) (next : Nat) : Prop where
  distinct : ∀ n c, n.toNat < next → t.node.children? n = some c → c.1 ≠ c.2
  one_slot : ∀ i j m, Holds t.slot i m → Holds t.slot j m → i = j
  no_parent : ∀ i m n, Holds t.slot i m → n.toNat < next → ¬IsChild t.node m n
  placed : ∀ m : BitVec 9, m.toNat < next → (∃ i, Holds t.slot i m) ∨ ∃ n : BitVec 9, n.toNat < next ∧ IsChild t.node m n
  one_parent : ∀ m n n' : BitVec 9, n.toNat < next → n'.toNat < next → IsChild t.node m n → IsChild t.node m n' → n = n'

theorem Holds.valid {t : Table Slot} {i : Byte} {m : BitVec 9} (h : Holds t i m) : (Table.entry t i).v = true :=
  congrArg Slot.v h

theorem holds_of_valid {t : Table Slot} {i : Byte} (h : (Table.entry t i).v = true) : Holds t i (Table.entry t i).n := by
  unfold Holds
  rw [← h]

theorem IsChild.parent_internal {a : Arena} {m n : BitVec 9} (h : IsChild a m n) : 256 ≤ n.toNat ∧ n.toNat < 511 := by
  obtain ⟨c, hc, -⟩ := h
  obtain ⟨h256, nd, hnd, -⟩ := Arena.children?_eq_some.1 hc
  refine ⟨h256, Nat.lt_of_not_le fun h => ?_⟩
  rw [Arena.node?_eq_none.2 h] at hnd
  cases hnd

theorem IsChild.below {a : Arena} {k : Nat} {m n : BitVec 9} (h : IsChild a m n) (hb : ChildrenBelow a k)
    (hn : n.toNat < k) : m.toNat < n.toNat := by
  obtain ⟨c, hc, rfl | rfl⟩ := h
  · exact (hb n c hn hc).1
  · exact (hb n c hn hc).2

/-! ### The leaves -/

/-- After INIT (R111): each leaf in the slot of its own value, and no internal node. -/
theorem forest_leaves {t : Tables} (h : ∀ i : Byte, Holds t.slot i (i.setWidth 9)) : Forest t 256 := by
  have internal : ∀ n c, n.toNat < 256 → t.node.children? n ≠ some c := fun n c hn hc =>
    absurd (Arena.children?_eq_some.1 hc).1 (Nat.not_le.2 hn)
  have root : ∀ i m, Holds t.slot i m → m.toNat = i.toNat := fun i m hi => by
    have e : i.setWidth 9 = m := congrArg Slot.n ((h i).symm.trans hi)
    rw [← e, BitVec.toNat_setWidth]
    omega
  refine ⟨fun n c hn hc => absurd hc (internal n c hn), fun i j m hi hj => ?_, fun i m n hi hn hc => ?_, fun m hm => ?_,
    fun m n n' hn hn' hc hc' => ?_⟩
  · exact BitVec.eq_of_toNat_eq ((root i m hi).symm.trans (root j m hj))
  · exact absurd hn (Nat.not_lt.2 hc.parent_internal.1)
  · refine .inl ⟨m.setWidth 8, ?_⟩
    have e : (m.setWidth 8).setWidth 9 = m := by bv_omega
    simpa only [e] using h (m.setWidth 8)
  · exact absurd hn (Nat.not_lt.2 hc.parent_internal.1)

/-! ### A merge -/

theorem children?_withNode {a : Arena} {k : Nat} (h256 : 256 ≤ k) (h511 : k < 511) (nd : Node) (n : BitVec 9) :
    (a.withNode k nd).children? n = if n.toNat = k then some (nd.l, nd.r) else a.children? n := by
  unfold Arena.children?
  rw [Arena.node?_withNode]
  by_cases hn : n.toNat = k
  · simp [hn, h511, Nat.not_lt.2 h256]
  · simp [hn]

theorem isChild_withNode {a : Arena} {k : Nat} (h256 : 256 ≤ k) (h511 : k < 511) {nd : Node} {m n : BitVec 9} :
    IsChild (a.withNode k nd) m n ↔
      n.toNat = k ∧ (nd.l = m ∨ nd.r = m) ∨ n.toNat ≠ k ∧ IsChild a m n := by
  unfold IsChild
  rw [children?_withNode h256 h511]
  by_cases hn : n.toNat = k <;> simp [hn]

theorem holds_mergedSlots {t : Table Slot} {a b : Byte} (hab : a ≠ b) {k m : BitVec 9} {i : Byte} :
    Holds (mergedSlots t a b k) i m ↔ i = a ∧ m = k ∨ i ≠ a ∧ i ≠ b ∧ Holds t i m := by
  unfold Holds mergedSlots
  simp only [Table.entry_withEntry]
  by_cases hb : i = b
  · subst hb
    simp [Ne.symm hab]
  · by_cases ha : i = a
    · subst ha
      simp [hab, eq_comm]
    · simp [ha, hb]

/-- R113: the new node takes over the two roots as its children and is itself a root. -/
theorem Forest.merge {t : Tables} {k : Nat} (h : Forest t k) (h256 : 256 ≤ k) (h511 : k < 511)
    (roots : ∀ i m, Holds t.slot i m → m.toNat < k) (below : ChildrenBelow t.node k) {a b : Byte} (hab : a ≠ b)
    {ra rb : BitVec 9} (ha : Holds t.slot a ra) (hb : Holds t.slot b rb) {kk : BitVec 9} (hk : kk.toNat = k) (w : Word) :
    Forest { t with node := t.node.withNode k { w := w, l := ra, r := rb }, slot := mergedSlots t.slot a b kk } (k + 1) := by
  have hne : ra ≠ rb := fun e => hab (h.one_slot a b ra ha (e ▸ hb))
  have hra := roots a ra ha
  have hrb := roots b rb hb
  have older : ∀ {n : BitVec 9}, n.toNat < k + 1 → n.toNat ≠ k → n.toNat < k := fun h1 h2 => by omega
  constructor
  case distinct =>
    intro n c hn hc
    simp only [children?_withNode h256 h511] at hc
    split at hc
    · cases hc
      exact hne
    · next hnk => exact h.distinct n c (older hn hnk) hc
  case one_slot =>
    intro i j m hi hj
    obtain ⟨hia, hmi⟩ | ⟨-, -, hi⟩ := (holds_mergedSlots hab).1 hi <;>
      obtain ⟨hja, hmj⟩ | ⟨-, -, hj⟩ := (holds_mergedSlots hab).1 hj
    · exact hia.trans hja.symm
    · exact absurd (roots j m hj) (by rw [hmi]; omega)
    · exact absurd (roots i m hi) (by rw [hmj]; omega)
    · exact h.one_slot i j m hi hj
  case no_parent =>
    intro i m n hi hn hc
    obtain ⟨rfl, rfl⟩ | ⟨hia, hib, hi⟩ := (holds_mergedSlots hab).1 hi <;>
      obtain ⟨hnk, hm⟩ | ⟨hnk, hc⟩ := (isChild_withNode h256 h511).1 hc
    · obtain rfl | rfl := hm <;> simp only at hk <;> omega
    · have := hc.below below (older hn hnk)
      omega
    · obtain rfl | rfl := hm
      · exact hia (h.one_slot i a _ hi ha)
      · exact hib (h.one_slot i b _ hi hb)
    · exact h.no_parent i m n hi (older hn hnk) hc
  case placed =>
    intro m hm
    have child : ra = m ∨ rb = m → ∃ n : BitVec 9, n.toNat < k + 1 ∧
        IsChild (t.node.withNode k { w := w, l := ra, r := rb }) m n :=
      fun e => ⟨kk, by omega, (isChild_withNode h256 h511).2 (.inl ⟨hk, e⟩)⟩
    by_cases hmk : m.toNat = k
    · exact .inl ⟨a, (holds_mergedSlots hab).2 (.inl ⟨rfl, BitVec.eq_of_toNat_eq (hmk.trans hk.symm)⟩)⟩
    · obtain ⟨i, hi⟩ | ⟨n, hn, hc⟩ := h.placed m (older hm hmk)
      · by_cases hia : i = a
        · subst hia
          exact .inr (child (.inl (congrArg Slot.n (ha.symm.trans hi))))
        · by_cases hib : i = b
          · subst hib
            exact .inr (child (.inr (congrArg Slot.n (hb.symm.trans hi))))
          · exact .inl ⟨i, (holds_mergedSlots hab).2 (.inr ⟨hia, hib, hi⟩)⟩
      · exact .inr ⟨n, by omega, (isChild_withNode h256 h511).2 (.inr ⟨by omega, hc⟩)⟩
  case one_parent =>
    have new : ∀ {m n : BitVec 9}, n.toNat < k → ra = m ∨ rb = m → ¬IsChild t.node m n := by
      rintro m n hn (rfl | rfl)
      · exact h.no_parent a _ n ha hn
      · exact h.no_parent b _ n hb hn
    intro m n n' hn hn' hc hc'
    obtain ⟨hnk, hm⟩ | ⟨hnk, hc⟩ := (isChild_withNode h256 h511).1 hc <;>
      obtain ⟨hnk', hm'⟩ | ⟨hnk', hc'⟩ := (isChild_withNode h256 h511).1 hc'
    · exact BitVec.eq_of_toNat_eq (hnk.trans hnk'.symm)
    · exact absurd hc' (new (older hn' hnk') hm)
    · exact absurd hc (new (older hn hnk) hm')
    · exact h.one_parent m n n' (older hn hnk) (older hn' hnk') hc hc'

/-! ### One root left -/

theorem liveSlots_one_unique {t : Table Slot} (h : liveSlots t = 1) {i j : Byte} (hi : (Table.entry t i).v = true)
    (hj : (Table.entry t j).v = true) : i = j := by
  by_contra hne
  have drop := countP_drop_one (p := fun x => (Table.entry t x).v) (q := fun x => (Table.entry t x).v && decide (x ≠ i))
    nodup_allBytes (mem_allBytes i) hi (by simp) (fun x hx => by simp [hx])
  have none : allBytes.countP (fun x => (Table.entry t x).v && decide (x ≠ i)) = 0 := by
    unfold liveSlots at h
    omega
  exact List.countP_eq_zero.1 none j (mem_allBytes j) (by simp [hj, Ne.symm hne])

/-- With one valid slot left the last node is its root, and every other node has exactly one parent (R120). -/
theorem Forest.unique_parent {t : Tables} (h : Forest t 511) (below : ChildrenBelow t.node 511)
    (hone : liveSlots t.slot = 1) {m : BitVec 9} (hm : m.toNat ≤ 509) : ∃! n, IsChild t.node m n := by
  have top : ∃ i, Holds t.slot i 510 := by
    obtain hi | ⟨n, hn, hc⟩ := h.placed 510 (by decide)
    · exact hi
    · have h510 : (510 : BitVec 9).toNat < n.toNat := hc.below below hn
      exact absurd hn (Nat.not_lt.2 h510)
  obtain ⟨i, hi⟩ := top
  obtain ⟨j, hj⟩ | ⟨n, hn, hc⟩ := h.placed m (by omega)
  · have e : j = i := liveSlots_one_unique hone hj.valid hi.valid
    subst e
    have hm510 : m = 510 := congrArg Slot.n (hj.symm.trans hi)
    rw [hm510] at hm
    exact absurd hm (by decide)
  · exact ⟨n, hc, fun n' hc' => h.one_parent m n' n hc'.parent_internal.2 hn hc' hc⟩

/-- Every internal node has two different children below itself (R120). -/
theorem Forest.two_children {t : Tables} (h : Forest t 511) (below : ChildrenBelow t.node 511) {n : BitVec 9}
    (h256 : 256 ≤ n.toNat) (h510 : n.toNat ≤ 510) :
    ∃ c, t.node.children? n = some c ∧ c.1 ≠ c.2 ∧ c.1.toNat < n.toNat ∧ c.2.toNat < n.toNat := by
  obtain ⟨nd, hnd⟩ := Arena.node?_eq_some (a := t.node) (n := n) (by omega)
  have hc := Arena.children?_eq_some.2 ⟨h256, nd, hnd, rfl⟩
  exact ⟨_, hc, h.distinct n _ (by omega) hc, below n _ (by omega) hc⟩

end Sys2Proof.Machine
end

section
/-!
PROOFS. The run of BUILD (42_tree_builder.md R110 to R116, 70_reset_and_hazards.md R221): 256 steps of INIT, 255 rounds
of two selects of 256 steps and one merge, and the root's step.
-/
namespace Sys2Proof.Machine

variable {s0 s t : State} {k : Nat}

/-! ### What BUILD leaves unchanged -/

/-- BUILD writes working registers, `NODE` and `SLOT`, and moves the sequencer. -/
structure BuildFrame (s t : State) : Prop where
  freq : t.tab.freq = s.tab.freq
  code : t.tab.code = s.tab.code
  outside : t.outside = s.outside
  outCnt : t.outCnt = s.outCnt
  command : SameCommand s t

theorem BuildFrame.refl (s : State) : BuildFrame s s := ⟨rfl, rfl, rfl, rfl, rfl, rfl, rfl, rfl, rfl⟩

theorem BuildFrame.trans {u : State} (a : BuildFrame s t) (b : BuildFrame t u) : BuildFrame s u where
  freq := b.freq.trans a.freq
  code := b.code.trans a.code
  outside := b.outside.trans a.outside
  outCnt := b.outCnt.trans a.outCnt
  command := ⟨b.command.op.trans a.command.op, b.command.done.trans a.command.done, b.command.err.trans a.command.err,
    b.command.errcode.trans a.command.errcode, b.command.inLen.trans a.command.inLen⟩

theorem execBuild_frame (h : execBuild s = .next t) : BuildFrame s t := by
  obtain ⟨_, _, _, _, _, _, _, _, _, _, _, rfl⟩ := (execBuild_within s).next h
  exact ⟨rfl, rfl, rfl, rfl, rfl, rfl, rfl, rfl, rfl⟩

/-! ### A run inside BUILD -/

/-- The run of BUILD from `s0` has come to `s` after `k` steps. -/
structure BuildRun (s0 : State) (k : Nat) (s : State) : Prop where
  run : runFor k s0 = .next s
  inv : Inv s
  quiet : Undisturbed s
  phase : s.phase = .build
  frame : BuildFrame s0 s

theorem Undisturbed.step_eq (h : Undisturbed s) {i : Instr} (hi : decode (.phase s.phase.code) = .ok i) :
    Machine.step s = exec i s :=
  step_of_turn (sc := s.outside.script) h.rst hi (fetch_nil h.script)

theorem BuildRun.runFor_next (h : BuildRun s0 k s) (he : execBuild s = .next t) : runFor (k + 1) s0 = .next t := by
  have hstep : Machine.step s = .next t := (h.quiet.step_eq (i := .build) (by rw [h.phase]; rfl)).trans he
  exact runFor_add h.run (runFor_succ 0 hstep)

theorem BuildRun.step (h : BuildRun s0 k s) (he : execBuild s = .next t) (hp : t.phase = .build) :
    BuildRun s0 (k + 1) t where
  run := h.runFor_next he
  inv := by
    obtain ⟨u, hu, hinv⟩ := execBuild_fine h.inv h.phase
    cases he.symm.trans hu
    exact hinv
  quiet := h.quiet.of_outside (by rw [(execBuild_frame he).outside])
  phase := hp
  frame := h.frame.trans (execBuild_frame he)

/-! ### INIT -/

theorem initLeaf_more {v : BitVec 9} (hv : v.toNat < 255) : (initLeaf v s).stage = .initLeaf ∧
    (initLeaf v s).work.vidx = v + 1 ∧ (initLeaf v s).phase = s.phase := by
  unfold initLeaf
  simp only [if_pos hv, and_self]

theorem initLeaf_last {v : BitVec 9} (hv : ¬v.toNat < 255) : initLeaf v s = { s with
    tab.node := s.tab.node.withLeafWeight (v.setWidth 8) (s.tab.freq.entry (v.setWidth 8))
    tab.slot := s.tab.slot.withEntry (v.setWidth 8) { v := true, n := v }
    work.vidx := v + 1, work.next := 256, work.live := 256, work.sidx := 0, stage := .scanA none } := by
  unfold initLeaf
  simp only [if_neg hv]

/-- The first 255 leaves. -/
theorem BuildRun.leaves (h : BuildRun s0 0 s0) (hs : s0.stage = .entry) {n : Nat} (hn : n < 255) :
    ∃ s, BuildRun s0 (n + 1) s ∧ s.stage = .initLeaf ∧ s.work.vidx.toNat = n + 1 := by
  induction n with
  | zero =>
    obtain ⟨hst, hv, hp⟩ := initLeaf_more (s := s0) (v := 0) (by decide)
    refine ⟨initLeaf 0 s0, h.step (by simp only [execBuild, hs]) (hp.trans h.phase), hst, ?_⟩
    rw [hv]
    rfl
  | succ n ih =>
    obtain ⟨s, hr, hst, hvi⟩ := ih (Nat.lt_of_succ_lt hn)
    have hlt : s.work.vidx.toNat < 255 := hvi ▸ hn
    obtain ⟨hst', hv', hp'⟩ := initLeaf_more (s := s) hlt
    refine ⟨initLeaf s.work.vidx s, hr.step (by simp only [execBuild, hst]) (hp'.trans hr.phase), hst', ?_⟩
    rw [hv', vidx_succ hlt, hvi]

/-- Before merge `m` of the 255 (R114), or before the root's step when all are done. -/
structure AtRound (m : Nat) (s : State) : Prop where
  next : s.work.next.toNat = 256 + m
  live : s.work.live.toNat + m = 256
  forest : Forest s.tab (256 + m)
  scan : m < 255 → s.stage = .scanA none ∧ s.work.sidx = 0
  root : m = 255 → s.stage = .root

/-- INIT is complete (R111). -/
theorem BuildRun.init (h : BuildRun s0 0 s0) (hs : s0.stage = .entry) : ∃ s, BuildRun s0 256 s ∧ AtRound 0 s := by
  obtain ⟨s, hr, hst, hvi⟩ := h.leaves hs (n := 254) (by decide)
  have he : execBuild s = .next (initLeaf s.work.vidx s) := by simp only [execBuild, hst]
  have hpos := hr.inv.position
  simp only [PositionOk, hr.phase, hst] at hpos
  obtain ⟨-, -, hslots⟩ := hpos
  rw [initLeaf_last (by omega)] at he
  refine ⟨_, hr.step he hr.phase, rfl, rfl, forest_leaves fun i => ?_, fun _ => ⟨rfl, rfl⟩, nofun⟩
  have h255 : s.work.vidx = 255 := BitVec.eq_of_toNat_eq hvi
  unfold Holds
  simp only [h255, Table.entry_withEntry]
  split
  · next e => rw [e]; rfl
  · next e => exact hslots i (by rw [hvi]; bv_omega)

/-! ### A select -/

/-- One slot of a select before the last one (R112). -/
theorem scanSlot_more (hb : BuildOk s.work s.tab) {ex best : Option Byte} (hsc : ScanOk s.work s.tab ex best)
    (hlt : s.work.sidx.toNat < 255) (again : Option Byte → Stage) (found : Byte → State → State) :
    ∃ best', scanSlot ex best again found s = .next { s with work.sidx := s.work.sidx + 1, stage := again best' } := by
  obtain ⟨best', he, -⟩ := selectVisit_some hb (s.work.sidx.setWidth 8) hsc.best_live
  refine ⟨best', ?_⟩
  unfold scanSlot
  simp only [he, if_pos hlt]

/-- The last slot of a select: there is a slot found (R112). -/
theorem scanSlot_last (hb : BuildOk s.work s.tab) {ex best : Option Byte} (hsc : ScanOk s.work s.tab ex best)
    (h255 : s.work.sidx.toNat = 255) (again : Option Byte → Stage) (found : Byte → State → State) :
    ∃ b, scanSlot ex best again found s = .next (found b { s with work.sidx := s.work.sidx + 1 }) := by
  obtain ⟨best', -, hsc'⟩ | ⟨b, he, -⟩ := scanSlot_next hb hsc (again := again) (found := found)
  · have hlt : (s.work.sidx + 1).toNat < 256 := hsc'.sidx
    rw [toNat_succ (b := 256) (by omega) (by decide)] at hlt
    omega
  · exact ⟨b, he⟩

/-- `again` are the positions of a select that excludes `ex`, with `a` in `SELA`, and `found` follows it. -/
def Selects (ex : Option Byte) (a : Byte) (again : Option Byte → Stage) (found : Byte → State → State) : Prop :=
  ∀ (s : State) (best : Option Byte), Inv s → s.phase = .build → s.stage = again best → s.work.sela = a →
    execBuild s = scanSlot ex best again found s ∧ BuildOk s.work s.tab ∧ ScanOk s.work s.tab ex best

theorem selects_scanA (a : Byte) : Selects none a .scanA foundA := by
  intro s best h hp hs ha
  have hpos := h.position
  simp only [PositionOk, hp, hs] at hpos
  exact ⟨by simp only [execBuild, hs], hpos.2⟩

theorem selects_scanB (a : Byte) : Selects (some a) a .scanB foundB := by
  rintro s best h hp hs rfl
  have hpos := h.position
  simp only [PositionOk, hp, hs] at hpos
  obtain ⟨-, hb, hsc, -⟩ := hpos
  exact ⟨by simp only [execBuild, hs], hb, hsc⟩

/-- A whole select visits the slots from `SIDX` on, one a step. -/
theorem BuildRun.select {ex : Option Byte} {again : Option Byte → Stage} {found : Byte → State → State}
    (hsel : Selects ex s.work.sela again found) (hf : ∀ b u, (found b u).phase = u.phase) {best : Option Byte} {n : Nat}
    (h : BuildRun s0 k s) (hs : s.stage = again best) (hn : s.work.sidx.toNat + n = 255) :
    ∃ b st sidx, BuildRun s0 (k + (n + 1)) (found b { s with work.sidx := sidx, stage := st }) := by
  obtain ⟨he, hb, hsc⟩ := hsel s best h.inv h.phase hs rfl
  induction n generalizing s k best with
  | zero =>
    obtain ⟨b, hfound⟩ := scanSlot_last hb hsc hn again found
    exact ⟨b, s.stage, _, h.step (he.trans hfound) ((hf b _).trans h.phase)⟩
  | succ n ih =>
    have hlt : s.work.sidx.toNat < 255 := by omega
    obtain ⟨best', hmore⟩ := scanSlot_more hb hsc hlt again found
    have hu := h.step (he.trans hmore) h.phase
    obtain ⟨he', hb', hsc'⟩ := hsel _ best' hu.inv hu.phase rfl rfl
    have hsucc := vidx_succ hlt
    obtain ⟨b, st, sidx, hr⟩ := ih (s := { s with work.sidx := s.work.sidx + 1, stage := again best' }) hsel hu rfl
      (by show (s.work.sidx + 1).toNat + n = 255; omega) he' hb' hsc'
    exact ⟨b, st, sidx, by rwa [show k + (n + 1 + 1) = k + 1 + (n + 1) by omega]⟩

/-- Both selects of a round. -/
theorem BuildRun.selects (h : BuildRun s0 k s) (hs : s.stage = .scanA none) (h0 : s.work.sidx = 0) :
    ∃ u, BuildRun s0 (k + 512) u ∧ u.stage = .merge ∧ u.tab = s.tab ∧ u.work.next = s.work.next ∧
      u.work.live = s.work.live := by
  obtain ⟨a, st, sidx, ha⟩ := h.select (selects_scanA _) (fun _ _ => rfl) (n := 255) hs (by rw [h0]; rfl)
  obtain ⟨b, st', sidx', hb⟩ := ha.select (selects_scanB _) (fun _ _ => rfl) (n := 255) (best := none) rfl rfl
  exact ⟨_, hb, rfl, rfl, rfl, rfl⟩

/-! ### A round -/

theorem nextMerge_spec (s : State) : (nextMerge s).phase = s.phase ∧ (nextMerge s).tab = s.tab ∧
    (nextMerge s).work.next = s.work.next ∧ (nextMerge s).work.live = s.work.live ∧
    (1 < s.work.live.toNat → (nextMerge s).stage = .scanA none ∧ (nextMerge s).work.sidx = 0) ∧
    (s.work.live.toNat = 1 → (nextMerge s).stage = .root) := by
  unfold nextMerge
  split
  · next h => exact ⟨rfl, rfl, rfl, rfl, fun _ => ⟨rfl, rfl⟩, fun h1 => by omega⟩
  · next h => exact ⟨rfl, rfl, rfl, rfl, fun h1 => absurd h1 h, fun _ => rfl⟩

/-- A merge takes the forest to the next round (R113, R114). -/
theorem BuildRun.merge {m : Nat} (h : BuildRun s0 k s) (hs : s.stage = .merge) (hm : m < 255)
    (hn : s.work.next.toNat = 256 + m) (hl : s.work.live.toNat + m = 256) (hf : Forest s.tab (256 + m)) :
    ∃ t, BuildRun s0 (k + 1) t ∧ AtRound (m + 1) t := by
  have hpos := h.inv.position
  simp only [PositionOk, h.phase, hs] at hpos
  obtain ⟨-, hb, -, hab, hva, hvb⟩ := hpos
  have roots : ∀ i r, Holds s.tab.slot i r → r.toNat < 256 + m := fun i r hi => by
    have := hb.roots i hi.valid
    rw [hi, hn] at this
    exact this
  have hra := roots _ _ (holds_of_valid hva)
  have hrb := roots _ _ (holds_of_valid hvb)
  obtain ⟨na, hna⟩ := Arena.node?_eq_some (a := s.tab.node) (n := (Table.entry s.tab.slot s.work.sela).n) (by omega)
  obtain ⟨nb, hnb⟩ := Arena.node?_eq_some (a := s.tab.node) (n := (Table.entry s.tab.slot s.work.selb).n) (by omega)
  have hlt : s.work.next.toNat < Config.nodeCount := by
    rw [hn]
    exact Nat.add_lt_add_left hm 256
  have he : execBuild s = mergeStep s := by simp only [execBuild, hs]
  simp only [mergeStep, hna, hnb, if_pos hlt] at he
  obtain ⟨hp, htab, hnext, hlive, hscan, hroot⟩ := nextMerge_spec { s with
    tab.node := s.tab.node.withNode s.work.next.toNat
      { w := na.w + nb.w, l := (Table.entry s.tab.slot s.work.sela).n, r := (Table.entry s.tab.slot s.work.selb).n }
    tab.slot := mergedSlots s.tab.slot s.work.sela s.work.selb (s.work.next.setWidth 9)
    work.next := s.work.next + 1, work.live := s.work.live - 1 }
  have hnext' : (s.work.next + 1).toNat = 256 + (m + 1) := by
    rw [toNat_succ (b := 511) hlt (by decide), hn]
    rfl
  have hlive' : (s.work.live - 1).toNat + (m + 1) = 256 := by bv_omega
  have hk : (s.work.next.setWidth 9).toNat = 256 + m := by
    rw [BitVec.toNat_setWidth, hn]
    omega
  refine ⟨_, h.step he (hp.trans h.phase), ?_, ?_, ?_, fun h' => hscan ?_, fun h' => hroot ?_⟩
  · rw [hnext, hnext']
  · rw [hlive, hlive']
  · rw [htab]
    simp only [hn]
    exact hf.merge (by omega) (by omega) roots (hn ▸ hb.children) hab (holds_of_valid hva) (holds_of_valid hvb) hk _
  · show 1 < (s.work.live - 1).toNat
    omega
  · show (s.work.live - 1).toNat = 1
    omega

/-- The first `m` rounds, 513 steps each. -/
theorem BuildRun.rounds (h : BuildRun s0 0 s0) (hs : s0.stage = .entry) {m : Nat} (hm : m ≤ 255) :
    ∃ s, BuildRun s0 (256 + 513 * m) s ∧ AtRound m s := by
  induction m with
  | zero => exact h.init hs
  | succ m ih =>
    obtain ⟨s, hr, hat⟩ := ih (Nat.le_of_succ_le hm)
    obtain ⟨hst, h0⟩ := hat.scan hm
    obtain ⟨u, hu, hsu, htab, hnext, hlive⟩ := hr.selects hst h0
    obtain ⟨t, ht, hat'⟩ := hu.merge hsu hm (by rw [hnext, hat.next]) (by rw [hlive, hat.live]) (by rw [htab]; exact hat.forest)
    exact ⟨t, by rwa [show 256 + 513 * (m + 1) = 256 + 513 * m + 512 + 1 by omega], hat'⟩

/-! ### The whole phase -/

theorem takeRoot_spec (s : State) : (takeRoot s).phase = (if s.op = .comp then .emithdr else .rdtrailer) ∧
    (takeRoot s).stage = .entry ∧ (takeRoot s).tab = s.tab ∧
    (takeRoot s).work = { s.work with root := (s.work.next - 1).setWidth 9 } := by
  unfold takeRoot
  split <;> exact ⟨rfl, rfl, rfl, rfl⟩

/-- Settles O36: after INIT and 255 rounds the forest is one tree, and the root's step ends the phase. -/
theorem buildWhole : Obligations.BuildWhole := by
  intro s hi hq hp hs
  obtain ⟨u, hr, hat⟩ := BuildRun.rounds ⟨rfl, hi, hq, hp, .refl s⟩ hs (Nat.le_refl 255)
  have hst := hat.root rfl
  have hpos := hr.inv.position
  simp only [PositionOk, hr.phase, hst] at hpos
  obtain ⟨-, hb, hlive⟩ := hpos
  have hnext : u.work.next = 511 := BitVec.eq_of_toNat_eq hat.next
  have hone : liveSlots u.tab.slot = 1 := by
    rw [hb.slots, hlive]
    rfl
  have below : ChildrenBelow u.tab.node 511 := by simpa only [hat.next] using hb.children
  have forest : Forest u.tab 511 := hat.forest
  have he : execBuild u = .next (takeRoot u) := by simp only [execBuild, hst]
  have hframe := hr.frame.trans (execBuild_frame he)
  obtain ⟨hphase, hstage, htab, hwork⟩ := takeRoot_spec u
  rw [hr.frame.command.op] at hphase
  refine ⟨takeRoot u, hr.runFor_next he, hphase, hstage, ?_, ?_, ?_, ?_, ?_, ?_, hframe.freq, hframe.code, hframe.outside,
    hframe.outCnt, hframe.command⟩
  · rw [hwork, hnext]
    rfl
  · rw [hwork, hnext]
  · rw [hwork, hlive]
  · rw [htab, hone]
  · rw [htab]
    exact fun n h256 h510 => forest.two_children below h256 h510
  · rw [htab]
    exact fun m hm => forest.unique_parent below hone hm

end Sys2Proof.Machine
end

section
/-!
PROOFS. What each instruction does outside the block: a byte of `OUT` at position `OUT_CNT`, by the four phases that hold
an `OutByte`, or nothing (20_memory.md R40, R42; 10_state.md R27).
-/
namespace Sys2Proof.Machine

variable {s t : State}

/-! ### Steps that hold no `OutByte` -/

/-- What stands outside the block and the position of the next byte of `OUT` are the same in `t`. -/
structure SamePorts (s t : State) : Prop where
  outside : t.outside = s.outside
  outCnt : t.outCnt = s.outCnt

theorem SamePorts.packStart (h : SamePorts s t) : SamePorts s (packStart t) := by
  unfold Machine.packStart
  simp only
  split <;> exact ⟨h.outside, h.outCnt⟩

theorem SamePorts.packNextByte (h : SamePorts s t) : SamePorts s (packNextByte t) := by
  unfold Machine.packNextByte
  simp only
  split <;> exact ⟨h.outside, h.outCnt⟩

theorem SamePorts.packNextBit (h : SamePorts s t) : SamePorts s (packNextBit t) := by
  unfold Machine.packNextBit
  split
  · exact ⟨h.outside, h.outCnt⟩
  · exact h.packNextByte

theorem SamePorts.unpackStart (h : SamePorts s t) : SamePorts s (unpackStart t) := by
  unfold Machine.unpackStart
  simp only
  split <;> exact ⟨h.outside, h.outCnt⟩

theorem SamePorts.unpackNextByte (h : SamePorts s t) : SamePorts s (unpackNextByte t) := by
  unfold Machine.unpackNextByte
  simp only
  split <;> exact ⟨h.outside, h.outCnt⟩

theorem SamePorts.unpackShift (h : SamePorts s t) : SamePorts s (unpackShift t) := by
  unfold Machine.unpackShift
  simp only
  split
  · exact SamePorts.unpackNextByte ⟨h.outside, h.outCnt⟩
  · exact ⟨h.outside, h.outCnt⟩

/-! ### What one instruction does at the ports -/

/-- Nothing at the ports, one `OutByte` by a phase that writes, or `OUT_CNT` cleared by a command. -/
inductive PortEffect (i : Instr) (s t : State) : Prop where
  | same (h : SamePorts s t)
  | emitted (hi : i = .emithdr ∨ i = .pack ∨ i = .finish ∨ i = .unpack) (v : Byte) (h : SamePorts (s.outByte v) t)
  | cleared (hi : i = .compress ∨ i = .decompress ∨ i = .clear) (hc : t.outCnt = 0) (ho : t.outside = s.outside)

theorem PortEffect.refl (i : Instr) (s : State) : PortEffect i s s := .same ⟨rfl, rfl⟩

/-- The next state, if there is one, is within the instruction's effect at the ports. -/
abbrev KeepsPorts (i : Instr) (s : State) (r : Res) : Prop := Answers (PortEffect i s) (fun _ => True) r

theorem emitCountByte_ports (v : BitVec 9) (k : Fin 4) (s : State) : KeepsPorts .emithdr s (emitCountByte v k s) := by
  refine answers_whenAccepted (.refl _ s) ?_
  simp only
  split
  · exact .emitted (.inl rfl) _ ⟨rfl, rfl⟩
  split <;> exact .emitted (.inl rfl) _ ⟨rfl, rfl⟩

theorem execEmithdr_ports (s : State) : KeepsPorts .emithdr s (execEmithdr s) := by
  unfold execEmithdr
  split
  · exact emitCountByte_ports 0 0 s
  · exact emitCountByte_ports s.work.vidx _ s
  · trivial

theorem packPush_ports (s : State) : KeepsPorts .pack s (packPush s) := by
  unfold packPush
  split
  · trivial
  unfold pushBit
  split
  · exact answers_whenAccepted (.refl _ s) (.emitted (.inr (.inl rfl)) s.work.acc (.packNextBit ⟨rfl, rfl⟩))
  · exact .same (.packNextBit ⟨rfl, rfl⟩)

theorem packFetch_ports (s : State) : KeepsPorts .pack s (packFetch s) := by
  refine answers_inByte (.refl _ s) (fun _ => trivial) fun b => ?_
  simp only
  split
  · exact .same (.packNextByte ⟨rfl, rfl⟩)
  · exact .same ⟨rfl, rfl⟩

theorem execPack_ports (s : State) : KeepsPorts .pack s (execPack s) := by
  unfold execPack
  split
  · exact .same (.packStart ⟨rfl, rfl⟩)
  · exact packFetch_ports s
  · exact packPush_ports s
  · trivial

theorem finishTrailer_ports (s : State) : KeepsPorts .finish s (finishTrailer s) :=
  answers_whenAccepted (.refl _ s) (.emitted (.inr (.inr (.inl rfl))) _ ⟨rfl, rfl⟩)

theorem finishData_ports (s : State) : KeepsPorts .finish s (finishData s) := by
  unfold finishData
  split
  · exact finishTrailer_ports s
  split <;> exact answers_whenAccepted (.refl _ s) (.emitted (.inr (.inr (.inl rfl))) _ ⟨rfl, rfl⟩)

theorem execFinish_ports (s : State) : KeepsPorts .finish s (execFinish s) := by
  unfold execFinish
  split
  · exact finishData_ports s
  · exact finishTrailer_ports s
  · trivial

theorem unpackFetch_ports (s : State) : KeepsPorts .unpack s (unpackFetch s) := by
  refine answers_inByte (.refl _ s) (fun _ => trivial) fun b => ?_
  simp only
  split
  · exact .same (.unpackNextByte ⟨rfl, rfl⟩)
  · exact .same ⟨rfl, rfl⟩

theorem leaf_ports (n : BitVec 9) (s : State) : KeepsPorts .unpack s (leaf n s) := by
  unfold leaf
  split
  · exact .same ⟨rfl, rfl⟩
  · exact answers_whenAccepted (.refl _ s) (.emitted (.inr (.inr (.inr rfl))) _ (.unpackShift ⟨rfl, rfl⟩))

theorem walkBit_ports (s : State) : KeepsPorts .unpack s (walkBit s) := by
  unfold walkBit
  split
  · trivial
  simp only
  split
  · exact leaf_ports _ s
  · exact .same (.unpackShift ⟨rfl, rfl⟩)

theorem execUnpack_ports (s : State) : KeepsPorts .unpack s (execUnpack s) := by
  unfold execUnpack
  split
  · exact .same (.unpackStart ⟨rfl, rfl⟩)
  · exact unpackFetch_ports s
  · exact walkBit_ports s
  · trivial

/-- What every instruction does at the ports: the phases that write hold an `OutByte`, the effect of the others names
neither `OUT` nor, but for the commands that clear it, `OUT_CNT`. -/
theorem exec_ports {i : Instr} (h : exec i s = .next t) : PortEffect i s t := by
  have he := exec_effect h
  cases i with
  | emithdr => exact (execEmithdr_ports s).next h
  | pack => exact (execPack_ports s).next h
  | finish => exact (execFinish_ports s).next h
  | unpack => exact (execUnpack_ports s).next h
  | compress =>
    obtain rfl | ⟨-, -, rfl | rfl⟩ := he
    · exact .refl _ t
    · exact .cleared (.inl rfl) rfl rfl
    · exact .cleared (.inl rfl) rfl rfl
  | decompress =>
    obtain rfl | ⟨-, -, rfl | ⟨_, rfl⟩⟩ := he
    · exact .refl _ t
    · exact .cleared (.inr (.inl rfl)) rfl rfl
    · exact .cleared (.inr (.inl rfl)) rfl rfl
  | clear =>
    obtain rfl | ⟨-, -, rfl⟩ := he
    · exact .refl _ t
    · exact .cleared (.inr (.inr rfl)) rfl rfl
  | nop | idle => exact .same ⟨congrArg _ he, congrArg _ he⟩
  | reservedCmd => obtain rfl | ⟨-, -, rfl⟩ := he <;> exact .same ⟨rfl, rfl⟩
  | count => obtain ⟨_, _, _, _, _, _, rfl⟩ := he; exact .same ⟨rfl, rfl⟩
  | loadhdr => obtain ⟨_, _, _, _, _, _, _, rfl, rfl | rfl⟩ := he <;> exact .same ⟨rfl, rfl⟩
  | build => obtain ⟨_, _, _, _, _, _, _, _, _, _, _, rfl⟩ := he; exact .same ⟨rfl, rfl⟩
  | codegen => obtain ⟨_, _, _, rfl⟩ := he; exact .same ⟨rfl, rfl⟩
  | rdtrailer => obtain ⟨_, _, _, _, _, rfl, rfl | rfl⟩ := he <;> exact .same ⟨rfl, rfl⟩
  | endcheck => obtain rfl | ⟨_, rfl⟩ := he <;> exact .same ⟨rfl, rfl⟩

/-! ### The frame -/

/-- Settles O20: an `OutByte` writes at the old `OUT_CNT` only, and without one `OUT` and the ports stay. -/
theorem outputOnlyAppended : Obligations.OutputOnlyAppended := by
  intro i s t h
  cases exec_ports h with
  | same hp =>
    obtain ⟨ho, hc⟩ := hp
    rw [ho]
    exact ⟨rfl, .inr ⟨.inl hc, fun _ => rfl⟩⟩
  | emitted hi v hp =>
    obtain ⟨ho, hc⟩ := hp
    rw [ho]
    exact ⟨rfl, .inl ⟨hi, hc, fun _ ha => Memory.read_write_other _ v ha⟩⟩
  | cleared hi hc ho =>
    rw [ho]
    exact ⟨rfl, .inr ⟨.inr ⟨hc, hi⟩, fun _ => rfl⟩⟩

end Sys2Proof.Machine
end

section
/-!
PROOFS. The decoder and the encoder (30_encoding.md R61 to R63, R69): each undoes the other on the well-formed
instructions, and the words they leave out are the reserved commands and the five unassigned `PHASE` codes.
-/
namespace Sys2Proof.Machine

open Laws

variable {s : State} {w : Word} {c : BitVec 4} {i : Instr}

/-! ### Command words -/

/-- The reserved words are those the command map does not assign (R62, R63). -/
theorem reserved_iff : 4 ≤ w.toNat ↔ w ≠ 0 ∧ w ≠ 1 ∧ w ≠ 2 ∧ w ≠ 3 := by
  bv_omega

theorem wellFormed_reservedCmd_iff : WellFormed (.reservedCmd w) ↔ 4 ≤ w.toNat := decide_eq_true_iff

theorem decodeCmd_reserved (h : 4 ≤ w.toNat) : decodeCmd w = .reservedCmd w := by
  obtain ⟨h0, h1, h2, h3⟩ := reserved_iff.1 h
  rw [decodeCmd, if_neg h0, if_neg h1, if_neg h2, if_neg h3]

theorem decodeCmd_wellFormed (w : Word) : WellFormed (decodeCmd w) := by
  unfold decodeCmd
  split
  · rfl
  split
  · rfl
  split
  · rfl
  split
  · rfl
  next h0 h1 h2 h3 => exact wellFormed_reservedCmd_iff.2 (reserved_iff.2 ⟨h0, h1, h2, h3⟩)

/-! ### `PHASE` codes -/

theorem ofCode_code (p : Phase) : Phase.ofCode p.code = some p := by
  cases p <;> rfl

theorem code_of_ofCode {p : Phase} (h : Phase.ofCode c = some p) : p.code = c := by
  have every : ∀ c : BitVec 4, ∀ p ∈ Phase.ofCode c, p.code = c := by decide
  exact every c p h

/-- Codes 11 to 15 lie beyond the eleven phases (R69). -/
theorem ofCode_unassigned (h : 11 ≤ c.toNat) : Phase.ofCode c = none :=
  List.getElem?_eq_none h

theorem decode_phase_unassigned (h : 11 ≤ c.toNat) : decode (.phase c) = .error (.unassignedPhase c) := by
  have other : ∀ v : BitVec 4, v.toNat < 11 → c ≠ v := fun v hv e => absurd (e ▸ h) (Nat.not_le.2 hv)
  simp [decode, decodePhase, other]

theorem wellFormed_of_decode_phase {p : Phase} (h : decode (.phase p.code) = .ok i) : WellFormed i := by
  cases p <;> cases h <;> rfl

/-! ### Decoding and encoding -/

/-- What a word decodes to is well-formed and is encoded by that word. -/
theorem encode_of_decode {cw : CodeWord} (h : decode cw = .ok i) : WellFormed i ∧ encode i = cw := by
  cases cw with
  | cmd w =>
    cases h
    exact ⟨decodeCmd_wellFormed w, decodeCmd_encode w⟩
  | phase c =>
    obtain ⟨p, -, rfl⟩ := ofCode_of_decode h
    exact ⟨wellFormed_of_decode_phase h, encode_of_decode_phase h⟩

theorem decode_encode (h : WellFormed i) : decode (encode i) = .ok i := by
  cases i with
  | reservedCmd w => exact congrArg Except.ok (decodeCmd_reserved (wellFormed_reservedCmd_iff.1 h))
  | _ => rfl

/-- Settles O1: the encoder undoes the decoder on every word, the decoder the encoder on every well-formed instruction. -/
theorem decodeExact : Obligations.DecodeExact := by
  refine fun cw i => ⟨encode_of_decode, fun ⟨hwf, hcw⟩ => ?_⟩
  rw [← hcw]
  exact decode_encode hwf

/-- Settles O2: each word is the one that spells its instruction in the opcode table. -/
theorem wordsWrittenOut : Obligations.WordsWrittenOut :=
  ⟨(Spelled.nop rfl).2, (Spelled.compress rfl).2, (Spelled.decompress rfl).2, (Spelled.clear rfl).2,
    (Spelled.reservedCmd 4 rfl).2, (Spelled.reservedCmd 0xFFFFFFFF rfl).2,
    (Spelled.idle rfl).2, (Spelled.count rfl).2, (Spelled.loadhdr rfl).2, (Spelled.build rfl).2,
    (Spelled.emithdr rfl).2, (Spelled.codegen rfl).2, (Spelled.pack rfl).2, (Spelled.finish rfl).2,
    (Spelled.rdtrailer rfl).2, (Spelled.unpack rfl).2, (Spelled.endcheck rfl).2, rfl⟩

/-- Settles O3: `Phase.ofCode` and `Phase.code` are inverse, and a code from 11 on is no phase's. -/
theorem phaseCodes : Obligations.PhaseCodes := by
  refine ⟨fun c p => ⟨code_of_ofCode, fun h => ?_⟩, fun c h => ⟨decode_phase_unassigned h, ofCode_unassigned h⟩⟩
  rw [← h]
  exact ofCode_code p

/-! ### Acceptance of a command (40_commands.md R80, 70_reset_and_hazards.md R210) -/

theorem accepted_of_idle (k : Res) (hp : s.phase = .idle) (hr : s.outside.rst = false) : accepted s k = k := by
  rw [accepted, (State.busy_eq_false_iff s).2 hp, hr]
  rfl

theorem accepted_of_dropped (k : Res) (h : s.phase ≠ .idle ∨ s.outside.rst = true) : accepted s k = .next s := by
  rw [accepted, if_pos]
  rwa [Bool.or_eq_true, State.busy_iff]

/-- `raise` of a machine in IDLE leaves `PHASE` as it is (60_exceptions.md R190). -/
theorem State.raise_of_idle (e : ErrCode) (hp : s.phase = .idle) :
    s.raise e = { s with err := true, done := false, errcode := e.code.setWidth 32, stage := .entry } := by
  rw [State.raise, ← hp]

/-- Settles O10: a reserved word is none of the four assigned ones; taken it raises, otherwise it is dropped. -/
theorem reservedRaises : Obligations.ReservedRaises := by
  refine fun s w hw => ⟨congrArg Except.ok (decodeCmd_reserved hw), fun hp hr => ?_, accepted_of_dropped _⟩
  calc exec (.reservedCmd w) s = .next (s.raise .illcmd) := accepted_of_idle _ hp hr
    _ = _ := by rw [State.raise_of_idle _ hp]; rfl

end Sys2Proof.Machine
end

section
/-!
PROOFS. The host commands at acceptance (40_commands.md R80 to R84; 70_reset_and_hazards.md R210).
-/
namespace Sys2Proof.Machine

variable {s : State}

/-- Settles O6: taken or dropped, NOP answers the state it was given. -/
theorem nopChangesNothing : Obligations.NopChangesNothing :=
  fun _ => ite_self _

/-- `E_TOOLARGE` at acceptance (R82, R83), for either command. -/
theorem clearFor_raise_of_idle (op : OpKind) (e : ErrCode) (hp : s.phase = .idle) :
    (s.clearFor op).raise e = { s with
      done := false, err := true, errcode := e.code.setWidth 32, outCnt := 0, op := op, stage := .entry } :=
  State.raise_of_idle (s := s.clearFor op) e hp

theorem execCompress_of_idle (hp : s.phase = .idle) (hr : s.outside.rst = false) :
    execCompress s = if Config.maxLen < s.inLen.toNat then .next ((s.clearFor .comp).raise .toolarge)
      else .next ((s.clearFor .comp).goto .count) :=
  accepted_of_idle _ hp hr

theorem execDecompress_of_idle (hp : s.phase = .idle) (hr : s.outside.rst = false) :
    execDecompress s = if Config.maxLen < s.inLen.toNat then .next ((s.clearFor .decomp).raise .toolarge)
      else if s.inLen.toNat < Config.minStream then .next ((s.clearFor .decomp).raise .short)
      else .next ((s.clearFor .decomp).goto .loadhdr) :=
  accepted_of_idle _ hp hr

/-- Settles O7: in IDLE the bound on `IN_LEN` decides between COUNT and `E_TOOLARGE`; otherwise the write is dropped. -/
theorem compressAcceptance : Obligations.CompressAcceptance := by
  refine fun s => ⟨fun hp hr => ⟨fun hle => ?_, fun hlt => ?_⟩, accepted_of_dropped _⟩
  · calc exec .compress s = .next ((s.clearFor .comp).goto .count) := by
          rw [exec, execCompress_of_idle hp hr, if_neg (Nat.not_lt.2 hle)]
      _ = _ := rfl
  · calc exec .compress s = .next ((s.clearFor .comp).raise .toolarge) := by
          rw [exec, execCompress_of_idle hp hr, if_pos hlt]
      _ = _ := by rw [clearFor_raise_of_idle _ _ hp]; rfl

/-- Settles O8: in IDLE the two bounds on `IN_LEN` decide, `E_TOOLARGE` first; otherwise the write is dropped. -/
theorem decompressAcceptance : Obligations.DecompressAcceptance := by
  refine fun s => ⟨fun hp hr => ⟨fun hge hle => ?_, fun hlt => ?_, fun hlt => ?_⟩, accepted_of_dropped _⟩
  · calc exec .decompress s = .next ((s.clearFor .decomp).goto .loadhdr) := by
          rw [exec, execDecompress_of_idle hp hr, if_neg (Nat.not_lt.2 hle), if_neg (Nat.not_lt.2 hge)]
      _ = _ := rfl
  · calc exec .decompress s = .next ((s.clearFor .decomp).raise .toolarge) := by
          rw [exec, execDecompress_of_idle hp hr, if_pos hlt]
      _ = _ := by rw [clearFor_raise_of_idle _ _ hp]; rfl
  · have hle : ¬Config.maxLen < s.inLen.toNat := by simp only [Config.maxLen]; omega
    calc exec .decompress s = .next ((s.clearFor .decomp).raise .short) := by
          rw [exec, execDecompress_of_idle hp hr, if_neg hle, if_pos hlt]
      _ = _ := by rw [clearFor_raise_of_idle _ _ hp]; rfl

/-- Settles O9: a CLEAR taken from IDLE writes the flags, `OUT_CNT` and `OP`; otherwise it is dropped. -/
theorem clearAcknowledges : Obligations.ClearAcknowledges :=
  fun _ => ⟨accepted_of_idle _, accepted_of_dropped _⟩

end Sys2Proof.Machine
end

section
/-!
PROOFS. The header as a byte sequence (41_frequency_table.md R101, R102, R104, R106): byte `k` of the count of `v` stands
at `4v + k`, `unhdr` undoes `hdr`, and the counts of a sequence add up to its length.
-/
namespace Sys2Proof.Machine

/-! ### A count and its four bytes -/

theorem countByte_getLsbD (c : Word) (k : Fin 4) (i : Nat) :
    (countByte c k).getLsbD i = (decide (i < 8) && c.getLsbD (8 * k.val + i)) := by
  simp [countByte]

/-- A byte of a count, moved back to its place. -/
theorem countByte_shift_getLsbD (c : Word) (k : Fin 4) {i : Nat} (hi : i < 32) :
    ((countByte c k).setWidth 32 <<< (8 * k.val)).getLsbD i = (decide (i / 8 = k.val) && c.getLsbD i) := by
  rw [BitVec.getLsbD_shiftLeft, BitVec.getLsbD_setWidth, countByte_getLsbD]
  by_cases h : i / 8 = k.val
  · have e : 8 * k.val + (i - 8 * k.val) = i := by omega
    have h1 : ¬i < 8 * k.val := by omega
    have h2 : i - 8 * k.val < 8 := by omega
    have h3 : i - 8 * k.val < 32 := by omega
    simp [h, hi, h1, h2, h3, e]
  · have h1 : i < 8 * k.val ∨ ¬i - 8 * k.val < 8 := by omega
    obtain h1 | h1 := h1 <;> simp [h, h1]

theorem assembleCount_eq (b0 b1 b2 b3 : Byte) : assembleCount b0 b1 b2 b3 =
    b0.setWidth 32 <<< (8 * 0) ||| b1.setWidth 32 <<< (8 * 1) ||| b2.setWidth 32 <<< (8 * 2) |||
      b3.setWidth 32 <<< (8 * 3) := by
  rw [Nat.mul_zero, BitVec.shiftLeft_zero]
  rfl

/-- R73: the four bytes of a count make up the count again. -/
theorem assembleCount_countBytes (c : Word) :
    assembleCount (countByte c 0) (countByte c 1) (countByte c 2) (countByte c 3) = c := by
  refine BitVec.eq_of_getLsbD_eq fun i hi => ?_
  have byte := fun k => countByte_shift_getLsbD c k hi
  calc (assembleCount (countByte c 0) (countByte c 1) (countByte c 2) (countByte c 3)).getLsbD i
      = (decide (i / 8 = 0) && c.getLsbD i || decide (i / 8 = 1) && c.getLsbD i ||
          decide (i / 8 = 2) && c.getLsbD i || decide (i / 8 = 3) && c.getLsbD i) := by
        rw [assembleCount_eq, BitVec.getLsbD_or, BitVec.getLsbD_or, BitVec.getLsbD_or]
        exact congrArg₂ _ (congrArg₂ _ (congrArg₂ _ (byte 0) (byte 1)) (byte 2)) (byte 3)
    _ = c.getLsbD i := by
        obtain h | h | h | h : i / 8 = 0 ∨ i / 8 = 1 ∨ i / 8 = 2 ∨ i / 8 = 3 := by omega
        all_goals simp [h]

theorem countBytes_length (c : Word) : (countBytes c).length = 4 := rfl

theorem countBytes_getElem? (c : Word) (k : Fin 4) : (countBytes c)[k.val]? = some (countByte c k) := by
  match k with
  | 0 | 1 | 2 | 3 => rfl

/-! ### `hdr` and `unhdr` -/

theorem allBytes_length : allBytes.length = 256 := by simp [allBytes]

theorem allBytes_getElem? (v : Byte) : allBytes[v.toNat]? = some v := by
  simp [allBytes, v.isLt]

theorem allBytes_take_succ (v : Byte) : allBytes.take (v.toNat + 1) = allBytes.take v.toNat ++ [v] := by
  rw [List.take_add_one, allBytes_getElem?]
  rfl

/-- Element `k` of chunk `i`, where every chunk has `n` elements. -/
theorem getElem?_flatMap_chunks {α β : Type} {f : α → List β} {n : Nat} (hf : ∀ a, (f a).length = n) {k : Nat}
    (hk : k < n) (l : List α) (i : Nat) : (l.flatMap f)[n * i + k]? = l[i]?.bind fun a => (f a)[k]? := by
  induction l generalizing i with
  | nil => simp
  | cons a l ih =>
    rw [List.flatMap_cons]
    cases i with
    | zero => rw [Nat.mul_zero, Nat.zero_add, List.getElem?_append_left (hf a ▸ hk)]; rfl
    | succ i =>
      have e : n * (i + 1) + k - (f a).length = n * i + k := by rw [hf, Nat.mul_succ]; omega
      rw [List.getElem?_append_right (by rw [hf, Nat.mul_succ]; omega), e, ih]
      rfl

theorem hdr_length (F : Counts) : (hdr F).length = 1024 := by
  rw [hdr, List.length_flatMap, List.map_congr_left fun v _ => countBytes_length (F v), List.map_const',
    List.sum_replicate, allBytes_length]
  rfl

/-- Byte `k` of the count of `v` (R104). -/
theorem hdr_getElem? (F : Counts) (v : Byte) (k : Fin 4) : (hdr F)[4 * v.toNat + k.val]? = some (countByte (F v) k) := by
  rw [hdr, getElem?_flatMap_chunks (fun v => countBytes_length (F v)) k.isLt, allBytes_getElem?]
  exact countBytes_getElem? (F v) k

theorem hdr_getD (F : Counts) (v : Byte) (k : Fin 4) : (hdr F).getD (4 * v.toNat + k.val) 0 = countByte (F v) k := by
  rw [List.getD_eq_getElem?_getD, hdr_getElem?, Option.getD_some]

theorem unhdr_hdr (F : Counts) : unhdr (hdr F) = F := by
  funext v
  calc unhdr (hdr F) v
      = assembleCount (countByte (F v) 0) (countByte (F v) 1) (countByte (F v) 2) (countByte (F v) 3) := by
        rw [← hdr_getD F v 0, ← hdr_getD F v 1, ← hdr_getD F v 2, ← hdr_getD F v 3]
        rfl
    _ = F v := assembleCount_countBytes (F v)

/-! ### The sum of the counts -/

theorem freq_toNat {b : List Byte} (h : b.length < 2 ^ 32) (v : Byte) : (freq b v).toNat = b.count v := by
  have := List.count_le_length (a := v) (l := b)
  rw [freq, BitVec.toNat_ofNat, Nat.mod_eq_of_lt (by omega)]

/-- R102: the counts of a byte sequence add up to its length. -/
theorem countSum_freq {b : List Byte} (h : b.length < 2 ^ 32) : countSum (freq b) = b.length := by
  have hall : ∀ v ∈ (b : Multiset Byte), v ∈ allBytes.toFinset := fun v _ => List.mem_toFinset.2 (mem_allBytes v)
  have hsum := Multiset.sum_count_eq_card hall
  rw [List.sum_toFinset _ nodup_allBytes] at hsum
  simpa only [countSum, freq_toNat h, Multiset.coe_count, Multiset.coe_card] using hsum

end Sys2Proof.Machine
end

section
/-!
PROOFS. The tree of a table (42_tree_builder.md R115, R118, R120; 43_code_table.md R131): a bit sequence leads to at most
one leaf, a merge round keeps the leaves together, and every byte value has a code of 1 to 255 bits.
-/
namespace Sys2Proof.Machine

variable {F : Counts} {t : Tree} {v : Byte} {p : List Bool}

/-! ### The leaves of a tree -/

theorem Tree.weight_eq_sum (F : Counts) (t : Tree) : t.weight F = (t.leaves.map fun v => (F v).toNat).sum := by
  induction t with
  | leaf v => simp [Tree.weight, Tree.leaves]
  | node l r ihl ihr => simp [Tree.weight, Tree.leaves, ihl, ihr]

theorem Tree.leaves_length_pos (t : Tree) : 0 < t.leaves.length := by
  induction t with
  | leaf v => exact Nat.one_pos
  | node l r ihl _ =>
    rw [Tree.leaves, List.length_append]
    omega

/-- The byte value at the leaf a bit sequence leads to: 0 to the left child, 1 to the right one (R131). -/
def Tree.leafAt : Tree → List Bool → Option Byte
  | .leaf v, [] => some v
  | .node l _, false :: p => l.leafAt p
  | .node _ r, true :: p => r.leafAt p
  | _, _ => none

theorem Tree.mem_leaves_of_leafAt (h : t.leafAt p = some v) : v ∈ t.leaves := by
  induction t, p using Tree.leafAt.induct with
  | case1 u => cases h; exact List.mem_singleton_self _
  | case2 l r p ih => exact List.mem_append_left _ (ih h)
  | case3 l r p ih => exact List.mem_append_right _ (ih h)
  | case4 => simp [Tree.leafAt] at h

/-- R120: a leaf lies less deep than the tree has leaves. -/
theorem Tree.length_lt_of_leafAt (h : t.leafAt p = some v) : p.length < t.leaves.length := by
  induction t, p using Tree.leafAt.induct with
  | case1 u => exact Nat.one_pos
  | case2 l r p ih =>
    have := ih h
    have := r.leaves_length_pos
    simp only [Tree.leaves, List.length_append, List.length_cons]
    omega
  | case3 l r p ih =>
    have := ih h
    have := l.leaves_length_pos
    simp only [Tree.leaves, List.length_append, List.length_cons]
    omega
  | case4 => simp [Tree.leafAt] at h

theorem Tree.path_eq_none (h : v ∉ t.leaves) : t.path v = none := by
  induction t with
  | leaf u =>
    rw [Tree.path, if_neg]
    exact fun e => h (e ▸ List.mem_singleton_self u)
  | node l r ihl ihr =>
    rw [Tree.leaves, List.mem_append, not_or] at h
    rw [Tree.path, ihl h.1, ihr h.2]

theorem Tree.leafAt_of_path (h : t.path v = some p) : t.leafAt p = some v := by
  induction t generalizing p with
  | leaf u =>
    rw [Tree.path] at h
    split at h
    · next e =>
      cases h
      exact congrArg some e
    · cases h
  | node l r ihl ihr =>
    rw [Tree.path] at h
    split at h
    · next hl =>
      cases h
      exact ihl hl
    split at h
    · next hr =>
      cases h
      exact ihr hr
    · cases h

theorem Tree.exists_path (h : v ∈ t.leaves) : ∃ p, t.path v = some p := by
  induction t with
  | leaf u =>
    rw [Tree.path, if_pos (List.mem_singleton.1 h).symm]
    exact ⟨_, rfl⟩
  | node l r ihl ihr =>
    rw [Tree.path]
    split
    · exact ⟨_, rfl⟩
    next hl =>
    split
    · exact ⟨_, rfl⟩
    next hr =>
    obtain h | h := List.mem_append.1 h
    · obtain ⟨p, hp⟩ := ihl h
      rw [hl] at hp
      cases hp
    · obtain ⟨p, hp⟩ := ihr h
      rw [hr] at hp
      cases hp

/-- Where no byte value has two leaves, the way to a leaf is the path to its value. -/
theorem Tree.path_of_leafAt (hn : t.leaves.Nodup) (h : t.leafAt p = some v) : t.path v = some p := by
  induction t, p using Tree.leafAt.induct with
  | case1 u =>
    cases h
    rw [Tree.path, if_pos rfl]
  | case2 l r p ih =>
    rw [Tree.path, ih (List.nodup_append.1 hn).1 h]
  | case3 l r p ih =>
    obtain ⟨-, hr, hlr⟩ := List.nodup_append.1 hn
    have hl : v ∉ l.leaves := fun hv => hlr v hv v (Tree.mem_leaves_of_leafAt h) rfl
    rw [Tree.path, Tree.path_eq_none hl, ih hr h]
  | case4 => simp [Tree.leafAt] at h

/-! ### The order of the live roots -/

theorem Root.before_iff {x y : Root} : Root.before F x y = true ↔
    x.2.weight F < y.2.weight F ∨ x.2.weight F = y.2.weight F ∧ x.1 < y.1 := by
  simp [Root.before]

theorem Root.not_before {x y : Root} (h : Root.before F x y = true) : Root.before F y x = false := by
  rw [← Bool.not_eq_true, Root.before_iff]
  rw [Root.before_iff] at h
  omega

theorem leastRoot_mem {l : List Root} {x : Root} (h : leastRoot F l = some x) : x ∈ l := by
  induction l generalizing x with
  | nil => cases h
  | cons y l ih =>
    rw [leastRoot] at h
    split at h
    · cases h
      exact List.mem_cons_self
    · next z hz =>
      cases h
      split
      · exact List.mem_cons_of_mem _ (ih hz)
      · exact List.mem_cons_self

theorem leastRoot_of_ne_nil {l : List Root} (h : l ≠ []) : ∃ x, leastRoot F l = some x := by
  match l, h with
  | y :: l, _ =>
    rw [leastRoot]
    split <;> exact ⟨_, rfl⟩

/-- The root before all others is the least one (R115). -/
theorem leastRoot_eq {l : List Root} {x : Root} (hx : x ∈ l) (hb : ∀ y ∈ l, y ≠ x → Root.before F x y = true) :
    leastRoot F l = some x := by
  induction l with
  | nil => cases hx
  | cons y l ih =>
    rw [leastRoot]
    by_cases hxl : x ∈ l
    · rw [ih hxl fun z hz => hb z (List.mem_cons_of_mem _ hz)]
      simp only
      by_cases e : y = x
      · rw [e, ite_self]
      · rw [if_pos (hb y List.mem_cons_self e)]
    · obtain rfl := (List.mem_cons.1 hx).resolve_right hxl
      split
      · rfl
      · next z hz =>
        have hzl := leastRoot_mem hz
        have hzx : z ≠ x := fun e => hxl (e ▸ hzl)
        rw [Root.not_before (hb z (List.mem_cons_of_mem _ hzl) hzx)]
        rfl

/-! ### The rounds -/

/-- The other roots than the one of slot `k`. -/
abbrev otherRoots (k : Nat) (roots : List Root) : List Root := roots.filter fun x => x.1 ≠ k

theorem perm_cons_otherRoots {roots : List Root} {x : Root} (hn : (roots.map Prod.fst).Nodup) (hx : x ∈ roots) :
    roots.Perm (x :: otherRoots x.1 roots) := by
  induction roots with
  | nil => cases hx
  | cons y roots ih =>
    obtain ⟨hy, hn⟩ := List.nodup_cons.1 hn
    obtain rfl | hx := List.mem_cons.1 hx
    · have hall : ∀ z ∈ roots, decide (z.1 ≠ x.1) = true := fun z hz =>
        decide_eq_true fun e => hy (e ▸ List.mem_map_of_mem hz)
      rw [otherRoots, List.filter_cons_of_neg (by simp), List.filter_eq_self.2 hall]
    · have hyx : y.1 ≠ x.1 := fun e => hy (e ▸ List.mem_map_of_mem hx)
      rw [otherRoots, List.filter_cons_of_pos (by simpa using hyx)]
      exact ((ih hn hx).cons y).trans (.swap x y _)

/-- `n` live roots in different slots share out the leaves (R118). -/
structure RootsOk (n : Nat) (roots : List Root) : Prop where
  slots : (roots.map Prod.fst).Nodup
  leaves : (roots.flatMap fun x => x.2.leaves).Perm allBytes
  length : roots.length = n

theorem rootsOk_leafRoots : RootsOk 256 leafRoots where
  slots := by
    rw [leafRoots, List.map_map]
    exact nodup_allBytes.map_on fun u _ v _ e => BitVec.eq_of_toNat_eq e
  leaves := by
    rw [leafRoots, List.flatMap_map]
    exact .of_eq (List.flatMap_singleton' allBytes)
  length := by rw [leafRoots, List.length_map, allBytes_length]

/-- What a round does to two or more roots. -/
structure Merges (F : Counts) (roots : List Root) (a b : Root) (rest : List Root) : Prop where
  least : leastRoot F roots = some a
  second : leastRoot F (otherRoots a.1 roots) = some b
  perm : roots.Perm (a :: b :: rest)
  merged : mergeRoots F roots = (a.1, .node a.2 b.2) :: rest

theorem merges_of_least {roots : List Root} (hn : (roots.map Prod.fst).Nodup) {a b : Root}
    (ha : leastRoot F roots = some a) (hb : leastRoot F (otherRoots a.1 roots) = some b) :
    Merges F roots a b (otherRoots b.1 (otherRoots a.1 roots)) where
  least := ha
  second := hb
  perm := by
    have hothers : ((otherRoots a.1 roots).map Prod.fst).Nodup := hn.sublist (List.filter_sublist.map _)
    exact (perm_cons_otherRoots hn (leastRoot_mem ha)).trans ((perm_cons_otherRoots hothers (leastRoot_mem hb)).cons a)
  merged := by
    obtain ⟨sa, ta⟩ := a
    obtain ⟨sb, tb⟩ := b
    simp only [otherRoots] at hb
    simp only [mergeRoots, ha, hb]

theorem RootsOk.merges {n : Nat} {roots : List Root} (h : RootsOk (n + 2) roots) (F : Counts) :
    ∃ a b rest, Merges F roots a b rest := by
  obtain ⟨a, ha⟩ := leastRoot_of_ne_nil (F := F) (l := roots) fun e => by simpa [e] using h.length
  have hlen := (perm_cons_otherRoots h.slots (leastRoot_mem ha)).length_eq
  rw [h.length, List.length_cons] at hlen
  obtain ⟨b, hb⟩ := leastRoot_of_ne_nil (F := F) (l := otherRoots a.1 roots) fun e => by simp [e] at hlen
  exact ⟨a, b, _, merges_of_least h.slots ha hb⟩

theorem RootsOk.merge {n : Nat} {roots : List Root} (h : RootsOk (n + 2) roots) (F : Counts) :
    RootsOk (n + 1) (mergeRoots F roots) := by
  obtain ⟨a, b, rest, hm⟩ := h.merges F
  have hslots := (hm.perm.map Prod.fst).nodup h.slots
  have hlen := hm.perm.length_eq
  rw [h.length] at hlen
  rw [hm.merged]
  refine ⟨?_, ?_, ?_⟩
  · simp only [List.map_cons, List.nodup_cons, List.mem_cons, not_or] at hslots ⊢
    exact ⟨hslots.1.2, hslots.2.2⟩
  · refine .trans (.of_eq ?_) ((hm.perm.flatMap_right _).symm.trans h.leaves)
    simp [Tree.leaves]
  · simp only [List.length_cons] at hlen ⊢
    omega

theorem mergeRounds_succ (F : Counts) (n : Nat) (roots : List Root) :
    mergeRounds F (n + 1) roots = mergeRoots F (mergeRounds F n roots) := by
  induction n generalizing roots with
  | zero => rfl
  | succ n ih => rw [mergeRounds, ih, mergeRounds]

/-- The live roots after `m` rounds from the leaves. -/
def rootsAfter (F : Counts) (m : Nat) : List Root := mergeRounds F m leafRoots

theorem rootsAfter_succ (F : Counts) (m : Nat) : rootsAfter F (m + 1) = mergeRoots F (rootsAfter F m) :=
  mergeRounds_succ F m leafRoots

theorem rootsOk_rootsAfter {m : Nat} (h : m ≤ 255) (F : Counts) : RootsOk (256 - m) (rootsAfter F m) := by
  induction m with
  | zero => exact rootsOk_leafRoots
  | succ m ih =>
    have hm := ih (Nat.le_of_succ_le h)
    rw [show 256 - m = 254 - m + 2 by omega] at hm
    rw [rootsAfter_succ, show 256 - (m + 1) = 254 - m + 1 by omega]
    exact hm.merge F

/-- The weights of the live roots add up to the sum of the table (R117). -/
theorem RootsOk.sum_weight {n : Nat} {roots : List Root} (h : RootsOk n roots) (F : Counts) :
    (roots.map fun x => x.2.weight F).sum = countSum F := by
  have hleaves : ∀ l : List Root, (l.map fun x => x.2.weight F).sum =
      ((l.flatMap fun x => x.2.leaves).map fun v => (F v).toNat).sum := fun l => by
    induction l with
    | nil => rfl
    | cons x l ih =>
      rw [List.map_cons, List.sum_cons, ih, Tree.weight_eq_sum, List.flatMap_cons, List.map_append, List.sum_append]
  rw [hleaves, (h.leaves.map _).sum_eq, countSum]

/-! ### The tree and the codes -/

/-- After 255 rounds a single root is left, and `tree` is its tree. -/
theorem rootsAfter_255 (F : Counts) : ∃ k, rootsAfter F 255 = [(k, tree F)] := by
  have h := (rootsOk_rootsAfter (Nat.le_refl 255) F).length
  obtain ⟨⟨k, t⟩, hx⟩ := List.length_eq_one_iff.1 h
  refine ⟨k, ?_⟩
  unfold tree
  rw [rootsAfter] at hx
  rw [rootsAfter, hx]

theorem tree_leaves_perm (F : Counts) : (tree F).leaves.Perm allBytes := by
  obtain ⟨k, hk⟩ := rootsAfter_255 F
  have h := (rootsOk_rootsAfter (Nat.le_refl 255) F).leaves
  rw [hk] at h
  simpa only [List.flatMap_cons, List.flatMap_nil, List.append_nil] using h

theorem tree_leaves_nodup (F : Counts) : (tree F).leaves.Nodup := (tree_leaves_perm F).symm.nodup nodup_allBytes

theorem tree_leaves_length (F : Counts) : (tree F).leaves.length = 256 :=
  (tree_leaves_perm F).length_eq.trans allBytes_length

theorem tree_path (F : Counts) (v : Byte) : (tree F).path v = some (code F v) := by
  obtain ⟨p, hp⟩ := Tree.exists_path ((tree_leaves_perm F).mem_iff.2 (mem_allBytes v))
  rw [code, hp, Option.getD_some]

theorem tree_leafAt_code (F : Counts) (v : Byte) : (tree F).leafAt (code F v) = some v :=
  Tree.leafAt_of_path (tree_path F v)

/-- The code of `v` is the only way to a leaf of `v`. -/
theorem code_of_leafAt (h : (tree F).leafAt p = some v) : code F v = p :=
  Option.some.inj ((tree_path F v).symm.trans (Tree.path_of_leafAt (tree_leaves_nodup F) h))

theorem tree_is_node (F : Counts) : ∃ l r, tree F = .node l r := by
  have h := tree_leaves_length F
  cases ht : tree F with
  | leaf v =>
    rw [ht] at h
    cases h
  | node l r => exact ⟨l, r, rfl⟩

theorem code_length_le (F : Counts) (v : Byte) : (code F v).length ≤ 255 := by
  have := Tree.length_lt_of_leafAt (tree_leafAt_code F v)
  rw [tree_leaves_length] at this
  omega

end Sys2Proof.Machine
end

section
/-!
PROOFS. `decompress` undoes `compress` (40_commands.md R90 to R92): the walk cuts the codes apart again (45_decoder.md
R171), the packed stream holds the code bits and counts its padding (44_encoder.md R144, R148).
-/
namespace Sys2Proof.Machine

variable {t l r l' r' : Tree} {n : Nat} {b : List Byte} {v : Byte} {x atRoot : Bool} {out : List Byte} {bits : List Bool}

/-! ### The walk -/

theorem unwalkFrom_leaf (h : (if x then r else l) = .leaf v) : unwalkFrom t n (.node l r) atRoot out (x :: bits) =
    if out.length = n then .err .excess out else unwalkFrom t n t true (out ++ [v]) bits := by
  rw [unwalkFrom, h]

theorem unwalkFrom_node (h : (if x then r else l) = .node l' r') :
    unwalkFrom t n (.node l r) atRoot out (x :: bits) = unwalkFrom t n (.node l' r') false out bits := by
  rw [unwalkFrom, h]

theorem Tree.leafAt_cons (l r : Tree) (x : Bool) (p : List Bool) :
    (Tree.node l r).leafAt (x :: p) = (if x then r else l).leafAt p := by
  cases x <;> rfl

/-- From an internal node the bits down to a leaf lead to its byte, or to `E_EXCESS` when all bytes are out. -/
theorem unwalkFrom_leafAt {p : List Bool} (h : (Tree.node l r).leafAt p = some v) :
    unwalkFrom t n (.node l r) atRoot out (p ++ bits) =
      if out.length = n then .err .excess out else unwalkFrom t n t true (out ++ [v]) bits := by
  induction p generalizing l r atRoot with
  | nil => cases h
  | cons x p ih =>
    rw [Tree.leafAt_cons] at h
    rw [List.cons_append]
    cases hc : (if x then r else l) with
    | leaf u =>
      rw [hc] at h
      cases p with
      | nil =>
        cases h
        exact unwalkFrom_leaf hc
      | cons y p => cases h
    | node l' r' =>
      rw [hc] at h
      rw [unwalkFrom_node hc]
      exact ih h

/-- R171: the walk of the codes of `b` gives `b`. -/
theorem unwalkFrom_codes (F : Counts) (h : out.length + b.length = n) :
    unwalkFrom (tree F) n (tree F) true out (b.flatMap (code F)) = .ok (out ++ b) := by
  induction b generalizing out with
  | nil =>
    rw [List.length_nil, Nat.add_zero] at h
    rw [List.flatMap_nil, List.append_nil, unwalkFrom, if_neg (by simp), if_neg (by simpa using h)]
  | cons v b ih =>
    obtain ⟨l, r, ht⟩ := tree_is_node F
    have hv := tree_leafAt_code F v
    rw [List.length_cons] at h
    have hstep := unwalkFrom_leafAt (t := tree F) (n := n) (atRoot := true) (out := out)
      (bits := b.flatMap (code F)) (ht ▸ hv)
    rw [← ht, if_neg (by omega)] at hstep
    rw [List.flatMap_cons, hstep, ih (by rw [List.length_append, List.length_singleton]; omega), List.append_assoc,
      List.singleton_append]

/-! ### The packed stream -/

theorem byteBits_byteOfBits {l : List Bool} (h : l.length = 8) : byteBits (byteOfBits l) = l := by
  have every : ∀ b7 b6 b5 b4 b3 b2 b1 b0 : Bool,
      byteBits (byteOfBits [b7, b6, b5, b4, b3, b2, b1, b0]) = [b7, b6, b5, b4, b3, b2, b1, b0] := by decide
  match l, h with
  | [b7, b6, b5, b4, b3, b2, b1, b0], _ => exact every b7 b6 b5 b4 b3 b2 b1 b0

theorem bitsOf_length (B : List Byte) : (bitsOf B).length = 8 * B.length := by
  induction B with
  | nil => rfl
  | cons v B ih =>
    rw [List.length_cons, Nat.mul_succ, ← ih, Nat.add_comm]
    exact List.length_append

/-- R148: whole bytes hold the bits they were made of. -/
theorem bitsOf_bytesOfBits {s : List Bool} (h : 8 ∣ s.length) : bitsOf (bytesOfBits s) = s := by
  obtain ⟨k, hk⟩ := h
  induction k generalizing s with
  | zero =>
    rw [List.length_eq_zero_iff.1 hk]
    rfl
  | succ k ih =>
    have h8 : (s.take 8).length = 8 := by rw [List.length_take]; omega
    calc bitsOf (bytesOfBits s)
        = bitsOf (bytesOfBits (s.take 8 ++ s.drop 8)) := by rw [List.take_append_drop]
      _ = byteBits (byteOfBits (s.take 8)) ++ bitsOf (bytesOfBits (s.drop 8)) := by
        rw [bytesOfBits_append_eight h8]
        exact List.flatMap_cons
      _ = s := by
        rw [byteBits_byteOfBits h8, ih (by rw [List.length_drop]; omega), List.take_append_drop]

/-- The body of a packed stream (R148): the bits and their padding, in whole bytes. -/
def packedBody (c : List Bool) : List Byte := bytesOfBits (c ++ List.replicate (padding c.length) false)

theorem packBits_eq (c : List Bool) : packBits c = packedBody c ++ [BitVec.ofNat 8 (padding c.length)] := rfl

theorem padding_le (n : Nat) : padding n ≤ 7 := by
  unfold padding
  omega

theorem bitsOf_packedBody (c : List Bool) : bitsOf (packedBody c) = c ++ List.replicate (padding c.length) false := by
  refine bitsOf_bytesOfBits ?_
  rw [List.length_append, List.length_replicate, padding]
  omega

theorem packedBody_length (c : List Bool) : 8 * (packedBody c).length = c.length + padding c.length := by
  rw [← bitsOf_length, bitsOf_packedBody, List.length_append, List.length_replicate]

/-! ### The whole stream -/

/-- R91 of a header, a body and a trailer that fit together. -/
theorem decompress_of_parts {F : Counts} {body : List Byte} {p : Nat} (hlen : body.length + 1025 ≤ Config.maxLen)
    (hsum : countSum F ≤ Config.maxLen) (hp : p ≤ 7) (h0 : body.length = 0 → p = 0) :
    decompress (hdr F ++ (body ++ [BitVec.ofNat 8 p])) =
      unwalk (tree F) (countSum F) ((bitsOf body).take (8 * body.length - p)) := by
  have hS : (hdr F ++ (body ++ [BitVec.ofNat 8 p])).length = body.length + 1025 := by
    rw [List.length_append, hdr_length, List.length_append, List.length_singleton]
    omega
  have hlast : (hdr F ++ (body ++ [BitVec.ofNat 8 p])).getD (body.length + 1025 - 1) 0 = BitVec.ofNat 8 p := by
    have hi : body.length + 1025 - 1 = (hdr F ++ body).length := by
      rw [List.length_append, hdr_length]
      omega
    rw [List.getD_eq_getElem?_getD, ← List.append_assoc, hi, List.getElem?_concat_length, Option.getD_some]
  have hP : (BitVec.ofNat 8 p).toNat = p := by
    rw [BitVec.toNat_ofNat]
    omega
  have htake : (hdr F ++ (body ++ [BitVec.ofNat 8 p])).take Config.hdrBytes = hdr F := List.take_left' (hdr_length F)
  have hdrop : (hdr F ++ (body ++ [BitVec.ofNat 8 p])).drop Config.hdrBytes = body ++ [BitVec.ofNat 8 p] :=
    List.drop_left' (hdr_length F)
  have hL : body.length + 1025 - Config.minStream = body.length := Nat.add_sub_cancel _ _
  simp only [decompress, hS, hlast, hP, htake, hdrop, hL, unhdr_hdr]
  rw [if_neg (Nat.not_lt.2 hlen), if_neg (Nat.not_lt.2 (Nat.le_add_left _ _)), if_neg (Nat.not_lt.2 hsum),
    if_neg (by omega), List.take_left]

/-- Settles O55: the stream's parts fit together, and the walk of the codes gives the bytes back. -/
theorem roundTrip : Obligations.RoundTrip := by
  intro b hb hc
  have hsum : countSum (freq b) = b.length := countSum_freq (by omega)
  set c := b.flatMap (code (freq b)) with hbits
  have hbody := packedBody_length c
  have hpad := padding_le c.length
  have hcompress : compress b = hdr (freq b) ++ (packedBody c ++ [BitVec.ofNat 8 (padding c.length)]) :=
    congrArg (hdr (freq b) ++ ·) (packBits_eq c)
  rw [hcompress, List.length_append, hdr_length, List.length_append, List.length_singleton] at hc
  have h0 : (packedBody c).length = 0 → padding c.length = 0 := by omega
  have hcodes : (bitsOf (packedBody c)).take (8 * (packedBody c).length - padding c.length) = c := by
    rw [hbody, Nat.add_sub_cancel, bitsOf_packedBody, List.take_left]
  rw [hcompress, decompress_of_parts (by simp only [Config.maxLen]; omega) (hsum ▸ hb) hpad h0, hcodes, hsum, hbits]
  exact unwalkFrom_codes (freq b) (Nat.zero_add _)

end Sys2Proof.Machine
end

section
/-!
PROOFS. The order of the phases (10_state.md R13; 40_commands.md R86 to R88): what a phase's step may leave PHASE as, and
with it every change of PHASE.
-/
namespace Sys2Proof.Machine

variable {s t : State} {p : State → Prop}

/-- The instruction a value of `PHASE` selects (30_encoding.md R69). -/
def Phase.instr : Phase → Instr
  | .idle => .idle
  | .count => .count
  | .loadhdr => .loadhdr
  | .build => .build
  | .emithdr => .emithdr
  | .codegen => .codegen
  | .pack => .pack
  | .finish => .finish
  | .rdtrailer => .rdtrailer
  | .unpack => .unpack
  | .endcheck => .endcheck

theorem decode_phase (p : Phase) : decode (.phase p.code) = .ok p.instr := by
  cases p <;> rfl

/-! ### How each phase is left -/

/-- The next state, if there is one, has `PHASE` as before or is one of `p`. -/
abbrev StaysOr (s : State) (p : State → Prop) (r : Res) : Prop := Answers (fun t => t.phase = s.phase ∨ p t) (fun _ => True) r

theorem raise_failedWith (s : State) (e : ErrCode) : FailedWith (s.raise e) e := ⟨rfl, rfl, rfl, rfl⟩

theorem clearEntry_next (v : BitVec 9) (s : State) : (clearEntry v s).phase = s.phase ∨ (clearEntry v s).phase = .build := by
  unfold clearEntry
  simp only
  split
  · exact .inl rfl
  split
  · exact .inr rfl
  · exact .inl rfl

theorem execCount_next (s : State) : StaysOr s (fun t => t.phase = .build) (execCount s) := by
  unfold execCount
  split
  · exact clearEntry_next 0 s
  · exact clearEntry_next s.work.vidx s
  · refine answers_inByte (.inl rfl) (fun _ => trivial) fun b => ?_
    simp only
    split
    · exact .inl rfl
    · exact .inr rfl
  · trivial

theorem loadEntry_next (b0 b1 b2 b3 : Byte) (s : State) : (loadEntry b0 b1 b2 b3 s).phase = s.phase ∨
    (loadEntry b0 b1 b2 b3 s).phase = .build ∨ FailedWith (loadEntry b0 b1 b2 b3 s) .sum := by
  unfold loadEntry checkSum
  simp only
  split
  · exact .inl rfl
  split
  · exact .inr (.inr (raise_failedWith _ _))
  · exact .inr (.inl rfl)

theorem execLoadhdr_next (s : State) :
    StaysOr s (fun t => t.phase = .build ∨ FailedWith t .sum) (execLoadhdr s) := by
  unfold execLoadhdr
  split
  · exact answers_inByte (.inl rfl) (fun _ => trivial) fun b => .inl rfl
  · unfold loadByte
    split
    · exact answers_inByte (.inl rfl) (fun _ => trivial) fun b => .inl rfl
    · exact answers_inByte (.inl rfl) (fun _ => trivial) fun b => .inl rfl
    · exact answers_inByte (.inl rfl) (fun _ => trivial) fun b => .inl rfl
    · exact answers_inByte (.inl rfl) (fun _ => trivial) fun b => loadEntry_next _ _ _ b s
    · trivial
  · trivial

theorem initLeaf_phase (v : BitVec 9) (s : State) : (initLeaf v s).phase = s.phase := by
  unfold initLeaf
  simp only
  split <;> rfl

theorem scanSlot_next_phase {ex best : Option Byte} {again : Option Byte → Stage} {found : Byte → State → State}
    (hf : ∀ b u, (found b u).phase = u.phase) : StaysOr s p (scanSlot ex best again found s) := by
  unfold scanSlot
  split
  · trivial
  · simp only
    split
    · exact .inl rfl
    split
    · trivial
    · exact .inl (hf _ _)

theorem mergeStep_next (s : State) : StaysOr s p (mergeStep s) := by
  unfold mergeStep
  simp only
  split
  · split
    · exact .inl (nextMerge_spec _).1
    · trivial
  · trivial

theorem execBuild_next (s : State) :
    StaysOr s (fun t => t.phase = if s.op = .comp then .emithdr else .rdtrailer) (execBuild s) := by
  unfold execBuild
  cases s.stage with
  | entry => exact .inl (initLeaf_phase _ s)
  | initLeaf => exact .inl (initLeaf_phase _ s)
  | scanA best => exact scanSlot_next_phase fun _ _ => rfl
  | scanB best => exact scanSlot_next_phase fun _ _ => rfl
  | merge => exact mergeStep_next s
  | root => exact .inr (takeRoot_spec s).1
  | _ => trivial

theorem emitCountByte_next (v : BitVec 9) (k : Fin 4) (s : State) :
    StaysOr s (fun t => t.phase = .codegen) (emitCountByte v k s) := by
  refine answers_whenAccepted (.inl rfl) ?_
  simp only
  split
  · exact .inl rfl
  split
  · exact .inl rfl
  · exact .inr rfl

theorem execEmithdr_next (s : State) : StaysOr s (fun t => t.phase = .codegen) (execEmithdr s) := by
  unfold execEmithdr
  split
  · exact emitCountByte_next 0 0 s
  · exact emitCountByte_next _ _ s
  · trivial

theorem visitNode_next (n : BitVec 9) (path : List Bool) (rest : List (BitVec 9 × List Bool)) (s : State) :
    StaysOr s (fun t => t.phase = .pack) (visitNode n path rest s) := by
  unfold visitNode
  split
  · split
    · cases rest with
      | nil => exact .inr rfl
      | cons => exact .inl rfl
    · trivial
  · split
    · trivial
    · exact .inl rfl

theorem execCodegen_next (s : State) : StaysOr s (fun t => t.phase = .pack) (execCodegen s) := by
  unfold execCodegen
  split
  · exact visitNode_next _ _ _ s
  · exact visitNode_next _ _ _ s
  · trivial

theorem packNextByte_next (s : State) : (packNextByte s).phase = s.phase ∨ (packNextByte s).phase = .finish := by
  unfold packNextByte
  simp only
  split
  · exact .inl rfl
  · exact .inr rfl

theorem packNextBit_next (s : State) : (packNextBit s).phase = s.phase ∨ (packNextBit s).phase = .finish := by
  unfold packNextBit
  split
  · exact .inl rfl
  · exact packNextByte_next s

theorem packPush_next (s : State) : StaysOr s (fun t => t.phase = .finish) (packPush s) := by
  unfold packPush
  split
  · trivial
  · unfold pushBit
    split
    · exact answers_whenAccepted (.inl rfl) (packNextBit_next _)
    · exact packNextBit_next _

theorem execPack_next (s : State) : StaysOr s (fun t => t.phase = .finish) (execPack s) := by
  unfold execPack
  split
  · unfold packStart
    simp only [Answers]
    split
    · exact .inr rfl
    · exact .inl rfl
  · refine answers_inByte (.inl rfl) (fun _ => trivial) fun b => ?_
    simp only
    split
    · exact packNextByte_next _
    · exact .inl rfl
  · exact packPush_next s
  · trivial

/-- `done` (R88): back in IDLE with `DONE` set and `ERR` as it was. -/
def CompletedFrom (s t : State) : Prop := t.phase = .idle ∧ t.done = true ∧ t.err = s.err

theorem finishTrailer_next (s : State) : StaysOr s (CompletedFrom s) (finishTrailer s) :=
  answers_whenAccepted (.inl rfl) (.inr ⟨rfl, rfl, rfl⟩)

theorem execFinish_next (s : State) : StaysOr s (CompletedFrom s) (execFinish s) := by
  unfold execFinish
  split
  · unfold finishData
    split
    · exact finishTrailer_next s
    split <;> exact answers_whenAccepted (.inl rfl) (.inl rfl)
  · exact finishTrailer_next s
  · trivial

theorem execRdtrailer_next (s : State) :
    StaysOr s (fun t => t.phase = .unpack ∨ FailedWith t .pad) (execRdtrailer s) := by
  unfold execRdtrailer
  split
  · refine answers_inByte (.inl rfl) (fun _ => trivial) fun b => ?_
    simp only
    split
    · exact .inr (.inr (raise_failedWith _ _))
    split
    · exact .inr (.inr (raise_failedWith _ _))
    · exact .inr (.inl rfl)
  · trivial

theorem unpackNextByte_next (s : State) : (unpackNextByte s).phase = s.phase ∨ (unpackNextByte s).phase = .endcheck := by
  unfold unpackNextByte
  simp only
  split
  · exact .inl rfl
  · exact .inr rfl

theorem unpackShift_next (s : State) : (unpackShift s).phase = s.phase ∨ (unpackShift s).phase = .endcheck := by
  unfold unpackShift
  simp only
  split
  · exact unpackNextByte_next _
  · exact .inl rfl

theorem walkBit_next (s : State) :
    StaysOr s (fun t => t.phase = .endcheck ∨ FailedWith t .excess) (walkBit s) := by
  have shift : ∀ u : State, u.phase = s.phase →
      StaysOr s (fun t => t.phase = .endcheck ∨ FailedWith t .excess) (.next (unpackShift u)) := fun u hu =>
    (unpackShift_next u).imp (·.trans hu) .inl
  unfold walkBit leaf
  split
  · trivial
  · simp only
    split
    · split
      · exact .inr (.inr (raise_failedWith _ _))
      · exact answers_whenAccepted (.inl rfl) (shift _ rfl)
    · exact shift _ rfl

theorem execUnpack_next (s : State) :
    StaysOr s (fun t => t.phase = .endcheck ∨ FailedWith t .excess) (execUnpack s) := by
  unfold execUnpack
  split
  · unfold unpackStart
    simp only [Answers]
    split
    · exact .inr (.inl rfl)
    · exact .inl rfl
  · refine answers_inByte (.inl rfl) (fun _ => trivial) fun b => ?_
    simp only
    split
    · exact (unpackNextByte_next _).imp_right .inl
    · exact .inl rfl
  · exact walkBit_next s
  · trivial

theorem execEndcheck_next (s : State) :
    StaysOr s (fun t => CompletedFrom s t ∨ ∃ e, FailedWith t e) (execEndcheck s) := by
  unfold execEndcheck
  split
  · unfold endCheck
    simp only [Answers]
    split
    · exact .inr (.inr ⟨_, raise_failedWith _ _⟩)
    split
    · exact .inr (.inr ⟨_, raise_failedWith _ _⟩)
    · exact .inr (.inl ⟨rfl, rfl, rfl⟩)
  · trivial

/-! ### Every change of PHASE -/

/-- What the sequencer's own step may leave when it leaves the phase (R86, R87). -/
def LeavesTo (s : State) : Phase → State → Prop
  | .idle => fun _ => False
  | .count => fun t => t.phase = .build
  | .loadhdr => fun t => t.phase = .build ∨ FailedWith t .sum
  | .build => fun t => t.phase = if s.op = .comp then .emithdr else .rdtrailer
  | .emithdr => fun t => t.phase = .codegen
  | .codegen => fun t => t.phase = .pack
  | .pack => fun t => t.phase = .finish
  | .finish => CompletedFrom s
  | .rdtrailer => fun t => t.phase = .unpack ∨ FailedWith t .pad
  | .unpack => fun t => t.phase = .endcheck ∨ FailedWith t .excess
  | .endcheck => fun t => CompletedFrom s t ∨ ∃ e, FailedWith t e

theorem exec_phase_next {q : Phase} (h : exec q.instr s = .next t) : t.phase = s.phase ∨ LeavesTo s q t := by
  cases q with
  | idle =>
    cases h
    exact .inl rfl
  | count => exact (execCount_next s).next h
  | loadhdr => exact (execLoadhdr_next s).next h
  | build => exact (execBuild_next s).next h
  | emithdr => exact (execEmithdr_next s).next h
  | codegen => exact (execCodegen_next s).next h
  | pack => exact (execPack_next s).next h
  | finish => exact (execFinish_next s).next h
  | rdtrailer => exact (execRdtrailer_next s).next h
  | unpack => exact (execUnpack_next s).next h
  | endcheck => exact (execEndcheck_next s).next h

/-- A step of the sequencer that changes PHASE, from the invariant (R86, R87, R88). -/
theorem phaseOrder_of_turn (h : Inv s) (ht : LeavesTo s s.phase t) :
    s.op = .comp ∧ (s.phase, t.phase) ∈
      [(Phase.count, Phase.build), (.build, .emithdr), (.emithdr, .codegen), (.codegen, .pack), (.pack, .finish)] ∨
    s.op = .comp ∧ s.phase = .finish ∧ Succeeded t ∨
    s.op = .decomp ∧ (s.phase, t.phase) ∈
      [(Phase.loadhdr, Phase.build), (.build, .rdtrailer), (.rdtrailer, .unpack), (.unpack, .endcheck)] ∨
    s.op = .decomp ∧ s.phase = .endcheck ∧ Succeeded t ∨
    s.op = .decomp ∧ s.phase ∈ [Phase.loadhdr, .rdtrailer, .unpack, .endcheck] ∧ ∃ e, FailedWith t e := by
  have hop := h.op
  have succeeded : s.phase ≠ .idle → CompletedFrom s t → Succeeded t := fun hb ⟨hi, hd, he⟩ =>
    ⟨hi, hd, he.trans (h.busy_clear hb).2⟩
  cases hp : s.phase <;> rw [hp] at hop ht
  case idle => exact ht.elim
  case build =>
    have ht' : t.phase = if s.op = .comp then .emithdr else .rdtrailer := ht
    cases ho : s.op with
    | none => exact absurd ho hop
    | comp => simp [ht', ho]
    | decomp => simp [ht', ho]
  case count | emithdr | codegen | pack =>
    have ht' : t.phase = _ := ht
    exact .inl ⟨hop, by simp [ht']⟩
  case finish => exact .inr (.inl ⟨hop, rfl, succeeded (by simp [hp]) ht⟩)
  case loadhdr | rdtrailer | unpack =>
    obtain ht | hf := ht
    · exact .inr (.inr (.inl ⟨hop, by simp [ht]⟩))
    · exact .inr (.inr (.inr (.inr ⟨hop, by simp, _, hf⟩)))
  case endcheck =>
    obtain hc | hf := ht
    · exact .inr (.inr (.inr (.inl ⟨hop, rfl, succeeded (by simp [hp]) hc⟩)))
    · exact .inr (.inr (.inr (.inr ⟨hop, by simp, hf⟩)))

theorem leavesTo_withScript (q : Phase) (sc : List HostMove) : LeavesTo (s.withScript sc) q t ↔ LeavesTo s q t := by
  cases q <;> exact Iff.rfl

theorem turn_changes_phase {sc : List HostMove} (hf : fetch s = sequencerTurn (s.withScript sc))
    (he : step s = .next t) (hne : t.phase ≠ s.phase) : LeavesTo s s.phase t := by
  cases hr : s.outside.rst with
  | true =>
    have hstay : fetch s = .moved (.next (s.withScript sc)) := by
      rw [hf, sequencerTurn, State.withScript_outside, hr]
      rfl
    rw [step_of_fetch_moved hstay] at he
    cases he
    exact absurd rfl hne
  | false =>
    rw [step_of_turn hr (decode_phase s.phase) hf] at he
    exact (leavesTo_withScript _ sc).1 ((exec_phase_next he).resolve_left hne)

/-- R80, R210: every command is dropped while an operation runs or `rst` is asserted. -/
theorem exec_cmd_dropped (w : Word) (h : s.phase ≠ .idle ∨ s.outside.rst = true) : exec (decodeCmd w) s = .next s := by
  unfold decodeCmd
  repeat' split
  all_goals exact accepted_of_dropped _ h

theorem State.regWrite_phase (s : State) (off v : Word) : (s.regWrite off v).phase = s.phase := by
  unfold State.regWrite
  split
  · split <;> rfl
  · rfl

/-- Settles O23: the sequencer's own step leaves a phase as the operation's order says, a command leaves IDLE, and of
the host's other moves only `rst` changes PHASE. -/
theorem phaseOrder : Obligations.PhaseOrder := by
  intro s t h he hne
  obtain ⟨sc, hf⟩ | ⟨w, rest, hs, -⟩ | ⟨u, e, hu⟩ | ⟨off, n, e, -⟩ := fetch_cases s
  · have hturn := phaseOrder_of_turn h (turn_changes_phase hf he hne)
    exact .inr (hturn.imp_right (·.imp_right (·.imp_right (·.imp_right .inl))))
  · rw [step_of_wrCmd hs] at he
    by_cases hp : s.phase = .idle
    · obtain ⟨-, ⟨-, rfl⟩ | ⟨-, rfl⟩⟩ := exec_cmd_leaves_idle (s := s.withScript rest) hp he (hp ▸ hne)
      · exact .inl ⟨hp, .inl ⟨rfl, rfl⟩⟩
      · exact .inl ⟨hp, .inr ⟨rfl, rfl⟩⟩
    · rw [exec_cmd_dropped (s := s.withScript rest) w (.inl hp)] at he
      cases he
      exact absurd rfl hne
  · rw [step_of_fetch_moved e] at he
    cases he
    cases hu with
    | outside => exact absurd rfl hne
    | regWrite rest off v => exact absurd (State.regWrite_phase _ off v) hne
    | reset rest => exact .inr (.inr (.inr (.inr (.inr (.inr ⟨rfl, rfl⟩)))))
  · rw [step_of_fetch_moved e] at he
    cases he

end Sys2Proof.Machine
end

section
/-!
PROOFS. Undisturbed runs (70_reset_and_hazards.md R214): a bound on the number of steps, the result at the end, and the
rule of a loop that counts down.
-/
namespace Sys2Proof.Machine

variable {s t u : State} {m n : Nat} {Q R : State → Prop}

/-- The invariant, and a host that does nothing. -/
structure Quiet (s : State) : Prop where
  inv : Inv s
  undisturbed : Undisturbed s

/-- What a step of the sequencer never changes: `OP`, `IN_LEN` and the bytes of `IN`. -/
structure Keeps (s t : State) : Prop where
  op : t.op = s.op
  inLen : t.inLen = s.inLen
  inp : t.outside.inp = s.outside.inp

theorem Keeps.refl (s : State) : Keeps s s := ⟨rfl, rfl, rfl⟩

theorem Keeps.trans (a : Keeps s t) (b : Keeps t u) : Keeps s u :=
  ⟨b.op.trans a.op, b.inLen.trans a.inLen, b.inp.trans a.inp⟩

theorem Keeps.input (h : Keeps s t) : t.input = s.input := by
  rw [State.input, State.input, h.inLen, h.inp]

theorem exec_phase_keeps {q : Phase} (h : exec q.instr s = .next t) : Keeps s t := by
  have hframe := (outputOnlyAppended q.instr s t h).1
  obtain ⟨hlen, hop, -⟩ := flagsWrittenBy q.instr s t h
  refine ⟨hop.resolve_right ?_, hlen, by rw [hframe]⟩
  cases q <;> simp [Phase.instr]

/-- From the invariant with an undisturbed host a step runs the phase, and both hold again. -/
theorem Quiet.step (h : Quiet s) :
    ∃ t, exec s.phase.instr s = .next t ∧ Machine.step s = .next t ∧ Quiet t ∧ Keeps s t := by
  obtain ⟨t, ht, hinv⟩ := exec_phase_fine h.inv (decode_phase s.phase)
  exact ⟨t, ht, (h.undisturbed.step_eq (decode_phase s.phase)).trans ht,
    ⟨hinv, h.undisturbed.of_outside (outputOnlyAppended _ s t ht).1⟩, exec_phase_keeps ht⟩

/-- Whatever state an undisturbed run comes to, it is still the same command on the same input. -/
theorem Quiet.keeps_of_leads (h : Quiet s) (hl : Leads s t) : Keeps s t := by
  obtain ⟨k, hk⟩ := hl
  induction k generalizing s with
  | zero =>
    cases hk
    exact .refl _
  | succ k ih =>
    obtain ⟨u, -, hst, hqu, hku⟩ := h.step
    rw [runFor_succ k hst] at hk
    exact hku.trans (ih hqu hk)

/-- The run from `s` comes within `n` steps to a state with `Q`, of the same command on the same input. -/
def ReachesIn (n : Nat) (s : State) (Q : State → Prop) : Prop :=
  ∃ k ≤ n, ∃ t, runFor k s = .next t ∧ Quiet t ∧ Keeps s t ∧ Q t

theorem ReachesIn.here (h : Quiet s) (hQ : Q s) : ReachesIn 0 s Q := ⟨0, Nat.le_refl 0, s, rfl, h, .refl s, hQ⟩

theorem ReachesIn.mono (h : ReachesIn m s Q) (hmn : m ≤ n) : ReachesIn n s Q := by
  obtain ⟨k, hk, ht⟩ := h
  exact ⟨k, Nat.le_trans hk hmn, ht⟩

/-- A run after a run. -/
theorem ReachesIn.then (h : ReachesIn m s Q) (next : ∀ t, Quiet t → Keeps s t → Q t → ReachesIn n t R) :
    ReachesIn (m + n) s R := by
  obtain ⟨j, hj, t, ht, hqt, hkt, hQ⟩ := h
  obtain ⟨k, hk, u, hu, hqu, hku, hR⟩ := next t hqt hkt hQ
  exact ⟨j + k, Nat.add_le_add hj hk, u, runFor_add ht hu, hqu, hkt.trans hku, hR⟩

theorem ReachesIn.imp (h : ReachesIn n s Q) (hQR : ∀ t, Quiet t → Keeps s t → Q t → R t) : ReachesIn n s R := by
  obtain ⟨k, hk, t, ht, hqt, hkt, hQ⟩ := h
  exact ⟨k, hk, t, ht, hqt, hkt, hQR t hqt hkt hQ⟩

theorem ReachesIn.leads (h : ReachesIn n s Q) : ∃ t, Leads s t ∧ Quiet t ∧ Keeps s t ∧ Q t := by
  obtain ⟨k, -, t, ht, hrest⟩ := h
  exact ⟨t, ⟨k, ht⟩, hrest⟩

theorem Quiet.reaches_step (h : Quiet s) (hQ : ∀ t, exec s.phase.instr s = .next t → Q t) : ReachesIn 1 s Q := by
  obtain ⟨t, ht, hst, hqt, hkt⟩ := h.step
  exact ⟨1, Nat.le_refl 1, t, runFor_succ 0 hst, hqt, hkt, hQ t ht⟩

/-- The rule of a loop: `I m` holds with `m` steps left at most, and each step ends the loop or counts down. -/
theorem Quiet.loop {I : Nat → State → Prop}
    (body : ∀ m s t, Quiet s → I m s → exec s.phase.instr s = .next t → Q t ∨ ∃ m' < m, I m' t)
    (h : Quiet s) (hI : I m s) : ReachesIn (m + 1) s Q := by
  induction m using Nat.strongRecOn generalizing s with
  | _ m ih =>
    obtain ⟨t, ht, hst, hqt, hkt⟩ := h.step
    obtain hQ | ⟨m', hm', hI'⟩ := body m s t h hI ht
    · exact ⟨1, by omega, t, runFor_succ 0 hst, hqt, hkt, hQ⟩
    · obtain ⟨k, hk, u, hu, hqu, hku, hQ⟩ := ih m' hm' hqt hI'
      exact ⟨k + 1, by omega, u, (runFor_succ k hst).trans hu, hqu, hkt.trans hku, hQ⟩

/-- The rule of a run that is known to end: what each step keeps or ends with holds where the run first leaves `I`. -/
theorem Quiet.exit {I : State → Prop} {k : Nat}
    (body : ∀ s t, Quiet s → I s → exec s.phase.instr s = .next t → Q t ∨ I t)
    (h : Quiet s) (hI : I s) (hrun : runFor k s = .next u) (hu : ¬I u) : ReachesIn k s Q := by
  induction k generalizing s with
  | zero =>
    cases hrun
    exact absurd hI hu
  | succ k ih =>
    obtain ⟨t, ht, hst, hqt, hkt⟩ := h.step
    rw [runFor_succ k hst] at hrun
    obtain hQ | hI' := body s t h hI ht
    · exact ⟨1, by omega, t, runFor_succ 0 hst, hqt, hkt, hQ⟩
    · obtain ⟨j, hj, v, hv, hqv, hkv, hQ⟩ := ih hqt hI' hrun
      exact ⟨j + 1, by omega, v, (runFor_succ j hst).trans hv, hqv, hkt.trans hkv, hQ⟩

/-- `OP` is that of the phase (R69). -/
theorem Quiet.allows (h : Quiet s) {q : Phase} (hp : s.phase = q) : q.allows s.op :=
  hp ▸ h.inv.op

/-- The bytes of `IN` while the input port answers (20_memory.md R41). -/
theorem Quiet.inByte_eq (h : Quiet s) {a : Nat} (k : Byte → Res) (ha : a < s.inLen.toNat) :
    inByte s a k = k (s.outside.inp.read a) := by
  rw [inByte, if_neg (Nat.not_le.2 ha), if_pos h.undisturbed.inAnswers]

theorem Quiet.whenAccepted_eq (h : Quiet s) (k : Res) : whenAccepted s k = k := by
  rw [whenAccepted, if_pos h.undisturbed.outAccepts]

end Sys2Proof.Machine
end

section
/-!
PROOFS. The runs of COUNT, EMITHDR and LOADHDR (41_frequency_table.md R100 to R106): COUNT leaves the counts of the input,
EMITHDR writes the header of `FREQ`, LOADHDR reads `FREQ` and its sum from the header.
-/
namespace Sys2Proof.Machine

variable {s t : State} {m : Nat}

/-! ### COUNT -/

theorem freq_concat (l : List Byte) (b v : Byte) : freq (l ++ [b]) v = if v = b then freq l v + 1 else freq l v := by
  unfold freq
  rw [List.count_append, List.count_singleton]
  by_cases h : v = b
  · simp [h, BitVec.ofNat_add]
  · simp [h, Ne.symm h]

/-- A loop over the byte values that has written the entries below `v`, and writes entry `v`. -/
theorem entry_withEntry_below {tbl : Table Word} {F : Counts} {v : Byte} (h : ∀ u, u.toNat < v.toNat → tbl.entry u = F u)
    (u : Byte) (hu : u.toNat < v.toNat + 1) : (Table.withEntry tbl v (F v)).entry u = F u := by
  rw [Table.entry_withEntry]
  split
  · next e => rw [e]
  · next hne => exact h u (Nat.lt_of_le_of_ne (Nat.le_of_lt_succ hu) fun e => hne (BitVec.eq_of_toNat_eq e))

/-- The entry of a loop counter within the byte values. -/
theorem entryIndex_toNat {v : BitVec 9} (h : v.toNat < 256) : (v.setWidth 8 : Byte).toNat = v.toNat := by
  rw [BitVec.toNat_setWidth]
  exact Nat.mod_eq_of_lt h

/-- COUNT is complete (R101). -/
def Counted (s : State) : Prop := s.phase = .build ∧ s.stage = .entry ∧ s.counts = freq s.input

/-- COUNT with `m` more steps at most: the entries below `VIDX` are cleared, or the bytes below `POS` counted. -/
def Counting (m : Nat) (s : State) : Prop :=
  s.phase = .count ∧
    (s.stage = .entry ∧ m = 255 + s.inLen.toNat ∨
     s.stage = .clear ∧ m = 255 - s.work.vidx.toNat + s.inLen.toNat ∧
       (∀ v : Byte, v.toNat < s.work.vidx.toNat → s.counts v = 0) ∨
     s.stage = .tally ∧ m = s.inLen.toNat - 1 - s.work.pos.toNat ∧
       s.counts = freq (s.outside.inp.bytes 0 s.work.pos.toNat))

theorem clearEntry_counting {v : BitVec 9} (hp : s.phase = .count) (hv : v.toNat < 256)
    (h0 : ∀ u : Byte, u.toNat < v.toNat → s.counts u = 0) :
    Counted (clearEntry v s) ∨ ∃ m < 255 - v.toNat + s.inLen.toNat, Counting m (clearEntry v s) := by
  rw [← entryIndex_toNat hv] at h0
  have hclear := entry_withEntry_below (F := fun _ => 0) h0
  rw [entryIndex_toNat hv] at hclear
  unfold clearEntry
  simp only
  split
  · next hlt =>
    have hsucc := vidx_succ hlt
    refine .inr ⟨_, ?_, hp, .inr (.inl ⟨rfl, rfl, fun u hu => hclear u (hsucc ▸ hu)⟩)⟩
    show 255 - (v + 1).toNat + s.inLen.toNat < _
    omega
  · next hlast =>
    have hall := fun u : Byte => hclear u (by have := u.isLt; omega)
    split
    · next hz =>
      refine .inl ⟨rfl, rfl, funext fun u => (hall u).trans ?_⟩
      show 0 = freq (s.outside.inp.bytes 0 s.inLen.toNat) u
      rw [hz]
      rfl
    · next hz =>
      have hpos := (toNat_pos_iff s.inLen).2 hz
      refine .inr ⟨_, ?_, hp, .inr (.inr ⟨rfl, rfl, funext hall⟩)⟩
      show s.inLen.toNat - 1 - (0 : BitVec 32).toNat < _
      omega

theorem execCount_counting (h : Quiet s) (hI : Counting m s) (he : execCount s = .next t) :
    Counted t ∨ ∃ m' < m, Counting m' t := by
  obtain ⟨hp, hI⟩ := hI
  have hpos := h.inv.position
  obtain ⟨hs, rfl⟩ | ⟨hs, rfl, hclear⟩ | ⟨hs, rfl, hfreq⟩ := hI
  · simp only [execCount, hs] at he
    cases he
    exact clearEntry_counting hp (by decide) fun u hu => absurd hu (Nat.not_lt_zero _)
  · simp only [PositionOk, hp, hs] at hpos
    simp only [execCount, hs] at he
    cases he
    exact clearEntry_counting hp hpos.2 hclear
  · simp only [PositionOk, hp, hs] at hpos
    obtain ⟨-, hlt⟩ := hpos
    have hsucc : (s.work.pos + 1).toNat = s.work.pos.toNat + 1 := toNat_succ hlt s.inLen.isLt
    have hcounts : ∀ v, (s.tab.freq.withEntry (s.outside.inp.read s.work.pos.toNat)
        (s.tab.freq.entry (s.outside.inp.read s.work.pos.toNat) + 1)).entry v =
        freq (s.outside.inp.bytes 0 (s.work.pos.toNat + 1)) v := fun v => by
      have hfreq' : ∀ u, Table.entry s.tab.freq u = freq (s.outside.inp.bytes 0 s.work.pos.toNat) u := congrFun hfreq
      rw [Memory.bytes_succ, Nat.zero_add, freq_concat, Table.entry_withEntry]
      split
      · next e => rw [e, hfreq']
      · exact hfreq' v
    simp only [execCount, hs, tallyByte, h.inByte_eq _ hlt] at he
    split at he
    · cases he
      refine .inr ⟨_, ?_, hp, .inr (.inr ⟨rfl, rfl, funext fun v => ?_⟩)⟩
      · show s.inLen.toNat - 1 - (s.work.pos + 1).toNat < _
        omega
      · show _ = freq (s.outside.inp.bytes 0 (s.work.pos + 1).toNat) v
        rw [hsucc]
        exact hcounts v
    · next hlast =>
      have hend : s.work.pos.toNat + 1 = s.inLen.toNat := Nat.le_antisymm hlt (Nat.le_of_not_lt hlast)
      cases he
      refine .inl ⟨rfl, rfl, funext fun v => (hcounts v).trans ?_⟩
      rw [hend]
      rfl

/-- R101: COUNT leaves the counts of the input, one step for each entry and for each byte. -/
theorem count_reaches (h : Quiet s) (hp : s.phase = .count) (hs : s.stage = .entry) :
    ReachesIn (256 + s.inLen.toNat) s Counted :=
  (h.loop (I := Counting) (fun m s t hq hI he => execCount_counting hq hI (by rwa [hI.1] at he))
    ⟨hp, .inl ⟨hs, rfl⟩⟩).mono (by omega)

/-! ### EMITHDR -/

/-- EMITHDR leaves the table `F` and the arena of `s0` as they are. -/
structure EmitFrame (s0 s : State) : Prop where
  freq : s.tab.freq = s0.tab.freq
  node : s.tab.node = s0.tab.node
  root : s.work.root = s0.work.root

/-- EMITHDR from `s0` is complete (R104). -/
def Emitted (s0 s : State) : Prop := EmitFrame s0 s ∧ s.phase = .codegen ∧ s.stage = .entry ∧ s.output = hdr s0.counts

/-- EMITHDR from `s0` with `m` more steps: the bytes out are the first ones of the header. -/
def Emitting (s0 : State) (m : Nat) (s : State) : Prop :=
  EmitFrame s0 s ∧ s.phase = .emithdr ∧ m = 1023 - s.outCnt.toNat ∧ s.output = (hdr s0.counts).take s.outCnt.toNat

theorem emitCountByte_emitting {s0 : State} (h : Quiet s) (hI : Emitting s0 m s) {v : BitVec 9} {k : Fin 4}
    (hv : v.toNat < 256) (hc : s.outCnt.toNat = 4 * v.toNat + k.val) (he : emitCountByte v k s = .next t) :
    Emitted s0 t ∨ ∃ m' < m, Emitting s0 m' t := by
  obtain ⟨⟨hfreq, hnode, hroot⟩, hp, rfl, hout⟩ := hI
  have hk := k.isLt
  have hsmall : s.outCnt.toNat < 2 ^ 39 := by omega
  have hsucc : (s.outCnt + 1).toNat = s.outCnt.toNat + 1 := outCnt_succ hsmall
  have hv8 : (v.setWidth 8 : Byte).toNat = v.toNat := by
    rw [BitVec.toNat_setWidth]
    exact Nat.mod_eq_of_lt hv
  have hbyte : (hdr s0.counts)[s.outCnt.toNat]? = some (countByte (s.tab.freq.entry (v.setWidth 8)) k) := by
    rw [hc, ← hv8, hdr_getElem?, hfreq]
    rfl
  have hout' : (s.outByte (countByte (s.tab.freq.entry (v.setWidth 8)) k)).output =
      (hdr s0.counts).take (s.outCnt + 1).toNat := by
    rw [State.outByte_output h.inv.out_wf hsmall, hout, hsucc, List.take_add_one, hbyte]
    rfl
  have more : ∀ {u : State}, s.outCnt.toNat < 1023 → EmitFrame s0 u → u.phase = .emithdr → u.outCnt = s.outCnt + 1 →
      u.output = (hdr s0.counts).take (s.outCnt + 1).toNat → Emitted s0 u ∨ ∃ m' < 1023 - s.outCnt.toNat, Emitting s0 m' u :=
    fun hlt hf hp ho hu => .inr ⟨_, by rw [ho, hsucc]; omega, hf, hp, rfl, by rw [ho, hu]⟩
  rw [emitCountByte, h.whenAccepted_eq] at he
  simp only at he
  split at he
  · next hk3 =>
    cases he
    exact more (by omega) ⟨hfreq, hnode, hroot⟩ hp rfl hout'
  split at he
  · next hlt =>
    cases he
    exact more (by omega) ⟨hfreq, hnode, hroot⟩ hp rfl hout'
  · next hlast =>
    cases he
    refine .inl ⟨⟨hfreq, hnode, hroot⟩, rfl, rfl, hout'.trans (List.take_of_length_le ?_)⟩
    rw [hdr_length, hsucc]
    omega

theorem execEmithdr_emitting {s0 : State} (h : Quiet s) (hI : Emitting s0 m s) (he : execEmithdr s = .next t) :
    Emitted s0 t ∨ ∃ m' < m, Emitting s0 m' t := by
  have hpos := h.inv.position
  have hp := hI.2.1
  cases hs : s.stage with
  | entry =>
    simp only [PositionOk, hp, hs] at hpos
    simp only [execEmithdr, hs] at he
    exact emitCountByte_emitting h hI (by decide) (by rw [hpos.1]; rfl) he
  | emit k =>
    simp only [PositionOk, hp, hs] at hpos
    simp only [execEmithdr, hs] at he
    exact emitCountByte_emitting h hI hpos.2.1 hpos.2.2 he
  | _ => simp only [PositionOk, hp, hs] at hpos

/-- R104: EMITHDR writes the header of the table, one step for each byte. -/
theorem emithdr_reaches (h : Quiet s) (hp : s.phase = .emithdr) (hs : s.stage = .entry) :
    ReachesIn 1024 s (Emitted s) := by
  have hpos := h.inv.position
  simp only [PositionOk, hp, hs] at hpos
  refine h.loop (I := Emitting s) (fun m u t hq hI he => execEmithdr_emitting hq hI (by rwa [hI.2.1] at he))
    ⟨⟨rfl, rfl, rfl⟩, hp, ?_, ?_⟩
  · rw [hpos.1]
    rfl
  · rw [State.output, hpos.1]
    rfl

/-! ### LOADHDR -/

/-- The sum of the counts of the first `n` byte values (R105). -/
def partialSum (F : Counts) (n : Nat) : Nat := ((allBytes.take n).map fun v => (F v).toNat).sum

theorem partialSum_succ (F : Counts) (v : Byte) : partialSum F (v.toNat + 1) = partialSum F v.toNat + (F v).toNat := by
  rw [partialSum, allBytes_take_succ, List.map_append, List.sum_append]
  rfl

theorem partialSum_le (F : Counts) (n : Nat) : partialSum F n ≤ n * (2 ^ 32 - 1) := by
  have hsum := List.sum_le_card_nsmul ((allBytes.take n).map fun v => (F v).toNat) (2 ^ 32 - 1) fun x hx => by
    obtain ⟨v, -, rfl⟩ := List.mem_map.1 hx
    exact Nat.le_pred_of_lt (F v).isLt
  rw [List.length_map, smul_eq_mul] at hsum
  exact hsum.trans (Nat.mul_le_mul_right _ (List.length_take_le n allBytes))

theorem partialSum_all (F : Counts) : partialSum F 256 = countSum F := by
  rw [partialSum, countSum, List.take_of_length_le (by rw [allBytes_length])]

/-- The table the header holds. -/
abbrev headerCounts (s : State) : Counts := unhdr (s.outside.inp.bytes 0 Config.hdrBytes)

/-- A 40-bit sum of the counts so far, and one count more, does not wrap (R105). -/
theorem toNat_add_count {w : BitVec 40} {F : Counts} {v : Byte} (h : w.toNat = partialSum F v.toNat) :
    (w + (F v).setWidth 40).toNat = partialSum F (v.toNat + 1) := by
  have hnext := partialSum_succ F v
  have hle := partialSum_le F (v.toNat + 1)
  have hmul : (v.toNat + 1) * (2 ^ 32 - 1) ≤ 256 * (2 ^ 32 - 1) := Nat.mul_le_mul_right _ v.isLt
  have hlt := (F v).isLt
  rw [BitVec.toNat_add, BitVec.toNat_setWidth]
  omega

/-- LOADHDR is complete (R105): the table and its sum stand, and the sum decides how it ends. -/
def Loaded (s : State) : Prop :=
  s.counts = headerCounts s ∧
    (s.phase = .build ∧ s.stage = .entry ∧ s.work.sum.toNat = countSum (headerCounts s) ∧
       countSum (headerCounts s) ≤ Config.maxLen ∨
     FailedWith s .sum ∧ s.outCnt = 0 ∧ Config.maxLen < countSum (headerCounts s))

/-- LOADHDR with `m` more steps: the entries below `VIDX` are loaded and summed, and the bytes read of the next one. -/
def Loading (m : Nat) (s : State) : Prop :=
  s.phase = .loadhdr ∧
    (s.stage = .entry ∧ m = 1023 ∨
     ∃ got, s.stage = .load got ∧ m = 1023 - (4 * s.work.vidx.toNat + got.length) ∧
       got = s.outside.inp.bytes (4 * s.work.vidx.toNat) got.length ∧
       (∀ v : Byte, v.toNat < s.work.vidx.toNat → s.counts v = headerCounts s v) ∧
       s.work.sum.toNat = partialSum (headerCounts s) s.work.vidx.toNat)

theorem Memory.getD_bytes (m : Memory) (a : Nat) {n i : Nat} (h : i < n) : (m.bytes a n).getD i 0 = m.read (a + i) := by
  simp [Memory.bytes, h]

theorem headerCounts_eq (s : State) (v : Byte) : headerCounts s v =
    assembleCount (s.outside.inp.read (4 * v.toNat)) (s.outside.inp.read (4 * v.toNat + 1))
      (s.outside.inp.read (4 * v.toNat + 2)) (s.outside.inp.read (4 * v.toNat + 3)) := by
  have hv := v.isLt
  have byte : ∀ k < 4, (s.outside.inp.bytes 0 Config.hdrBytes).getD (4 * v.toNat + k) 0 =
      s.outside.inp.read (4 * v.toNat + k) := fun k hk => by
    rw [Memory.getD_bytes _ _ (by simp only [Config.hdrBytes]; omega), Nat.zero_add]
  simp only [headerCounts, unhdr]
  rw [byte 0 (by decide), byte 1 (by decide), byte 2 (by decide), byte 3 (by decide), Nat.add_zero]

/-- The first three bytes of an entry. -/
theorem loading_more {got : List Byte} {pos : BitVec 32} (hI : Loading m s) (hs : s.stage = .load got)
    (hv : s.work.vidx.toNat < 256) (hl : got.length ≤ 2) :
    ∃ m' < m, Loading m' { s with
      work.pos := pos, stage := .load (got ++ [s.outside.inp.read (4 * s.work.vidx.toNat + got.length)]) } := by
  obtain ⟨hp, ⟨hs', -⟩ | ⟨got', hs', rfl, hgot, hcounts, hsum⟩⟩ := hI
  · rw [hs] at hs'
    cases hs'
  · rw [hs] at hs'
    cases hs'
    refine ⟨_, ?_, hp, .inr ⟨_, rfl, rfl, ?_, hcounts, hsum⟩⟩
    · simp only [List.length_append, List.length_singleton]
      omega
    · rw [List.length_append, List.length_singleton, Memory.bytes_succ, ← hgot]

/-- The fourth byte of an entry: the count is stored and added, and after the last one the sum is checked. -/
theorem loadEntry_loading {b0 b1 b2 b3 : Byte} (hI : Loading m s) (hs : s.stage = .load [b0, b1, b2])
    (hv : s.work.vidx.toNat < 256) (h0 : s.outCnt = 0)
    (hb : b3 = s.outside.inp.read (4 * s.work.vidx.toNat + 3)) :
    Loaded (loadEntry b0 b1 b2 b3 s) ∨ ∃ m' < m, Loading m' (loadEntry b0 b1 b2 b3 s) := by
  obtain ⟨hp, ⟨hs', -⟩ | ⟨got, hs', rfl, hgot, hcounts, hsum⟩⟩ := hI
  · rw [hs] at hs'
    cases hs'
  rw [hs] at hs'
  cases hs'
  set v : Byte := s.work.vidx.setWidth 8 with hvdef
  have hv8 : v.toNat = s.work.vidx.toNat := entryIndex_toNat hv
  have hcount : assembleCount b0 b1 b2 b3 = headerCounts s v := by
    have hbytes : [b0, b1, b2] = [s.outside.inp.read (4 * v.toNat), s.outside.inp.read (4 * v.toNat + 1),
        s.outside.inp.read (4 * v.toNat + 2)] := by
      rw [hv8]
      exact hgot
    obtain ⟨rfl, rfl, rfl⟩ : b0 = _ ∧ b1 = _ ∧ b2 = _ := by simpa using hbytes
    rw [headerCounts_eq, hb, hv8]
  rw [← hv8] at hcounts hsum
  have hcounts' := entry_withEntry_below hcounts
  have hsum' := toNat_add_count hsum
  rw [hv8] at hcounts' hsum'
  unfold loadEntry
  simp only [← hvdef, hcount]
  split
  · next hlt =>
    have hsucc := vidx_succ hlt
    refine .inr ⟨_, ?_, hp, .inr ⟨[], rfl, rfl, rfl, fun u hu => hcounts' u (hsucc ▸ hu), ?_⟩⟩
    · show 1023 - (4 * (s.work.vidx + 1).toNat + 0) < 1023 - (4 * s.work.vidx.toNat + 3)
      omega
    · exact hsum'.trans (congrArg _ hsucc.symm)
  · next hlast =>
    have h255 : s.work.vidx.toNat + 1 = 256 := by omega
    rw [h255, partialSum_all] at hsum'
    have htable := funext fun u : Byte => hcounts' u (by have := u.isLt; omega)
    unfold checkSum
    split
    · next hgt => exact .inl ⟨htable, .inr ⟨raise_failedWith _ _, h0, hsum' ▸ hgt⟩⟩
    · next hle => exact .inl ⟨htable, .inl ⟨rfl, rfl, hsum', hsum' ▸ Nat.le_of_not_lt hle⟩⟩

theorem execLoadhdr_loading (h : Quiet s) (hI : Loading m s) (he : execLoadhdr s = .next t) :
    Loaded t ∨ ∃ m' < m, Loading m' t := by
  have hp := hI.1
  have hpos := h.inv.position
  have hop : s.op = .decomp := h.allows hp
  have hlen : 1025 ≤ s.inLen.toNat := h.inv.len_low (by simp [hp]) hop
  cases hs : s.stage with
  | entry =>
    obtain ⟨-, ⟨-, rfl⟩ | ⟨got, hs', -⟩⟩ := hI
    · simp only [execLoadhdr, hs, loadFirst, h.inByte_eq (a := 0) _ (by omega)] at he
      cases he
      exact .inr ⟨1022, by decide, hp, .inr ⟨_, rfl, rfl, rfl, fun u hu => absurd hu (Nat.not_lt_zero _), rfl⟩⟩
    · rw [hs] at hs'
      cases hs'
  | load got =>
    simp only [PositionOk, hp, hs] at hpos
    obtain ⟨h0, hv, hl, ha⟩ := hpos
    have haddr := headerAddress_toNat hv
    match got, hl with
    | [], _ =>
      simp only [execLoadhdr, hs, loadByte, h.inByte_eq (a := (headerAddress s.work.vidx).toNat) _ (by omega)] at he
      cases he
      rw [haddr]
      exact .inr (loading_more hI hs hv (by simp))
    | [b0], _ =>
      rw [← ha (by simp)] at haddr
      simp only [execLoadhdr, hs, loadByte, h.inByte_eq (a := s.work.pos.toNat + 1) _ (by omega)] at he
      cases he
      rw [haddr]
      exact .inr (loading_more (pos := s.work.pos) hI hs hv (by simp))
    | [b0, b1], _ =>
      rw [← ha (by simp)] at haddr
      simp only [execLoadhdr, hs, loadByte, h.inByte_eq (a := s.work.pos.toNat + 2) _ (by omega)] at he
      cases he
      rw [haddr]
      exact .inr (loading_more (pos := s.work.pos) hI hs hv (by simp))
    | [b0, b1, b2], _ =>
      rw [← ha (by simp)] at haddr
      simp only [execLoadhdr, hs, loadByte, h.inByte_eq (a := s.work.pos.toNat + 3) _ (by omega)] at he
      cases he
      exact loadEntry_loading hI hs hv h0 (by rw [haddr])
    | _ :: _ :: _ :: _ :: _, hl => simp only [List.length_cons] at hl; omega
  | _ => simp only [PositionOk, hp, hs] at hpos

/-- R105, R106: LOADHDR loads the header's table and checks its sum, one step for each byte. -/
theorem loadhdr_reaches (h : Quiet s) (hp : s.phase = .loadhdr) (hs : s.stage = .entry) : ReachesIn 1024 s Loaded :=
  h.loop (I := Loading) (fun m s t hq hI he => execLoadhdr_loading hq hI (by rwa [hI.1] at he)) ⟨hp, .inl ⟨hs, rfl⟩⟩

end Sys2Proof.Machine
end

section
/-!
PROOFS. BUILD makes the tree of the table (42_tree_builder.md R111 to R118): the two selects find the least and the second
least slot in the order of R115, and after every merge the valid slots hold the live roots of `tree`.
-/
namespace Sys2Proof.Machine

variable {F : Counts} {s s0 t : State} {tab : Tables} {roots : List Root} {ex best best' : Option Byte}

/-! ### SELECT finds the least slot -/

/-- A slot that a select excluding `ex` may take (R112). -/
def Candidate (tab : Tables) (ex : Option Byte) (i : Byte) : Prop := (Table.entry tab.slot i).v = true ∧ ex ≠ some i

/-- The weight of the node the slot `i` holds. -/
def weightAt (tab : Tables) (i : Byte) : Nat := ((slotWeight tab i).map BitVec.toNat).getD 0

/-- The order of R115: weight first, then slot index. -/
def Ahead (tab : Tables) (i j : Byte) : Prop :=
  weightAt tab i < weightAt tab j ∨ weightAt tab i = weightAt tab j ∧ i.toNat < j.toNat

theorem Ahead.trans {i j k : Byte} (a : Ahead tab i j) (b : Ahead tab j k) : Ahead tab i k := by
  unfold Ahead at *
  omega

/-- The candidate `b` is ahead of all others below the slot `k`. -/
structure LeastBelow (tab : Tables) (ex : Option Byte) (k : Nat) (b : Byte) : Prop where
  candidate : Candidate tab ex b
  below : b.toNat < k
  ahead : ∀ i, Candidate tab ex i → i.toNat < k → i ≠ b → Ahead tab b i

/-- What a select has found below the slot `k`. -/
def BestBelow (tab : Tables) (ex : Option Byte) (k : Nat) : Option Byte → Prop
  | none => ∀ i, Candidate tab ex i → k ≤ i.toNat
  | some b => LeastBelow tab ex k b

theorem bestBelow_zero (tab : Tables) (ex : Option Byte) : BestBelow tab ex 0 none := fun _ _ => Nat.zero_le _

theorem weightAt_of_some {i : Byte} {w : Word} (h : slotWeight tab i = some w) : weightAt tab i = w.toNat := by
  rw [weightAt, h]
  rfl

/-- One slot visited (R112). -/
theorem selectVisit_bestBelow {i : Byte} (h : BestBelow tab ex i.toNat best)
    (he : selectVisit tab ex best i = some best') : BestBelow tab ex (i.toNat + 1) best' := by
  have older : ∀ {j : Byte}, j.toNat < i.toNat + 1 → j ≠ i → j.toNat < i.toNat := fun hj hne =>
    Nat.lt_of_le_of_ne (Nat.le_of_lt_succ hj) fun e => hne (BitVec.eq_of_toNat_eq e)
  unfold selectVisit at he
  split at he
  · next hi =>
    cases best with
    | none =>
      cases he
      exact ⟨hi, Nat.lt_succ_self _, fun j hj hlt hne => absurd (h j hj) (Nat.not_le.2 (older hlt hne))⟩
    | some b =>
      have hb : LeastBelow tab ex i.toNat b := h
      simp only at he
      split at he
      · next wi wb hwi hwb =>
        have hwi := weightAt_of_some hwi
        have hwb := weightAt_of_some hwb
        split at he
        · next hlt =>
          cases he
          have hib : Ahead tab i b := .inl (by rw [hwi, hwb]; exact hlt)
          refine ⟨hi, Nat.lt_succ_self _, fun j hj hjlt hne => ?_⟩
          by_cases hjb : j = b
          · exact hjb ▸ hib
          · exact hib.trans (hb.ahead j hj (older hjlt hne) hjb)
        · next hge =>
          cases he
          refine ⟨hb.candidate, Nat.lt_succ_of_lt hb.below, fun j hj hjlt hne => ?_⟩
          by_cases hji : j = i
          · subst hji
            have hge' : ¬wi.toNat < wb.toNat := hge
            have := hb.below
            unfold Ahead
            omega
          · exact hb.ahead j hj (older hjlt hji) hne
      · cases he
  · next hi =>
    cases he
    have skip : ∀ {j : Byte}, Candidate tab ex j → j ≠ i := fun hj e => hi (e ▸ hj)
    cases best with
    | none => exact fun j hj => Nat.lt_of_le_of_ne (h j hj) fun e => skip hj (BitVec.eq_of_toNat_eq e.symm)
    | some b =>
      have hb : LeastBelow tab ex i.toNat b := h
      exact ⟨hb.candidate, Nat.lt_succ_of_lt hb.below, fun j hj hlt => hb.ahead j hj (older hlt (skip hj))⟩

/-- What one step of a select can answer (R112). -/
theorem scanSlot_inversion {again : Option Byte → Stage} {found : Byte → State → State}
    (h : scanSlot ex best again found s = .next t) :
    ∃ best', selectVisit s.tab ex best (s.work.sidx.setWidth 8) = some best' ∧
      (s.work.sidx.toNat < 255 ∧ t = { s with work.sidx := s.work.sidx + 1, stage := again best' } ∨
       255 ≤ s.work.sidx.toNat ∧ ∃ b, best' = some b ∧ t = found b { s with work.sidx := s.work.sidx + 1 }) := by
  unfold scanSlot at h
  split at h
  · cases h
  · next best' he =>
    refine ⟨best', he, ?_⟩
    simp only at h
    split at h
    · next hlt =>
      cases h
      exact .inl ⟨hlt, rfl⟩
    · next hge =>
      split at h
      · cases h
      · next b =>
        cases h
        exact .inr ⟨Nat.le_of_not_lt hge, b, rfl, rfl⟩

/-- A step of a select keeps the best slot seen, and the last one leaves the least of all. -/
theorem scanSlot_bestBelow {again : Option Byte → Stage} {found : Byte → State → State}
    (hb : BestBelow s.tab ex s.work.sidx.toNat best) (hlt : s.work.sidx.toNat < 256)
    (h : scanSlot ex best again found s = .next t) :
    (∃ best', t = { s with work.sidx := s.work.sidx + 1, stage := again best' } ∧
       BestBelow s.tab ex (s.work.sidx + 1).toNat best') ∨
    ∃ b, t = found b { s with work.sidx := s.work.sidx + 1 } ∧ LeastBelow s.tab ex 256 b := by
  obtain ⟨best', he, ⟨h255, ht⟩ | ⟨h255, b, rfl, ht⟩⟩ := scanSlot_inversion h
  all_goals
    have hi : (s.work.sidx.setWidth 8 : Byte).toNat = s.work.sidx.toNat := by
      rw [BitVec.toNat_setWidth]
      exact Nat.mod_eq_of_lt hlt
    rw [← hi] at hb
    have hb' := selectVisit_bestBelow hb he
    rw [hi] at hb'
  · exact .inl ⟨best', ht, by rwa [vidx_succ h255]⟩
  · rw [show s.work.sidx.toNat + 1 = 256 by omega] at hb'
    exact .inr ⟨b, ht, hb'⟩

/-! ### The arena below a new node -/

theorem readsAs_withNode {a : Arena} {k : Nat} (hb : ChildrenBelow a k) (h256 : 256 ≤ k) (h511 : k < 511) (nd : Node)
    {tr : Tree} {n : BitVec 9} (hn : n.toNat < k) (h : ReadsAs a n tr) : ReadsAs (a.withNode k nd) n tr := by
  induction tr generalizing n with
  | leaf v => exact h
  | node l r ihl ihr =>
    obtain ⟨c, hc, hl, hr⟩ := h
    obtain ⟨hcl, hcr⟩ := hb n c hn hc
    refine ⟨c, ?_, ihl (by omega) hl, ihr (by omega) hr⟩
    rw [children?_withNode h256 h511, if_neg (by omega), hc]

/-! ### The live roots in the slots -/

/-- The valid slots hold the live roots `roots`, of the weights `tree` gives them; after a merge the first one is held
by the newest node. -/
structure Models (F : Counts) (tab : Tables) (next : Nat) (roots : List Root) : Prop where
  slots : ∀ i, (Table.entry tab.slot i).v = true → ∃ tr, (i.toNat, tr) ∈ roots
  held : ∀ x ∈ roots, ∃ i : Byte, x.1 = i.toNat ∧ (Table.entry tab.slot i).v = true ∧
    ReadsAs tab.node (Table.entry tab.slot i).n x.2 ∧ weightAt tab i = x.2.weight F
  newest : 256 < next → ∃ (i : Byte) (tr : Tree) (rest : List Root), roots = (i.toNat, tr) :: rest ∧
    (Table.entry tab.slot i).n.toNat + 1 = next

theorem eq_of_same_slot (hn : (roots.map Prod.fst).Nodup) {x y : Root} (hx : x ∈ roots) (hy : y ∈ roots)
    (h : x.1 = y.1) : x = y := List.inj_on_of_nodup_map hn hx hy h

/-- A live root is in its own slot. -/
theorem Models.held_slot {next : Nat} (hm : Models F tab next roots) {x : Root} {i : Byte} (hx : x ∈ roots)
    (hi : x.1 = i.toNat) : (Table.entry tab.slot i).v = true ∧ ReadsAs tab.node (Table.entry tab.slot i).n x.2 ∧
      weightAt tab i = x.2.weight F := by
  obtain ⟨j, hj, hrest⟩ := hm.held x hx
  rwa [BitVec.eq_of_toNat_eq (hi.symm.trans hj)]

theorem mem_otherRoots {x : Root} {i : Nat} : x ∈ otherRoots i roots ↔ x ∈ roots ∧ x.1 ≠ i := by
  rw [otherRoots, List.mem_filter, decide_eq_true_iff]

/-- The machine's order of the slots is the order of the live roots (R115). -/
theorem Models.before_of_ahead {next : Nat} (hm : Models F tab next roots)
    {a j : Byte} {x y : Root} (hx : x ∈ roots) (hxa : x.1 = a.toNat) (hy : y ∈ roots) (hyj : y.1 = j.toNat)
    (h : Ahead tab a j) : Root.before F x y = true := by
  rw [Root.before_iff, ← (hm.held_slot hx hxa).2.2, ← (hm.held_slot hy hyj).2.2, hxa, hyj]
  exact h

/-- The two slots selected hold the two roots that `tree` merges. -/
theorem Models.merges {next : Nat} (hm : Models F tab next roots) (hn : (roots.map Prod.fst).Nodup) {a b : Byte}
    (ha : LeastBelow tab none 256 a) (hb : LeastBelow tab (some a) 256 b) :
    ∃ ta tb, Merges F roots (a.toNat, ta) (b.toNat, tb) (otherRoots b.toNat (otherRoots a.toNat roots)) := by
  obtain ⟨ta, hta⟩ := hm.slots a ha.candidate.1
  obtain ⟨tb, htb⟩ := hm.slots b hb.candidate.1
  have hab : b ≠ a := fun e => hb.candidate.2 (congrArg some e.symm)
  have slotNe : ∀ {x y : Root} {i : Byte}, x ∈ roots → y ∈ roots → y ≠ x → x.1 = i.toNat → ∀ j : Byte, y.1 = j.toNat → j ≠ i :=
    fun hx hy hne hi j hj e => hne (eq_of_same_slot hn hy hx (by rw [hi, hj, e]))
  refine ⟨ta, tb, merges_of_least hn (leastRoot_eq hta fun y hy hne => ?_) (leastRoot_eq ?_ fun y hy hne => ?_)⟩
  · obtain ⟨j, hj, hv, -, -⟩ := hm.held y hy
    exact hm.before_of_ahead hta rfl hy hj (ha.ahead j ⟨hv, nofun⟩ j.isLt (slotNe hta hy hne rfl j hj))
  · exact List.mem_filter.2 ⟨htb, decide_eq_true fun e => hab (BitVec.eq_of_toNat_eq e)⟩
  · obtain ⟨hy, hya⟩ := List.mem_filter.1 hy
    obtain ⟨j, hj, hv, -, -⟩ := hm.held y hy
    have hja : j ≠ a := fun e => of_decide_eq_true hya (by rw [hj, e])
    exact hm.before_of_ahead htb rfl hy hj
      (hb.ahead j ⟨hv, fun e => hja (Option.some.inj e).symm⟩ j.isLt (slotNe htb hy hne rfl j hj))

theorem weightAt_of_node {i : Byte} {nd : Node} (h : Arena.node? tab.node (Table.entry tab.slot i).n = some nd) :
    weightAt tab i = nd.w.toNat :=
  weightAt_of_some (by rw [slotWeight, h])

/-- Two of the live roots weigh no more than the whole table (R117). -/
theorem Merges.weight_le {n : Nat} {a b : Root} {rest : List Root} (h : Merges F roots a b rest) (hok : RootsOk n roots) :
    a.2.weight F + b.2.weight F ≤ countSum F := by
  have hsum := hok.sum_weight F
  rw [(h.perm.map _).sum_eq, List.map_cons, List.map_cons, List.sum_cons, List.sum_cons] at hsum
  omega

/-- A merge (R113) makes the next live roots. -/
theorem Models.merge {n next : Nat} (hm : Models F tab next roots) (hok : RootsOk n roots)
    (hsum : countSum F ≤ Config.maxLen) (h256 : 256 ≤ next) (h511 : next < 511) (below : ChildrenBelow tab.node next)
    (hlow : ∀ i, (Table.entry tab.slot i).v = true → (Table.entry tab.slot i).n.toNat < next) {a b : Byte}
    (ha : LeastBelow tab none 256 a) (hb : LeastBelow tab (some a) 256 b) {na nb : Node}
    (hna : Arena.node? tab.node (Table.entry tab.slot a).n = some na)
    (hnb : Arena.node? tab.node (Table.entry tab.slot b).n = some nb) {k : BitVec 9} (hk : k.toNat = next) :
    Models F { tab with
      node := Arena.withNode tab.node next { w := na.w + nb.w, l := (Table.entry tab.slot a).n, r := (Table.entry tab.slot b).n }
      slot := mergedSlots tab.slot a b k } (next + 1) (mergeRoots F roots) := by
  obtain ⟨ta, tb, hmerge⟩ := hm.merges hok.slots ha hb
  have hab : a ≠ b := fun e => hb.candidate.2 (congrArg some e)
  have hweight : ta.weight F + tb.weight F ≤ countSum F := hmerge.weight_le hok
  obtain ⟨hva, hra, hwa⟩ := hm.held_slot (leastRoot_mem hmerge.least) rfl
  obtain ⟨hvb, hrb, hwb⟩ := hm.held_slot (List.mem_of_mem_filter (leastRoot_mem hmerge.second)) rfl
  have slotA : Holds (mergedSlots tab.slot a b k) a k := (holds_mergedSlots hab).2 (.inl ⟨rfl, rfl⟩)
  have keeps : ∀ {m : BitVec 9} {tr : Tree}, m.toNat < next → ReadsAs tab.node m tr →
      ReadsAs (Arena.withNode tab.node next
        { w := na.w + nb.w, l := (Table.entry tab.slot a).n, r := (Table.entry tab.slot b).n }) m tr := fun hlt hr =>
    readsAs_withNode below h256 h511 _ hlt hr
  rw [hmerge.merged]
  refine ⟨fun i hi => ?_, fun x hx => ?_, fun _ => ⟨a, _, _, rfl, ?_⟩⟩
  · obtain ⟨rfl, -⟩ | ⟨hia, hib, hi⟩ := (holds_mergedSlots hab).1 (holds_of_valid hi)
    · exact ⟨_, List.mem_cons_self⟩
    · obtain ⟨tr, htr⟩ := hm.slots i hi.valid
      have ne : ∀ {c : Byte}, i ≠ c → i.toNat ≠ c.toNat := fun h e => h (BitVec.eq_of_toNat_eq e)
      exact ⟨tr, List.mem_cons_of_mem _ (mem_otherRoots.2 ⟨mem_otherRoots.2 ⟨htr, ne hia⟩, ne hib⟩)⟩
  · obtain rfl | hx := List.mem_cons.1 hx
    · refine ⟨a, rfl, slotA.valid, ?_, ?_⟩
      · rw [slotA]
        refine ⟨((Table.entry tab.slot a).n, (Table.entry tab.slot b).n), ?_, keeps (hlow a hva) hra, keeps (hlow b hvb) hrb⟩
        rw [children?_withNode h256 h511, if_pos hk]
      · rw [weightAt_of_node (nd := { w := na.w + nb.w, l := (Table.entry tab.slot a).n, r := (Table.entry tab.slot b).n })]
        · rw [weightAt_of_node hna] at hwa
          rw [weightAt_of_node hnb] at hwb
          simp only [Config.maxLen] at hsum hwa hwb
          rw [BitVec.toNat_add, hwa, hwb, Tree.weight, Nat.mod_eq_of_lt (by omega)]
        · rw [slotA, Arena.node?_withNode, if_pos ⟨hk, h511⟩]
    · obtain ⟨hx, hxb⟩ := mem_otherRoots.1 hx
      obtain ⟨hx, hxa⟩ := mem_otherRoots.1 hx
      obtain ⟨i, hi, hv, hr, hw⟩ := hm.held x hx
      have hia : i ≠ a := fun e => hxa (by rw [hi, e])
      have hib : i ≠ b := fun e => hxb (by rw [hi, e])
      have hsame : Table.entry (mergedSlots tab.slot a b k) i = Table.entry tab.slot i :=
        (holds_mergedSlots hab).2 (.inr ⟨hia, hib, holds_of_valid hv⟩) |>.trans (holds_of_valid hv).symm
      have hlt := hlow i hv
      refine ⟨i, hi, by rw [hsame]; exact hv, by rw [hsame]; exact keeps hlt hr, ?_⟩
      rw [← hw, weightAt, weightAt, slotWeight, slotWeight, hsame, Arena.node?_withNode, if_neg (by omega)]
  · rw [slotA, hk]

/-! ### The leaves -/

/-- The slots and leaves below `k` are set (R111). -/
def LeavesBelow (F : Counts) (tab : Tables) (k : Nat) : Prop :=
  ∀ i : Byte, i.toNat < k → Holds tab.slot i (i.setWidth 9) ∧
    (Arena.node? tab.node (i.setWidth 9)).map Node.w = some (F i)

theorem initLeaf_tab (v : BitVec 9) (s : State) : (initLeaf v s).tab = { s.tab with
    node := s.tab.node.withLeafWeight (v.setWidth 8) (s.tab.freq.entry (v.setWidth 8))
    slot := s.tab.slot.withEntry (v.setWidth 8) { v := true, n := v } } := by
  unfold initLeaf
  simp only
  split <;> rfl

theorem initLeaf_leavesBelow {v : BitVec 9} (hv : v.toNat < 256) (h : LeavesBelow s.counts s.tab v.toNat) :
    LeavesBelow s.counts (initLeaf v s).tab (v.toNat + 1) := by
  have hv8 : (v.setWidth 8 : Byte).toNat = v.toNat := by
    rw [BitVec.toNat_setWidth]
    exact Nat.mod_eq_of_lt hv
  intro i hi
  have hi9 : (i.setWidth 9).toNat = i.toNat := by
    rw [BitVec.toNat_setWidth]
    omega
  rw [initLeaf_tab]
  unfold Holds
  simp only [Table.entry_withEntry, Arena.node?_withLeafWeight, hi9, hv8]
  by_cases e : i.toNat = v.toNat
  · have hiv : i = v.setWidth 8 := BitVec.eq_of_toNat_eq (e.trans hv8.symm)
    obtain ⟨nd, hnd⟩ := Arena.node?_eq_some (a := s.tab.node) (n := i.setWidth 9) (by omega)
    have hv9 : v = i.setWidth 9 := BitVec.eq_of_toNat_eq (e.symm.trans hi9.symm)
    rw [if_pos hiv, if_pos e, hnd, ← hiv]
    exact ⟨congrArg (Slot.mk true) hv9, rfl⟩
  · have hiv : i ≠ v.setWidth 8 := fun e' => e (by rw [e', hv8])
    rw [if_neg hiv, if_neg e]
    exact h i (by omega)

/-- After INIT the slots hold the leaves. -/
theorem models_leaves (h : LeavesBelow F tab 256) : Models F tab 256 (rootsAfter F 0) where
  slots i _ := ⟨.leaf i, List.mem_map.2 ⟨i, mem_allBytes i, rfl⟩⟩
  held := by
    intro x hx
    obtain ⟨i, -, rfl⟩ := List.mem_map.1 hx
    obtain ⟨hi, hw⟩ := h i i.isLt
    obtain ⟨nd, hnd, hnw⟩ := Option.map_eq_some_iff.1 hw
    refine ⟨i, rfl, hi.valid, congrArg Slot.n hi, ?_⟩
    rw [weightAt_of_node (nd := nd) (by rw [hi, hnd]), hnw]
    rfl
  newest h := absurd h (Nat.lt_irrefl 256)

/-! ### The run of BUILD -/

/-- The slots hold the live roots after the merges that `NEXT` counts (R114). -/
abbrev HoldsRoots (F : Counts) (s : State) : Prop :=
  Models F s.tab s.work.next.toNat (rootsAfter F (s.work.next.toNat - 256))

/-- How far BUILD has come towards the tree of `F`, at each of its positions. -/
def ModelsAt (F : Counts) (s : State) : Prop :=
  match s.stage with
  | .entry => True
  | .initLeaf => LeavesBelow F s.tab s.work.vidx.toNat
  | .scanA best => HoldsRoots F s ∧ BestBelow s.tab none s.work.sidx.toNat best
  | .scanB best => HoldsRoots F s ∧ LeastBelow s.tab none 256 s.work.sela ∧
      BestBelow s.tab (some s.work.sela) s.work.sidx.toNat best
  | .merge => HoldsRoots F s ∧ LeastBelow s.tab none 256 s.work.sela ∧ LeastBelow s.tab (some s.work.sela) 256 s.work.selb
  | .root => HoldsRoots F s
  | _ => False

/-- The root's step of BUILD (R116), after all merges. -/
def TakesRoot (F : Counts) (s t : State) : Prop := t = takeRoot s ∧ s.work.next.toNat = 511 ∧ HoldsRoots F s

theorem initLeaf_modelsAt {v : BitVec 9} (hv : v.toNat < 256) (h : LeavesBelow s.counts s.tab v.toNat) :
    (initLeaf v s).phase = s.phase ∧ ModelsAt s.counts (initLeaf v s) := by
  refine ⟨initLeaf_phase v s, ?_⟩
  have hleaves := initLeaf_leavesBelow hv h
  by_cases hlt : v.toNat < 255
  · obtain ⟨hst, hvidx, -⟩ := initLeaf_more (s := s) hlt
    rw [← vidx_succ hlt, ← hvidx] at hleaves
    rw [ModelsAt, hst]
    exact hleaves
  · rw [show v.toNat + 1 = 256 by omega] at hleaves
    have hmodels := models_leaves hleaves
    have h256 : (256 : BitVec 10).toNat = 256 := rfl
    rw [initLeaf_last hlt] at hmodels ⊢
    refine ⟨?_, bestBelow_zero _ _⟩
    simp only [HoldsRoots, h256]
    exact hmodels

theorem mergeStep_inversion (h : mergeStep s = .next t) :
    ∃ na nb, Arena.node? s.tab.node (Table.entry s.tab.slot s.work.sela).n = some na ∧
      Arena.node? s.tab.node (Table.entry s.tab.slot s.work.selb).n = some nb ∧ s.work.next.toNat < 511 ∧
      t = nextMerge { s with
        tab.node := s.tab.node.withNode s.work.next.toNat
          { w := na.w + nb.w, l := (Table.entry s.tab.slot s.work.sela).n, r := (Table.entry s.tab.slot s.work.selb).n }
        tab.slot := mergedSlots s.tab.slot s.work.sela s.work.selb (s.work.next.setWidth 9)
        work.next := s.work.next + 1, work.live := s.work.live - 1 } := by
  unfold mergeStep at h
  simp only at h
  split at h
  · next na nb hna hnb =>
    split at h
    · next hlt =>
      cases h
      exact ⟨na, nb, hna, hnb, hlt, rfl⟩
    · cases h
  · cases h

theorem nextMerge_modelsAt (h : HoldsRoots F s) : ModelsAt F (nextMerge s) := by
  unfold nextMerge
  split
  · exact ⟨h, bestBelow_zero _ _⟩
  · exact h

theorem mergeStep_modelsAt (hb : BuildOk s.work s.tab) (hsum : countSum F ≤ Config.maxLen) (hm : HoldsRoots F s)
    (ha : LeastBelow s.tab none 256 s.work.sela) (hb' : LeastBelow s.tab (some s.work.sela) 256 s.work.selb)
    (he : mergeStep s = .next t) : t.phase = s.phase ∧ ModelsAt F t := by
  obtain ⟨na, nb, hna, hnb, hlt, rfl⟩ := mergeStep_inversion he
  have hlow := hb.next_low
  have hnext : (s.work.next + 1).toNat = s.work.next.toNat + 1 := toNat_succ (b := 511) hlt (by decide)
  have hk : (s.work.next.setWidth 9).toNat = s.work.next.toNat := by
    rw [BitVec.toNat_setWidth]
    exact Nat.mod_eq_of_lt (by omega)
  have hmerged := hm.merge (rootsOk_rootsAfter (by omega) F) hsum hlow hlt hb.children hb.roots ha hb' hna hnb hk
  rw [← rootsAfter_succ] at hmerged
  refine ⟨(nextMerge_spec _).1, nextMerge_modelsAt ?_⟩
  show Models F _ (s.work.next + 1).toNat (rootsAfter F ((s.work.next + 1).toNat - 256))
  rwa [hnext, show s.work.next.toNat + 1 - 256 = s.work.next.toNat - 256 + 1 by omega]

/-- Each step of BUILD comes closer to the tree of the table. -/
theorem execBuild_modelsAt (h : Inv s) (hp : s.phase = .build) (hsum : countSum s.counts ≤ Config.maxLen)
    (hI : ModelsAt s.counts s) (he : execBuild s = .next t) : TakesRoot s.counts s t ∨ t.phase = s.phase ∧ ModelsAt s.counts t := by
  have hpos := h.position
  cases hs : s.stage with
  | entry =>
    simp only [execBuild, hs] at he
    cases he
    exact .inr (initLeaf_modelsAt (by decide) fun i hi => absurd hi (Nat.not_lt_zero _))
  | initLeaf =>
    simp only [PositionOk, hp, hs] at hpos
    simp only [ModelsAt, hs] at hI
    simp only [execBuild, hs] at he
    cases he
    exact .inr (initLeaf_modelsAt hpos.2.1 hI)
  | scanA best =>
    simp only [PositionOk, hp, hs] at hpos
    simp only [ModelsAt, hs] at hI
    simp only [execBuild, hs] at he
    obtain ⟨-, -, hscan⟩ := hpos
    obtain ⟨hm, hbest⟩ := hI
    obtain ⟨best', rfl, hbest'⟩ | ⟨b, rfl, hleast⟩ := scanSlot_bestBelow hbest hscan.sidx he
    · exact .inr ⟨rfl, hm, hbest'⟩
    · exact .inr ⟨rfl, hm, hleast, bestBelow_zero _ _⟩
  | scanB best =>
    simp only [PositionOk, hp, hs] at hpos
    simp only [ModelsAt, hs] at hI
    simp only [execBuild, hs] at he
    obtain ⟨-, -, hscan, -⟩ := hpos
    obtain ⟨hm, hleast, hbest⟩ := hI
    obtain ⟨best', rfl, hbest'⟩ | ⟨b, rfl, hsecond⟩ := scanSlot_bestBelow hbest hscan.sidx he
    · exact .inr ⟨rfl, hm, hleast, hbest'⟩
    · exact .inr ⟨rfl, hm, hleast, hsecond⟩
  | merge =>
    simp only [PositionOk, hp, hs] at hpos
    simp only [ModelsAt, hs] at hI
    simp only [execBuild, hs] at he
    obtain ⟨hm, hleast, hsecond⟩ := hI
    exact .inr (mergeStep_modelsAt hpos.2.1 hsum hm hleast hsecond he)
  | root =>
    simp only [PositionOk, hp, hs] at hpos
    simp only [ModelsAt, hs] at hI
    simp only [execBuild, hs] at he
    obtain ⟨-, hb, hlive⟩ := hpos
    have hcounts := hb.counts
    rw [hlive] at hcounts
    cases he
    exact .inl ⟨rfl, by simpa using hcounts, hI⟩
  | _ => simp only [PositionOk, hp, hs] at hpos

/-- BUILD leaves what it does not write, and `SUM`. -/
structure BuildKeeps (s0 s : State) : Prop where
  frame : BuildFrame s0 s
  sum : s.work.sum = s0.work.sum

theorem BuildKeeps.step (h : BuildKeeps s0 s) (he : execBuild s = .next t) : BuildKeeps s0 t where
  frame := h.frame.trans (execBuild_frame he)
  sum := by
    obtain ⟨_, _, _, _, _, _, _, _, _, _, _, rfl⟩ := (execBuild_within s).next he
    exact h.sum

theorem BuildKeeps.counts (h : BuildKeeps s0 s) : s.counts = s0.counts := by
  funext v
  rw [State.counts, State.counts, h.frame.freq]

/-- BUILD from `s0` is complete (R116 to R118): the arena read from `ROOT` is the tree of the table. The tree is named, so
that no proof evaluates it. -/
structure Built (s0 s : State) : Prop where
  keeps : BuildKeeps s0 s
  phase : s.phase = if s0.op = .comp then .emithdr else .rdtrailer
  stage : s.stage = .entry
  tree : ∃ tr, tr = Machine.tree s0.counts ∧ ReadsAs s.tab.node s.work.root tr
  weight : ∃ nd, Arena.node? s.tab.node s.work.root = some nd ∧ nd.w.toNat = countSum s0.counts

theorem tree_weight (F : Counts) : (tree F).weight F = countSum F := by
  rw [Tree.weight_eq_sum, ((tree_leaves_perm F).map _).sum_eq, countSum]

theorem built_of_takesRoot (hk : BuildKeeps s0 t) (hop : s.op = s0.op) (h : TakesRoot s0.counts s t) : Built s0 t := by
  obtain ⟨rfl, hnext, hm⟩ := h
  obtain ⟨hphase, hstage, htab, hwork⟩ := takeRoot_spec s
  obtain ⟨k, hroots⟩ := rootsAfter_255 s0.counts
  have hweight := tree_weight s0.counts
  generalize htree : Machine.tree s0.counts = T at hroots hweight
  rw [HoldsRoots, hnext, hroots] at hm
  obtain ⟨i, tr, rest, htr, hn⟩ := hm.newest (by decide)
  obtain ⟨⟨rfl, rfl⟩, -⟩ : (k = i.toNat ∧ T = tr) ∧ rest = [] := by simpa [eq_comm] using htr
  obtain ⟨j, hj, hv, hreads, hw⟩ := hm.held _ (List.mem_singleton_self _)
  dsimp only at hj hreads hw
  obtain rfl : i = j := BitVec.eq_of_toNat_eq hj
  have hroot : (takeRoot s).work.root = (Table.entry s.tab.slot i).n := by
    rw [hwork]
    refine BitVec.eq_of_toNat_eq ?_
    rw [BitVec.toNat_setWidth, BitVec.toNat_sub, hnext, Nat.succ.inj hn]
    rfl
  obtain ⟨nd, hnd⟩ := Arena.node?_eq_some (a := s.tab.node) (n := (Table.entry s.tab.slot i).n) (by omega)
  refine ⟨hk, hop ▸ hphase, hstage, ⟨_, htree.symm, by rw [htab, hroot]; exact hreads⟩, nd,
    by rw [htab, hroot]; exact hnd, ?_⟩
  rw [← weightAt_of_node hnd, hw, hweight]

/-- R118: BUILD makes the tree of its table, in the 131072 steps of R221. -/
theorem build_reaches (h : Quiet s) (hp : s.phase = .build) (hs : s.stage = .entry)
    (hsum : countSum s.counts ≤ Config.maxLen) : ReachesIn 131072 s (Built s) := by
  obtain ⟨u, hrun, hu, -⟩ := buildWhole s h.inv h.undisturbed hp hs
  refine h.exit (I := fun u => u.phase = .build ∧ BuildKeeps s u ∧ ModelsAt s.counts u) ?_
    ⟨hp, ⟨.refl s, rfl⟩, by rw [ModelsAt, hs]; trivial⟩ hrun ?_
  · rintro v w hq ⟨hpv, hkv, hmv⟩ he
    rw [hpv] at he
    have hkw := hkv.step he
    rw [← hkv.counts] at hsum hmv
    obtain hroot | ⟨hpw, hmw⟩ := execBuild_modelsAt hq.inv hpv hsum hmv he
    · rw [hkv.counts] at hroot
      exact .inl (built_of_takesRoot hkw hkv.frame.command.op hroot)
    · exact .inr ⟨hpw.trans hpv, hkw, hkv.counts ▸ hmw⟩
  · rintro ⟨hpu, -⟩
    rw [hpu] at hu
    split at hu <;> cases hu

end Sys2Proof.Machine
end

section
/-!
PROOFS. The run of CODEGEN (43_code_table.md R130, R131): the calls of `visit` still to make stand for the subtrees whose
leaves have no code yet, and a visit gives a leaf its code or leaves its children to visit.
-/
namespace Sys2Proof.Machine

variable {F : Counts} {s s0 t : State}

/-- The number of nodes of a tree: its leaves and one less internal nodes (R120). -/
def Tree.nodes : Tree → Nat
  | .leaf _ => 1
  | .node l r => l.nodes + r.nodes + 1

theorem Tree.nodes_succ (tr : Tree) : tr.nodes + 1 = 2 * tr.leaves.length := by
  induction tr with
  | leaf v => rfl
  | node l r ihl ihr =>
    rw [Tree.nodes, Tree.leaves, List.length_append]
    omega

theorem Tree.nodes_pos (tr : Tree) : 0 < tr.nodes := by
  cases tr <;> exact Nat.succ_pos _

theorem tree_nodes (F : Counts) : (tree F).nodes = 511 := by
  have h := Tree.nodes_succ (tree F)
  rw [tree_leaves_length] at h
  omega

/-! ### The pending calls -/

/-- A call of `visit` for the subtree `tr`: the path to it is the first part of the codes of its leaves. -/
def Visits (F : Counts) (a : Arena) (x : BitVec 9 × List Bool) (tr : Tree) : Prop :=
  ReadsAs a x.1 tr ∧ ∀ q v, tr.leafAt q = some v → code F v = x.2 ++ q

theorem Visits.leaf {a : Arena} {n : BitVec 9} {p : List Bool} {v : Byte} (h : Visits F a (n, p) (.leaf v)) :
    n.toNat < 256 ∧ n.setWidth 8 = v ∧ code F v = p := by
  obtain ⟨hr, hcode⟩ := h
  have hn : n = v.setWidth 9 := hr
  have hv := v.isLt
  refine ⟨?_, by bv_omega, by simpa using hcode [] v rfl⟩
  rw [hn, BitVec.toNat_setWidth]
  omega

theorem Visits.node {a : Arena} {n : BitVec 9} {p : List Bool} {l r : Tree} (h : Visits F a (n, p) (.node l r)) :
    ¬n.toNat < 256 ∧ ∃ c, a.children? n = some c ∧ Visits F a (c.1, p ++ [false]) l ∧ Visits F a (c.2, p ++ [true]) r := by
  obtain ⟨⟨c, hc, hl, hr⟩, hcode⟩ := h
  refine ⟨Nat.not_lt.2 (Arena.children?_eq_some.1 hc).1, c, hc, ⟨hl, fun q v hq => ?_⟩, ⟨hr, fun q v hq => ?_⟩⟩
  · rw [hcode (false :: q) v hq, List.append_assoc, List.singleton_append]
  · rw [hcode (true :: q) v hq, List.append_assoc, List.singleton_append]

/-- CODEGEN from `s0` is complete (R131): every byte value has its code. -/
structure Coded (F : Counts) (s0 s : State) : Prop where
  phase : s.phase = .pack
  stage : s.stage = .entry
  codes : ∀ v, (Table.entry s.tab.code v).bits = code F v
  output : s.output = s0.output

/-- The calls `todo` are still to make: they visit the trees whose leaves have no code yet. -/
structure Visiting (F : Counts) (s0 : State) (todo : List (BitVec 9 × List Bool)) (trees : List Tree) (s : State) : Prop where
  phase : s.phase = .codegen
  pending : List.Forall₂ (Visits F s.tab.node) todo trees
  codes : ∀ v, (∃ tr ∈ trees, v ∈ tr.leaves) ∨ (Table.entry s.tab.code v).bits = code F v
  output : s.output = s0.output

theorem afterVisit_visiting {todo : List (BitVec 9 × List Bool)} {trees : List Tree} (h : Visiting F s0 todo trees s) :
    Coded F s0 (afterVisit todo s) ∨
      Visiting F s0 todo trees (afterVisit todo s) ∧ (afterVisit todo s).stage = .visit todo ∧ todo ≠ [] := by
  obtain ⟨hp, hpend, hcodes, hout⟩ := h
  cases hpend with
  | nil => exact .inl ⟨rfl, rfl, fun v => (hcodes v).resolve_left (by simp), hout⟩
  | cons hx hrest => exact .inr ⟨⟨hp, .cons hx hrest, hcodes, hout⟩, rfl, List.cons_ne_nil _ _⟩

/-- The number of calls that visit all of `trees`. -/
abbrev visits (trees : List Tree) : Nat := (trees.map Tree.nodes).sum

/-- One call of `visit` (R130). -/
theorem visitNode_visiting {n : BitVec 9} {p : List Bool} {rest : List (BitVec 9 × List Bool)} {trees : List Tree}
    (h : Visiting F s0 ((n, p) :: rest) trees s) (he : visitNode n p rest s = .next t) :
    Coded F s0 t ∨ ∃ todo' trees', Visiting F s0 todo' trees' t ∧ t.stage = .visit todo' ∧ todo' ≠ [] ∧
      visits trees' + 1 = visits trees := by
  have done : ∀ {todo' trees'} {u : State}, Visiting F s0 todo' trees' u → visits trees' + 1 = visits trees →
      Coded F s0 (afterVisit todo' u) ∨ ∃ todo'' trees'', Visiting F s0 todo'' trees'' (afterVisit todo' u) ∧
        (afterVisit todo' u).stage = .visit todo'' ∧ todo'' ≠ [] ∧ visits trees'' + 1 = visits trees := fun hv hcount => by
    obtain hc | ⟨hv', hst, hne⟩ := afterVisit_visiting hv
    · exact .inl hc
    · exact .inr ⟨_, _, hv', hst, hne, hcount⟩
  obtain ⟨hp, hpend, hcodes, hout⟩ := h
  cases hpend with
  | @cons _ tr _ trees hx hrest =>
    unfold visitNode at he
    cases tr with
    | leaf v =>
      obtain ⟨hn, rfl, hcode⟩ := hx.leaf
      rw [if_pos hn] at he
      split at he
      · cases he
        refine done ⟨hp, hrest, fun u => ?_, hout⟩ (Nat.add_comm _ 1)
        rw [recordCode]
        simp only [Table.entry_withEntry]
        split
        · next e => exact .inr (by rw [e, hcode])
        · next hne =>
          obtain ⟨tr, htr, hu⟩ | hu := hcodes u
          · obtain rfl | htr := List.mem_cons.1 htr
            · exact absurd (List.mem_singleton.1 hu) hne
            · exact .inl ⟨tr, htr, hu⟩
          · exact .inr hu
      · cases he
    | node l r =>
      obtain ⟨hn, c, hc, hl, hr⟩ := hx.node
      rw [if_neg hn, hc] at he
      cases he
      refine done ⟨hp, .cons hl (.cons hr hrest), fun u => ?_, hout⟩ ?_
      · obtain ⟨tr, htr, hu⟩ | hu := hcodes u
        · obtain rfl | htr := List.mem_cons.1 htr
          · obtain hu | hu := List.mem_append.1 hu
            · exact .inl ⟨l, List.mem_cons_self, hu⟩
            · exact .inl ⟨r, List.mem_cons_of_mem _ List.mem_cons_self, hu⟩
          · exact .inl ⟨tr, List.mem_cons_of_mem _ (List.mem_cons_of_mem _ htr), hu⟩
        · exact .inr hu
      · simp only [visits, List.map_cons, List.sum_cons, Tree.nodes]
        omega

/-- CODEGEN from `s0` with `m` more steps after this one. -/
def CodegenAt (F : Counts) (s0 : State) (m : Nat) (s : State) : Prop :=
  ∃ n p rest trees, Visiting F s0 ((n, p) :: rest) trees s ∧ visits trees = m + 1 ∧
    (s.stage = .visit ((n, p) :: rest) ∨ s.stage = .entry ∧ n = s.work.root ∧ p = [] ∧ rest = [])

theorem execCodegen_codegenAt {m : Nat} (hI : CodegenAt F s0 m s) (he : execCodegen s = .next t) :
    Coded F s0 t ∨ ∃ m' < m, CodegenAt F s0 m' t := by
  obtain ⟨n, p, rest, trees, hv, hcount, hs⟩ := hI
  have hvisit : execCodegen s = visitNode n p rest s := by
    obtain hs | ⟨hs, rfl, rfl, rfl⟩ := hs <;> simp only [execCodegen, hs]
  obtain hc | ⟨todo', trees', hv', hst, hne, hcount'⟩ := visitNode_visiting hv (hvisit.symm.trans he)
  · exact .inl hc
  · obtain ⟨⟨n', p'⟩, rest', rfl⟩ := List.exists_cons_of_ne_nil hne
    have hpos : 0 < visits trees' := by
      cases hv'.pending with
      | @cons _ tr _ _ _ _ => exact Nat.add_pos_left tr.nodes_pos _
    exact .inr ⟨visits trees' - 1, by omega, n', p', rest', trees', hv', by omega, .inl hst⟩

/-- R131: CODEGEN gives every byte value its code in the tree that `ROOT` reads as, one step for each node. -/
theorem codegen_reaches {tr : Tree} (h : Quiet s) (hp : s.phase = .codegen) (hs : s.stage = .entry) (htr : tr = tree F)
    (hr : ReadsAs s.tab.node s.work.root tr) : ReachesIn 511 s (Coded F s) := by
  refine h.loop (I := CodegenAt F s) (fun m u t hq hI he => execCodegen_codegenAt hI ?_)
    ⟨s.work.root, [], [], [tr], ⟨hp, .cons ⟨hr, fun q v hq => code_of_leafAt (htr ▸ hq)⟩ .nil, fun v => ?_, rfl⟩, ?_,
      .inr ⟨hs, rfl, rfl, rfl⟩⟩
  · obtain ⟨_, _, _, _, hv, -⟩ := hI
    rwa [hv.phase] at he
  · exact .inl ⟨tr, List.mem_singleton_self _, htr ▸ (tree_leaves_perm F).mem_iff.2 (mem_allBytes v)⟩
  · simp only [visits, List.map_cons, List.map_nil, List.sum_cons, List.sum_nil, htr, tree_nodes,
      Nat.add_zero]

end Sys2Proof.Machine
end

section
/-!
PROOFS. PACK and FINISH end, within 256 steps for each input byte (40_commands.md R89).
-/
namespace Sys2Proof.Machine

variable {s t : State} {m n i : Nat} {b : Byte}

/-- PACK before input byte `n` or FINISH at its start, with `m` more steps after this one. -/
def ByteLeft (m n : Nat) (s : State) : Prop := BeforeByte n s ∧ m = 256 * (s.inLen.toNat - n) + 1

/-- PACK before bit `i` of the code of input byte `n`, with `m` more steps after this one. -/
def BitLeft (m n : Nat) (b : Byte) (i : Nat) (s : State) : Prop :=
  BeforeBit n b i s ∧ m = 256 * (s.inLen.toNat - (n + 1)) + ((Table.entry s.tab.code b).len.toNat - i) + 1

/-- PACK or FINISH with `m` more steps after this one. -/
def PackLeft (m : Nat) (s : State) : Prop :=
  s.phase = .pack ∧ s.stage = .entry ∧ m = 256 * s.inLen.toNat + 2 ∨ (∃ n, ByteLeft m n s) ∨
    (∃ n b i, BitLeft m n b i s) ∨ s.phase = .finish ∧ s.stage = .trailer ∧ m = 0

theorem succeeded_of_trailer (h : Quiet s) (hp : s.phase = .finish) (he : finishTrailer s = .next t) : Succeeded t := by
  rw [finishTrailer_eq h.undisturbed.outAccepts] at he
  cases he
  exact ⟨rfl, rfl, (h.inv.busy_clear (by simp [hp])).2⟩

theorem finish_packLeft (h : Quiet s) (hp : s.phase = .finish) (hs : s.stage = .entry) (he : execFinish s = .next t) :
    Succeeded t ∨ PackLeft 0 t := by
  simp only [execFinish, hs] at he
  by_cases h8 : s.work.free = 8
  · rw [finishData, if_pos h8] at he
    exact .inl (succeeded_of_trailer h hp he)
  · rw [finishData_eq h.undisturbed.outAccepts h8] at he
    cases he
    exact .inr (.inr (.inr (.inr ⟨hp, rfl, rfl⟩)))

/-- The `InByte` of byte `n`, or the first step of FINISH. -/
theorem ByteLeft.next (h : Quiet s) (hI : ByteLeft m n s) (he : exec s.phase.instr s = .next t) :
    Succeeded t ∨ ∃ m' < m, PackLeft m' t := by
  obtain ⟨hb, rfl⟩ := hI
  unfold BeforeByte at hb
  split at hb
  · next hn =>
    obtain ⟨hp, hs, rfl⟩ := hb
    have he' : packFetch s = .next t := by
      rw [hp] at he
      simpa only [Phase.instr, exec, execPack, hs] using he
    rw [packFetch_eq hn h.undisturbed.inAnswers] at he'
    cases he'
    set b := s.outside.inp.read s.work.pos.toNat
    have hl := (Table.entry s.tab.code b).len.isLt
    refine .inr ⟨_, ?_, .inr (.inr (.inl ⟨_, b, 0, fetched_beforeBit b hp hn, rfl⟩))⟩
    rw [(fetched_outputOnly b s).tab, (fetched_outputOnly b s).command.inLen]
    omega
  · obtain ⟨hp, hs⟩ := hb
    rw [hp] at he
    obtain hsucc | hleft := finish_packLeft h hp hs he
    · exact .inl hsucc
    · exact .inr ⟨0, Nat.succ_pos _, hleft⟩

/-- A push leaves the position in the input and in the code. -/
theorem shiftAcc_makeRoom_at (s : State) (bit : Bool) : (shiftAcc bit (makeRoom s)).phase = s.phase ∧
    (shiftAcc bit (makeRoom s)).inLen = s.inLen ∧ (shiftAcc bit (makeRoom s)).work.byte = s.work.byte ∧
    (shiftAcc bit (makeRoom s)).work.cidx = s.work.cidx ∧ (shiftAcc bit (makeRoom s)).work.pos = s.work.pos := by
  rw [makeRoom_eq]
  exact ⟨rfl, rfl, rfl, rfl, rfl⟩

/-- PUSHBIT of bit `i` of the code of byte `n`, or the next byte's step. -/
theorem BitLeft.next (h : Quiet s) (hI : BitLeft m n b i s) (he : exec s.phase.instr s = .next t) :
    Succeeded t ∨ ∃ m' < m, PackLeft m' t := by
  obtain ⟨hb, rfl⟩ := hI
  by_cases hi : i < (Table.entry s.tab.code b).len.toNat
  · rw [BeforeBit, if_pos hi] at hb
    obtain ⟨hp, hs, rfl, rfl, rfl⟩ := hb
    have hpos := h.inv.position
    simp only [PositionOk, hp, hs] at hpos
    obtain ⟨hlt, -⟩ := hpos
    have hbits : s.work.cidx.toNat < (Table.entry s.tab.code s.work.byte).bits.length := h.inv.code_len _ ▸ hi
    have he' : packPush s = .next t := by
      rw [hp] at he
      simpa only [Phase.instr, exec, execPack, hs] using he
    simp only [packPush, List.getElem?_eq_getElem hbits, pushBit_eq h.undisturbed.outAccepts] at he'
    cases he'
    set bit := (Table.entry s.tab.code s.work.byte).bits[s.work.cidx.toNat]
    have hframe := (shiftAcc_makeRoom_outputOnly s bit).trans (packNextBit_outputOnly _)
    obtain ⟨hphase, hinLen, hbyte, hcidx, hposn⟩ := shiftAcc_makeRoom_at s bit
    have hbit := packNextBit_beforeBit (hphase.trans hp) (by rw [hposn, hinLen]; exact hlt)
    rw [hbyte, hcidx, hposn] at hbit
    refine .inr ⟨_, ?_, .inr (.inr (.inl ⟨_, _, _, hbit, rfl⟩))⟩
    rw [hframe.tab, hframe.command.inLen]
    omega
  · rw [BeforeBit, if_neg hi] at hb
    obtain hsucc | ⟨m', hm', hleft⟩ := ByteLeft.next h ⟨hb, rfl⟩ he
    · exact .inl hsucc
    · exact .inr ⟨m', by omega, hleft⟩

theorem PackLeft.next (h : Quiet s) (hI : PackLeft m s) (he : exec s.phase.instr s = .next t) :
    Succeeded t ∨ ∃ m' < m, PackLeft m' t := by
  obtain ⟨hp, hs, rfl⟩ | ⟨n, hbyte⟩ | ⟨n, b, i, hbit⟩ | ⟨hp, hs, rfl⟩ := hI
  · have he' : packStart s = t := by
      rw [hp] at he
      simpa only [Phase.instr, exec, execPack, hs, Host.Outcome.next.injEq] using he
    cases he'
    refine .inr ⟨_, ?_, .inr (.inl ⟨0, packStart_beforeByte hp, rfl⟩)⟩
    rw [(packStart_outputOnly s).command.inLen]
    omega
  · exact hbyte.next h he
  · exact hbit.next h he
  · rw [hp] at he
    exact .inl (succeeded_of_trailer h hp (by simpa only [Phase.instr, exec, execFinish, hs] using he))

/-- R89 of PACK and FINISH: every code has at most 255 bits. -/
theorem pack_ends (h : Quiet s) (hp : s.phase = .pack) (hs : s.stage = .entry) :
    ReachesIn (256 * s.inLen.toNat + 3) s Succeeded :=
  h.loop (I := PackLeft) (fun _ _ _ hq hI he => hI.next hq he) (.inl ⟨hp, hs, rfl⟩)

end Sys2Proof.Machine
end

section
/-!
PROOFS. A whole COMPRESS (40_commands.md R86, R89, R90): COUNT, BUILD, EMITHDR and CODEGEN bring the machine to PACK with
the header written and the codes of the input's table, PACK and FINISH append the codes of the input.
-/
namespace Sys2Proof.Machine

variable {s t : State}

theorem State.input_length (s : State) : s.input.length = s.inLen.toNat := Memory.bytes_length _ _ _

/-- A COMPRESS at PACK (R131): the header of the input's table is out, and every byte value has its code. -/
structure ReadyToPack (s : State) : Prop where
  phase : s.phase = .pack
  stage : s.stage = .entry
  output : s.output = hdr (freq s.input)
  codes : ∀ v, (Table.entry s.tab.code v).bits = code (freq s.input) v

theorem countSum_freq_input (h : Quiet s) (hb : s.phase ≠ .idle) : countSum (freq s.input) ≤ Config.maxLen := by
  have hlen : s.inLen.toNat ≤ Config.maxLen := h.inv.len_high hb
  rw [countSum_freq (by rw [State.input_length]; exact s.inLen.isLt), State.input_length]
  exact hlen

/-- From EMITHDR on, with the tree of the input's table in the arena. -/
theorem emithdr_readyToPack {tr : Tree} (h : Quiet s) (hp : s.phase = .emithdr) (hs : s.stage = .entry)
    (hcounts : s.counts = freq s.input) (htr : tr = tree (freq s.input)) (hr : ReadsAs s.tab.node s.work.root tr) :
    ReachesIn (1024 + 511) s ReadyToPack := by
  refine (emithdr_reaches h hp hs).then fun t hqt hkt ⟨hframe, hpt, hst, hout⟩ => ?_
  rw [← hframe.node, ← hframe.root] at hr
  refine (codegen_reaches hqt hpt hst htr hr).imp fun u _ hku hcoded => ?_
  have hinput : u.input = s.input := hku.input.trans hkt.input
  refine ⟨hcoded.phase, hcoded.stage, ?_, ?_⟩
  · rw [hcoded.output, hout, hcounts, hinput]
  · rw [hinput]
    exact hcoded.codes

/-- From COUNT on. -/
theorem count_readyToPack (h : Quiet s) (hp : s.phase = .count) (hs : s.stage = .entry) :
    ReachesIn (256 + s.inLen.toNat + (131072 + (1024 + 511))) s ReadyToPack := by
  have hop : s.op = .comp := h.allows hp
  refine (count_reaches h hp hs).then fun t hqt hkt ⟨hpt, hst, hcounts⟩ => ?_
  have hsum := countSum_freq_input hqt (by simp [hpt])
  rw [← hcounts] at hsum
  refine (build_reaches hqt hpt hst hsum).then fun u hqu hku hbuilt => ?_
  obtain ⟨tr, htr, hr⟩ := hbuilt.tree
  have hphase : u.phase = .emithdr := by rw [hbuilt.phase, hkt.op, if_pos hop]
  have hcu : u.counts = freq u.input := by rw [hbuilt.keeps.counts, hcounts, hku.input]
  exact emithdr_readyToPack hqu hphase hbuilt.stage hcu (by rw [htr, hcounts, hku.input]) hr

/-- R90 for a machine left to itself. -/
theorem compress_leads (h : Quiet s) (hp : s.phase = .count) (hs : s.stage = .entry) :
    ∃ t, Leads s t ∧ Succeeded t ∧ t.errcode = 0 ∧ t.output = compress s.input ∧ Keeps s t := by
  obtain ⟨u, hu, hqu, hku, hready⟩ := (count_readyToPack h hp hs).leads
  obtain ⟨t, ht, hsucc, hout, -, -, -, herr⟩ := packAppends u hqu.inv hqu.undisturbed hready.phase hready.stage
  refine ⟨t, hu.trans ht, hsucc, herr, ?_, h.keeps_of_leads (hu.trans ht)⟩
  have hcodes : (fun v => (Table.entry u.tab.code v).bits) = code (freq u.input) := funext hready.codes
  rw [hout, hready.output, hcodes, hku.input]
  rfl

end Sys2Proof.Machine
end

section
/-!
PROOFS. The run of UNPACK and ENDCHECK (45_decoder.md R162 to R166, R171): what is still to come of the walk, at each
position of the sequencer, is `unwalkFrom` of the bits left.
-/
namespace Sys2Proof.Machine

variable {s s0 t : State} {t0 : Tree} {res : Decoded} {bits : List Bool} {m : Nat}

/-! ### The bits of the data region -/

theorem Memory.bytes_cons (M : Memory) (a n : Nat) : M.bytes a (n + 1) = M.read a :: M.bytes (a + 1) n := by
  unfold Memory.bytes
  rw [List.range_succ_eq_map, List.map_cons, List.map_map, Nat.add_zero]
  refine congrArg _ (List.map_congr_left fun i _ => ?_)
  rw [Function.comp_apply, Nat.succ_eq_add_one, Nat.add_assoc, Nat.add_comm 1 i]

theorem byteBits_length (b : Byte) : (byteBits b).length = 8 := rfl

/-- The top bit, and the bits of the byte shifted up (R163). -/
theorem byteBits_eq (b : Byte) : byteBits b = b.msb :: (byteBits (b <<< 1)).take 7 := by
  simp [byteBits, BitVec.msb_eq_getLsbD_last]

theorem take_byteBits {b : Byte} {k : Nat} (h1 : 1 ≤ k) (h8 : k ≤ 8) :
    (byteBits b).take k = b.msb :: (byteBits (b <<< 1)).take (k - 1) := by
  obtain ⟨k, rfl⟩ := Nat.exists_eq_add_of_le' h1
  rw [byteBits_eq, List.take_succ_cons, List.take_take, Nat.min_eq_left (by omega), Nat.add_sub_cancel]

/-- The code bits from data byte `n` on, without the padding (R163, R171). -/
def bitsFrom (s : State) (n : Nat) : List Bool :=
  (bitsOf (s.outside.inp.bytes (1024 + n) (s.work.dlen.toNat - n))).take
    (8 * (s.work.dlen.toNat - n) - s.work.padreg.toNat)

theorem bitsFrom_end {n : Nat} (h : s.work.dlen.toNat ≤ n) : bitsFrom s n = [] := by
  rw [bitsFrom, Nat.sub_eq_zero_of_le h, Nat.mul_zero, Nat.zero_sub, List.take_zero]

theorem bitsToWalk_toNat {pos dlen : Word} {p : Byte} (hlt : pos.toNat < dlen.toNat) (hp : p.toNat ≤ 7) :
    (bitsToWalk pos dlen p).toNat = if pos.toNat + 1 = dlen.toNat then 8 - p.toNat else 8 := by
  have hlast : pos = dlen - 1 ↔ pos.toNat + 1 = dlen.toNat := by bv_omega
  rw [bitsToWalk]
  simp only [hlast]
  split
  · have h8 : (8 : BitVec 4).toNat = 8 := rfl
    rw [BitVec.toNat_sub, BitVec.toNat_setWidth, h8]
    omega
  · rfl

/-- The bits of data byte `n` that are walked, then those of the next bytes (R163). -/
theorem bitsFrom_succ (hlt : s.work.pos.toNat < s.work.dlen.toNat) (hp : s.work.padreg.toNat ≤ 7) :
    bitsFrom s s.work.pos.toNat =
      (byteBits (s.outside.inp.read (1024 + s.work.pos.toNat))).take
        (bitsToWalk s.work.pos s.work.dlen s.work.padreg).toNat ++ bitsFrom s (s.work.pos.toNat + 1) := by
  rw [bitsToWalk_toNat hlt hp]
  obtain ⟨d, hd⟩ := Nat.exists_eq_add_of_lt hlt
  have h1 : s.work.dlen.toNat - s.work.pos.toNat = d + 1 := by omega
  have h2 : s.work.dlen.toNat - (s.work.pos.toNat + 1) = d := by omega
  have hbits : ∀ B, bitsOf (s.outside.inp.read (1024 + s.work.pos.toNat) :: B) =
      byteBits (s.outside.inp.read (1024 + s.work.pos.toNat)) ++ bitsOf B := fun _ => List.flatMap_cons
  rw [bitsFrom, bitsFrom, h1, h2, Memory.bytes_cons, hbits, Nat.add_assoc 1024]
  split
  · next hlast =>
    have hd0 : d = 0 := by omega
    rw [hd0, List.take_append_of_le_length (by rw [byteBits_length]; omega)]
    simp
  · have e : 8 * (d + 1) - s.work.padreg.toNat = (byteBits (s.outside.inp.read (1024 + s.work.pos.toNat))).length +
        (8 * d - s.work.padreg.toNat) := by
      rw [byteBits_length]
      omega
    rw [e, List.take_length_add_append, List.take_of_length_le (l := byteBits _) (Nat.le_refl 8)]

/-! ### The walk -/

/-- What UNPACK from `s0` leaves as it is. -/
structure UnpackFrame (s0 s : State) : Prop where
  tab : s.tab = s0.tab
  inp : s.outside.inp = s0.outside.inp
  root : s.work.root = s0.work.root
  dlen : s.work.dlen = s0.work.dlen
  padreg : s.work.padreg = s0.work.padreg
  sum : s.work.sum = s0.work.sum

theorem UnpackFrame.of_eq (h : UnpackFrame s0 s) (ht : t.tab = s.tab) (hi : t.outside.inp = s.outside.inp)
    (hr : t.work.root = s.work.root) (hd : t.work.dlen = s.work.dlen) (hp : t.work.padreg = s.work.padreg)
    (hs : t.work.sum = s.work.sum) : UnpackFrame s0 t :=
  ⟨ht.trans h.tab, hi.trans h.inp, hr.trans h.root, hd.trans h.dlen, hp.trans h.padreg, hs.trans h.sum⟩

theorem UnpackFrame.bitsFrom (h : UnpackFrame s0 s) (n : Nat) : bitsFrom s n = bitsFrom s0 n := by
  rw [Machine.bitsFrom, Machine.bitsFrom, h.inp, h.dlen, h.padreg]

/-- The walk in the tree `t0` stands at `CUR` and goes on over `bits` to the result `res` (R171). -/
def WalksTo (t0 : Tree) (res : Decoded) (bits : List Bool) (s : State) : Prop :=
  ∃ sub, ReadsAs s.tab.node s.work.cur sub ∧ (s.work.cur = s.work.root → sub = t0) ∧
    unwalkFrom t0 s.work.sum.toNat sub (decide (s.work.cur = s.work.root)) s.output bits = res

/-- UNPACK and ENDCHECK from `s0` have ended as `res` says. -/
def Unpacked (s0 : State) (res : Decoded) (s : State) : Prop := s.tab = s0.tab ∧ EndsAs s res

/-- UNPACK or ENDCHECK, with `m` more steps after this one at most. -/
def Unpacking (s0 : State) (t0 : Tree) (res : Decoded) (m : Nat) (s : State) : Prop :=
  UnpackFrame s0 s ∧ ReadsAs s.tab.node s.work.root t0 ∧
    (s.phase = .unpack ∧ s.stage = .entry ∧ m = 9 * s.work.dlen.toNat + 1 ∧
       unwalk t0 s.work.sum.toNat (bitsFrom s0 0) = res ∨
     s.phase = .unpack ∧ s.stage = .fetch ∧ m = 9 * (s.work.dlen.toNat - s.work.pos.toNat) ∧
       WalksTo t0 res (bitsFrom s0 s.work.pos.toNat) s ∨
     s.phase = .unpack ∧ s.stage = .walk ∧
       m = 9 * (s.work.dlen.toNat - (s.work.pos.toNat + 1)) + s.work.bcnt.toNat ∧
       WalksTo t0 res ((byteBits s.work.byte).take s.work.bcnt.toNat ++ bitsFrom s0 (s.work.pos.toNat + 1)) s ∨
     s.phase = .endcheck ∧ s.stage = .entry ∧ m = 0 ∧ WalksTo t0 res [] s)

theorem State.output_length (s : State) : s.output.length = s.outCnt.toNat := Memory.bytes_length _ _ _

/-- A byte goes to the end of the output while `OUT_CNT` is below a 40-bit bound. -/
theorem State.outByte_output_of_lt {n : BitVec 40} (h : s.outside.out.wf) (hc : s.outCnt.toNat < n.toNat) (v : Byte) :
    (s.outByte v).output = s.output ++ [v] := by
  unfold State.output
  rw [State.outByte_outCnt, toNat_succ hc n.isLt, State.outByte_outside, Memory.bytes_write_end h]

/-- ENDCHECK (R166) ends as the walk does when no bit is left. -/
theorem endCheck_endsAs (herr : s.err = false) (h : WalksTo t0 res [] s) : EndsAs (endCheck s) res := by
  obtain ⟨sub, -, -, hres⟩ := h
  rw [unwalkFrom, State.output_length] at hres
  unfold endCheck
  by_cases hc : s.work.cur = s.work.root
  · rw [if_neg (by simpa using hc)]
    rw [decide_eq_true hc, if_neg (by simp)] at hres
    by_cases hs : s.outCnt = s.work.sum
    · rw [if_neg (by rw [hs]; simp)] at hres
      rw [if_neg (by simpa using hs), ← hres]
      exact ⟨⟨rfl, rfl, herr⟩, rfl⟩
    · rw [if_pos fun e => hs (BitVec.eq_of_toNat_eq e)] at hres
      rw [if_pos hs, ← hres]
      exact ⟨raise_failedWith _ _, rfl⟩
  · rw [decide_eq_false hc, if_pos rfl] at hres
    rw [if_pos hc, ← hres]
    exact ⟨raise_failedWith _ _, rfl⟩

/-- The start of UNPACK (R162). -/
theorem unpackStart_unpacking (hf : UnpackFrame s0 s) (hr : ReadsAs s.tab.node s.work.root t0) (hp : s.phase = .unpack)
    (h0 : s.outCnt = 0) (hres : unwalk t0 s.work.sum.toNat (bitsFrom s0 0) = res) :
    ∃ m < 9 * s.work.dlen.toNat + 1, Unpacking s0 t0 res m (unpackStart s) := by
  have hout : s.output = [] := by
    rw [State.output, h0]
    rfl
  have hwalk : unwalkFrom t0 s.work.sum.toNat t0 (decide (s.work.root = s.work.root)) s.output (bitsFrom s0 0) = res := by
    rw [hout, decide_eq_true rfl]
    exact hres
  unfold unpackStart
  split
  · next hz =>
    have hz' : bitsFrom s0 0 = [] := bitsFrom_end (by rw [← hf.dlen, hz]; decide)
    rw [hz'] at hwalk
    exact ⟨0, Nat.succ_pos _, hf.of_eq rfl rfl rfl rfl rfl rfl, hr, .inr (.inr (.inr ⟨rfl, rfl, rfl, t0, hr, fun _ => rfl, hwalk⟩))⟩
  · exact ⟨_, Nat.lt_succ_self _, hf.of_eq rfl rfl rfl rfl rfl rfl, hr, .inr (.inl ⟨hp, rfl, rfl, t0, hr, fun _ => rfl, hwalk⟩)⟩

/-- The end of a data byte (R163). -/
theorem unpackNextByte_unpacking (hf : UnpackFrame s0 s) (hr : ReadsAs s.tab.node s.work.root t0)
    (hp : s.phase = .unpack) (hlt : s.work.pos.toNat < s.work.dlen.toNat)
    (hw : WalksTo t0 res (bitsFrom s0 (s.work.pos.toNat + 1)) s) :
    ∃ m ≤ 9 * (s.work.dlen.toNat - (s.work.pos.toNat + 1)), Unpacking s0 t0 res m (unpackNextByte s) := by
  have hsucc : (s.work.pos + 1).toNat = s.work.pos.toNat + 1 := toNat_succ hlt s.work.dlen.isLt
  unfold unpackNextByte
  simp only
  split
  · rw [← hsucc] at hw ⊢
    exact ⟨_, Nat.le_refl _, hf.of_eq rfl rfl rfl rfl rfl rfl, hr, .inr (.inl ⟨hp, rfl, rfl, hw⟩)⟩
  · next hend =>
    rw [bitsFrom_end (by rw [← hf.dlen]; omega)] at hw
    exact ⟨0, Nat.zero_le _, hf.of_eq rfl rfl rfl rfl rfl rfl, hr, .inr (.inr (.inr ⟨rfl, rfl, rfl, hw⟩))⟩

/-- The shift after a WALK (R163). -/
theorem unpackShift_unpacking (hf : UnpackFrame s0 s) (hr : ReadsAs s.tab.node s.work.root t0) (hp : s.phase = .unpack)
    (hlt : s.work.pos.toNat < s.work.dlen.toNat) (h1 : 1 ≤ s.work.bcnt.toNat)
    (hw : WalksTo t0 res ((byteBits (s.work.byte <<< 1)).take (s.work.bcnt.toNat - 1) ++
      bitsFrom s0 (s.work.pos.toNat + 1)) s) :
    ∃ m < 9 * (s.work.dlen.toNat - (s.work.pos.toNat + 1)) + s.work.bcnt.toNat,
      Unpacking s0 t0 res m (unpackShift s) := by
  have hpred : (s.work.bcnt - 1).toNat = s.work.bcnt.toNat - 1 := by bv_omega
  unfold unpackShift
  simp only
  split
  · next hone =>
    have hz : s.work.bcnt.toNat - 1 = 0 := by rw [hone]; rfl
    rw [hz, List.take_zero, List.nil_append] at hw
    obtain ⟨m, hm, hu⟩ := unpackNextByte_unpacking
      (s := { s with work.byte := s.work.byte <<< 1, work.bcnt := s.work.bcnt - 1 })
      (hf.of_eq rfl rfl rfl rfl rfl rfl) hr hp hlt hw
    exact ⟨m, Nat.lt_of_le_of_lt hm (Nat.lt_add_of_pos_right h1), hu⟩
  · rw [← hpred] at hw
    refine ⟨_, ?_, hf.of_eq rfl rfl rfl rfl rfl rfl, hr, .inr (.inr (.inl ⟨hp, rfl, rfl, hw⟩))⟩
    show 9 * (s.work.dlen.toNat - (s.work.pos.toNat + 1)) + (s.work.bcnt - 1).toNat < _
    omega

theorem readsAs_childOf {a : Arena} {c : BitVec 9 × BitVec 9} {l r : Tree} (hl : ReadsAs a c.1 l) (hr : ReadsAs a c.2 r)
    (x : Bool) : ReadsAs a (childOf c x) (if x then r else l) := by
  cases x
  · exact hl
  · exact hr

theorem readsAs_leaf {a : Arena} {n : BitVec 9} {v : Byte} (h : ReadsAs a n (.leaf v)) :
    n.toNat < 256 ∧ n.setWidth 8 = v := by
  have hn : n = v.setWidth 9 := h
  have hv := v.isLt
  refine ⟨?_, by bv_omega⟩
  rw [hn, BitVec.toNat_setWidth]
  omega

theorem readsAs_node {a : Arena} {n : BitVec 9} {l r : Tree} (h : ReadsAs a n (.node l r)) : ¬n.toNat < 256 := by
  obtain ⟨c, hc, -⟩ := h
  exact Nat.not_lt.2 (Arena.children?_eq_some.1 hc).1

/-- WALK has come to a leaf (R164). -/
theorem leaf_unpacking {n : BitVec 9} (h : Quiet s) (hf : UnpackFrame s0 s) (hr : ReadsAs s.tab.node s.work.root t0)
    (hp : s.phase = .unpack) (hlt : s.work.pos.toNat < s.work.dlen.toNat) (h1 : 1 ≤ s.work.bcnt.toNat)
    (hbound : s.outCnt.toNat ≤ s.work.sum.toNat)
    (hres : (if s.output.length = s.work.sum.toNat then .err .excess s.output
      else unwalkFrom t0 s.work.sum.toNat t0 true (s.output ++ [n.setWidth 8]) ((byteBits (s.work.byte <<< 1)).take
        (s.work.bcnt.toNat - 1) ++ bitsFrom s0 (s.work.pos.toNat + 1))) = res)
    (he : leaf n s = .next t) :
    Unpacked s0 res t ∨ ∃ m < 9 * (s.work.dlen.toNat - (s.work.pos.toNat + 1)) + s.work.bcnt.toNat,
      Unpacking s0 t0 res m t := by
  rw [State.output_length] at hres
  rw [leaf] at he
  split at he
  · next hfull =>
    rw [if_pos (congrArg BitVec.toNat hfull)] at hres
    cases he
    exact .inl ⟨hf.tab, hres ▸ ⟨raise_failedWith _ _, rfl⟩⟩
  · next hroom =>
    have hne : s.outCnt.toNat ≠ s.work.sum.toNat := fun e => hroom (BitVec.eq_of_toNat_eq e)
    rw [if_neg hne, ← State.outByte_output_of_lt h.inv.out_wf (Nat.lt_of_le_of_ne hbound hne)] at hres
    rw [h.whenAccepted_eq] at he
    cases he
    refine .inr (unpackShift_unpacking (s := { s.outByte (n.setWidth 8) with work.cur := s.work.root })
      (hf.of_eq rfl rfl rfl rfl rfl rfl) hr hp hlt h1 ⟨t0, hr, fun _ => rfl, ?_⟩)
    rw [decide_eq_true (by rfl)]
    exact hres

/-- WALK of the top bit (R163 to R165). -/
theorem walkBit_unpacking (h : Quiet s) (hf : UnpackFrame s0 s) (hr : ReadsAs s.tab.node s.work.root t0)
    (hp : s.phase = .unpack) (hs : s.stage = .walk)
    (hw : WalksTo t0 res ((byteBits s.work.byte).take s.work.bcnt.toNat ++ bitsFrom s0 (s.work.pos.toNat + 1)) s)
    (he : walkBit s = .next t) :
    Unpacked s0 res t ∨ ∃ m < 9 * (s.work.dlen.toNat - (s.work.pos.toNat + 1)) + s.work.bcnt.toNat,
      Unpacking s0 t0 res m t := by
  have hpos := h.inv.position
  simp only [PositionOk, hp, hs] at hpos
  obtain ⟨htree, -, hwalk, hlt, h1, h8⟩ := hpos
  have hlow := hwalk.cur_low
  have hhigh := hwalk.cur_high
  obtain ⟨sub, hsub, -, hres⟩ := hw
  rw [take_byteBits h1 h8, List.cons_append] at hres
  cases sub with
  | leaf v => exact absurd (readsAs_leaf hsub).1 (Nat.not_lt.2 hlow)
  | node l r =>
    obtain ⟨c, hc, hl, hr'⟩ := hsub
    have hbelow := htree.children _ c (by omega) hc
    have hchild := readsAs_childOf hl hr' s.work.byte.msb
    unfold walkBit at he
    rw [hc] at he
    simp only at he
    set n := childOf c s.work.byte.msb with hn
    cases hx : (if s.work.byte.msb then r else l) with
    | leaf v =>
      rw [hx] at hchild
      obtain ⟨hn256, rfl⟩ := readsAs_leaf hchild
      rw [unwalkFrom_leaf hx] at hres
      rw [if_pos hn256] at he
      exact leaf_unpacking h hf hr hp hlt h1 hwalk.bounded hres he
    | node l' r' =>
      rw [hx] at hchild
      rw [unwalkFrom_node hx] at hres
      rw [if_neg (readsAs_node hchild)] at he
      cases he
      have hne : n ≠ s.work.root := by
        have hnlt : n.toNat < s.work.cur.toNat := by
          rw [hn, childOf]
          split
          · exact hbelow.2
          · exact hbelow.1
        rw [htree.root]
        bv_omega
      refine .inr (unpackShift_unpacking (s := { s with work.cur := n }) (hf.of_eq rfl rfl rfl rfl rfl rfl) hr hp hlt h1
        ⟨_, hchild, fun e => absurd e hne, ?_⟩)
      rw [decide_eq_false hne]
      exact hres

theorem exec_unpacking (h : Quiet s) (hI : Unpacking s0 t0 res m s) (he : exec s.phase.instr s = .next t) :
    Unpacked s0 res t ∨ ∃ m' < m, Unpacking s0 t0 res m' t := by
  have hpos := h.inv.position
  obtain ⟨hf, hr, ⟨hp, hs, rfl, hres⟩ | ⟨hp, hs, rfl, hw⟩ | ⟨hp, hs, rfl, hw⟩ | ⟨hp, hs, rfl, hw⟩⟩ := hI
  all_goals
    simp only [PositionOk, hp, hs] at hpos
    rw [hp] at he
  · have he' : unpackStart s = t := by
      simpa only [Phase.instr, exec, execUnpack, hs, Host.Outcome.next.injEq] using he
    subst he'
    exact .inr (unpackStart_unpacking hf hr hp hpos.1 hres)
  · obtain ⟨-, htrailer, -, hlt⟩ := hpos
    have hop : s.op = .decomp := h.allows hp
    have hlen : 1025 ≤ s.inLen.toNat := h.inv.len_low (by simp [hp]) hop
    have hdlen := dataLength_toNat hlen
    have hrange := bitsToWalk_range (pos := s.work.pos) (dlen := s.work.dlen) htrailer.pad
    rw [← htrailer.dlen] at hdlen
    have he' : unpackFetch s = .next t := by simpa only [Phase.instr, exec, execUnpack, hs] using he
    have haddr : Config.hdrBytes + s.work.pos.toNat < s.inLen.toNat := by
      simp only [Config.hdrBytes]
      omega
    rw [unpackFetch, h.inByte_eq _ haddr] at he'
    simp only at he'
    rw [if_neg fun hz => by rw [hz] at hrange; exact absurd hrange.1 (by decide)] at he'
    cases he'
    rw [← hf.bitsFrom, bitsFrom_succ hlt htrailer.pad, hf.bitsFrom] at hw
    refine .inr ⟨_, ?_, hf.of_eq rfl rfl rfl rfl rfl rfl, hr, .inr (.inr (.inl ⟨hp, rfl, rfl, hw⟩))⟩
    show 9 * (s.work.dlen.toNat - (s.work.pos.toNat + 1)) + (bitsToWalk s.work.pos s.work.dlen s.work.padreg).toNat < _
    omega
  · exact walkBit_unpacking h hf hr hp hs hw (by simpa only [Phase.instr, exec, execUnpack, hs] using he)
  · have he' : endCheck s = t := by
      simpa only [Phase.instr, exec, execEndcheck, hs, Host.Outcome.next.injEq] using he
    subst he'
    have htab : (endCheck s).tab = s.tab := by
      unfold endCheck
      split
      · rfl
      split <;> rfl
    exact .inl ⟨htab.trans hf.tab, endCheck_endsAs (h.inv.busy_clear (by simp [hp])).2 hw⟩

/-- R171: UNPACK and ENDCHECK end as the walk of the tree in the arena says, within nine steps for each data byte. -/
theorem unpack_reaches (h : Quiet s) (hp : s.phase = .unpack) (hs : s.stage = .entry)
    (hr : ReadsAs s.tab.node s.work.root t0) :
    ReachesIn (9 * s.work.dlen.toNat + 2) s (Unpacked s (unwalk t0 s.work.sum.toNat (bitsFrom s 0))) :=
  h.loop (I := Unpacking s t0 _) (fun _ _ _ hq hI he => exec_unpacking hq hI he)
    ⟨⟨rfl, rfl, rfl, rfl, rfl, rfl⟩, hr, .inl ⟨hp, hs, rfl, rfl⟩⟩

end Sys2Proof.Machine
end

section
/-!
PROOFS. A whole DECOMPRESS (40_commands.md R87, R89, R91): LOADHDR reads the header's table, BUILD its tree, RDTRAILER the
trailer, UNPACK and ENDCHECK walk the data region.
-/
namespace Sys2Proof.Machine

variable {s t : State} {t0 : Tree}

/-! ### The parts of the stream -/

theorem Memory.take_bytes (m : Memory) (a : Nat) {k n : Nat} (h : k ≤ n) : (m.bytes a n).take k = m.bytes a k := by
  rw [Memory.bytes, ← List.map_take, List.take_range, Nat.min_eq_left h, Memory.bytes]

theorem Memory.bytes_add (m : Memory) (a k n : Nat) : m.bytes a (k + n) = m.bytes a k ++ m.bytes (a + k) n := by
  simp [Memory.bytes, List.range_add, Nat.add_assoc]

theorem Memory.drop_bytes (m : Memory) (a : Nat) {k n : Nat} (h : k ≤ n) :
    (m.bytes a n).drop k = m.bytes (a + k) (n - k) := by
  obtain ⟨d, rfl⟩ := Nat.exists_eq_add_of_le h
  rw [Memory.bytes_add, List.drop_left' (Memory.bytes_length _ _ _), Nat.add_sub_cancel_left]

/-- The number of data bytes (R161). -/
abbrev dataBytes (s : State) : Nat := s.inLen.toNat - Config.minStream

/-- The trailer byte, the last one of `IN` (R161). -/
abbrev trailer (s : State) : Byte := s.outside.inp.read (s.inLen.toNat - 1)

/-- What the trailer and the data region decode to with the tree `t0` of `n` bytes (R161, R171). -/
def decodeBody (s : State) (t0 : Tree) (n : Nat) : Decoded :=
  if 7 < (trailer s).toNat ∨ (dataBytes s = 0 ∧ (trailer s).toNat ≠ 0) then .err .pad []
  else unwalk t0 n ((bitsOf (s.outside.inp.bytes Config.hdrBytes (dataBytes s))).take
    (8 * dataBytes s - (trailer s).toNat))

theorem Keeps.decodeBody (h : Keeps s t) (t0 : Tree) (n : Nat) : decodeBody t t0 n = decodeBody s t0 n := by
  simp only [Machine.decodeBody, dataBytes, trailer, h.inLen, h.inp]

theorem Keeps.headerCounts (h : Keeps s t) : headerCounts t = headerCounts s := by
  rw [Machine.headerCounts, Machine.headerCounts, h.inp]

/-- `decompress` of a stream whose length is in bounds (R91), over the bytes of `IN`. -/
theorem decompress_input (hlo : Config.minStream ≤ s.inLen.toNat) (hhi : s.inLen.toNat ≤ Config.maxLen) :
    decompress s.input = if Config.maxLen < countSum (headerCounts s) then .err .sum []
      else decodeBody s (tree (headerCounts s)) (countSum (headerCounts s)) := by
  have hmin : Config.minStream = Config.hdrBytes + 1 := rfl
  have hhead : s.input.take Config.hdrBytes = s.outside.inp.bytes 0 Config.hdrBytes :=
    Memory.take_bytes _ _ (by omega)
  have hdata : (s.input.drop Config.hdrBytes).take (dataBytes s) = s.outside.inp.bytes Config.hdrBytes (dataBytes s) := by
    have hle : dataBytes s ≤ s.inLen.toNat - Config.hdrBytes := Nat.sub_le_sub_left (Nat.le_succ _) _
    rw [State.input, Memory.drop_bytes _ _ (by omega), Nat.zero_add, Memory.take_bytes _ _ hle]
  have hlast : s.input.getD (s.inLen.toNat - 1) 0 = trailer s := by
    rw [State.input, Memory.getD_bytes _ _ (by omega), Nat.zero_add]
  rw [decompress]
  simp only [State.input_length]
  rw [if_neg (Nat.not_lt.2 hhi), if_neg (Nat.not_lt.2 hlo), hhead, hlast, hdata]
  rfl

/-- Too long and too short a stream (R83, R91). -/
theorem decompress_input_toolarge (h : Config.maxLen < s.inLen.toNat) : decompress s.input = .err .toolarge [] := by
  rw [decompress]
  simp only [State.input_length]
  rw [if_pos h]

theorem decompress_input_short (h : s.inLen.toNat < Config.minStream) : decompress s.input = .err .short [] := by
  have hmax : Config.minStream ≤ Config.maxLen := by decide
  rw [decompress]
  simp only [State.input_length]
  rw [if_neg (by omega), if_pos h]

/-! ### The run -/

theorem output_nil (h : s.outCnt = 0) : s.output = [] := by
  rw [State.output, h]
  rfl

/-- RDTRAILER's read and its two checks (R161). -/
theorem readTrailer_eq (h : Quiet s) (hlo : Config.minStream ≤ s.inLen.toNat) :
    readTrailer s = .next (
      let s1 := { s with work.padreg := trailer s, work.dlen := dataLength s.inLen }
      if 7 < (trailer s).toNat ∨ (dataBytes s = 0 ∧ (trailer s).toNat ≠ 0) then s1.raise .pad else s1.goto .unpack) := by
  have hlast : (s.inLen - 1).toNat = s.inLen.toNat - 1 := by
    rw [BitVec.toNat_sub_of_le (show (1 : Word).toNat ≤ s.inLen.toNat from Nat.le_trans (by decide) hlo)]
    rfl
  have haddr : (s.inLen - 1).toNat < s.inLen.toNat := by
    rw [hlast]
    exact Nat.sub_one_lt_of_lt hlo
  have hz : dataLength s.inLen = 0 ↔ dataBytes s = 0 := by
    rw [BitVec.toNat_eq, dataLength_toNat hlo]
    rfl
  have hp : trailer s ≠ 0 ↔ (trailer s).toNat ≠ 0 := by
    rw [ne_eq, BitVec.toNat_eq]
    rfl
  rw [readTrailer, h.inByte_eq _ haddr, hlast]
  simp only [hz, hp]
  by_cases h7 : 7 < (trailer s).toNat
  · rw [if_pos h7, if_pos (.inl h7)]
  · rw [if_neg h7, ← apply_ite Host.Outcome.next]
    simp only [h7, false_or]

theorem exec_rdtrailer (hp : s.phase = .rdtrailer) (hs : s.stage = .entry) :
    exec s.phase.instr s = readTrailer s := by
  rw [hp]
  simp only [Phase.instr, exec, execRdtrailer, hs]

/-- From RDTRAILER on, with the tree of the table in the arena (R161, R171). -/
theorem rdtrailer_ends (h : Quiet s) (hp : s.phase = .rdtrailer) (hs : s.stage = .entry)
    (hr : ReadsAs s.tab.node s.work.root t0) :
    ReachesIn (1 + (9 * dataBytes s + 2)) s fun t => EndsAs t (decodeBody s t0 s.work.sum.toNat) := by
  have hop : s.op = .decomp := h.allows hp
  have hlo : Config.minStream ≤ s.inLen.toNat := h.inv.len_low (by simp [hp]) hop
  have hpos := h.inv.position
  simp only [PositionOk, hp, hs] at hpos
  have he := (exec_rdtrailer hp hs).trans (readTrailer_eq h hlo)
  unfold decodeBody
  split
  · next hbad =>
    simp only [if_pos hbad] at he
    refine (h.reaches_step fun t ht => ?_).mono (Nat.le_add_right _ _)
    cases he.symm.trans ht
    exact ⟨raise_failedWith _ _, output_nil hpos.1⟩
  · next hok =>
    simp only [if_neg hok] at he
    set u : State := { s with work.padreg := trailer s, work.dlen := dataLength s.inLen }.goto .unpack
    refine (h.reaches_step (Q := (· = u)) fun t ht => Host.Outcome.next.inj (ht.symm.trans he)).then fun t hqt _ htu => ?_
    subst htu
    have hdlen : u.work.dlen.toNat = dataBytes s := dataLength_toNat hlo
    rw [← hdlen]
    exact (unpack_reaches hqt rfl rfl hr).imp fun v _ _ hv => hv.2

/-- Steps of a DECOMPRESS of `n` bytes at most (R89). -/
def decompressSteps (n : Nat) : Nat := 1024 + (131072 + (1 + (9 * (n - Config.minStream) + 2)))

/-- R91 within R89's bound, from LOADHDR on. -/
theorem loadhdr_ends (h : Quiet s) (hp : s.phase = .loadhdr) (hs : s.stage = .entry) :
    ReachesIn (decompressSteps s.inLen.toNat) s fun t => EndsAs t (decompress s.input) := by
  have hop : s.op = .decomp := h.allows hp
  have hres := decompress_input (h.inv.len_low (by simp [hp]) hop) (h.inv.len_high (by simp [hp]))
  refine (loadhdr_reaches h hp hs).then fun t hqt hkt hloaded => ?_
  obtain ⟨hcounts, hend⟩ := hloaded
  rw [hkt.headerCounts] at hcounts hend
  obtain ⟨hpt, hst, hsum, hle⟩ | ⟨hfail, h0, hgt⟩ := hend
  · rw [if_neg (Nat.not_lt.2 hle)] at hres
    refine (build_reaches hqt hpt hst (hcounts ▸ hle)).then fun u hqu hku hbuilt => ?_
    obtain ⟨tr, htr, hr⟩ := hbuilt.tree
    have hphase : u.phase = .rdtrailer := by rw [hbuilt.phase, hkt.op, hop, if_neg (by simp)]
    have hlen : dataBytes u = dataBytes s := by rw [dataBytes, dataBytes, hku.inLen, hkt.inLen]
    rw [hres, ← hsum, ← hcounts, ← htr, ← hbuilt.keeps.sum, ← hkt.decodeBody, ← hku.decodeBody]
    have hends := rdtrailer_ends hqu hphase hbuilt.stage hr
    rwa [hlen] at hends
  · rw [if_pos hgt] at hres
    rw [hres]
    exact (ReachesIn.here hqt ⟨hfail, output_nil h0⟩).mono (Nat.zero_le _)

end Sys2Proof.Machine
end

section
/-!
PROOFS. The whole commands (40_commands.md R89 to R91): how long an accepted operation runs, and what the two commands end
with under a host that watches.
-/
namespace Sys2Proof.Machine

variable {s s1 t : State} {Q : State → Prop}

theorem ReachesIn.run {n : Nat} (h : ReachesIn n s Q) : ∃ k t, k ≤ n ∧ runFor k s = .next t ∧ Q t := by
  obtain ⟨k, hk, t, ht, -, -, hQ⟩ := h
  exact ⟨k, t, hk, ht, hQ⟩

theorem EndsAs.ended {res : Decoded} (h : EndsAs t res) : Succeeded t ∨ ∃ e, FailedWith t e := by
  cases res with
  | ok _ => exact .inl h.1
  | err e _ => exact .inr ⟨e, h.1⟩

/-- Settles O19: the bounds of the phases of each operation add up to less than R89's. -/
theorem everyOperationEnds : Obligations.EveryOperationEnds := by
  refine fun s hinv hund hs => ⟨fun hp => ?_, fun hp => ?_⟩
  · have hrun := (count_readyToPack ⟨hinv, hund⟩ hp hs).then fun t hqt hkt hready =>
      hkt.inLen ▸ pack_ends hqt hready.phase hready.stage
    exact (hrun.mono (by omega)).run
  · have hrun := (loadhdr_ends ⟨hinv, hund⟩ hp hs).imp fun _ _ _ => EndsAs.ended
    refine (hrun.mono ?_).run
    rw [decompressSteps]
    omega

theorem EndsAs.idle {res : Decoded} (h : EndsAs t res) : t.phase = .idle := by
  cases res <;> exact h.1.1

theorem Watched.of_outside (h : Watched s) (ho : t.outside = s.outside) : Watched t := by
  constructor <;> rw [ho]
  exacts [h.script, h.inAnswers, h.outAccepts, h.rst]

theorem Quiet.of_watched (h : Inv s) (hw : Watched s) : Quiet s.alone :=
  ⟨h.outsideOnly h.inp_wf h.out_wf nofun, hw.alone⟩

/-- A command whose first step is to `s1`, from where the machine left to itself comes to `t` in IDLE, on the same input. -/
theorem Watched.command_ends (hstep : step s = .next s1) (hw : Watched s1) (hl : Leads s1.alone t) (hi : t.phase = .idle) :
    ∃ reads, Leads s (t.withHost [] reads false) := by
  obtain ⟨reads, hleads⟩ := leads_watched hw.script hw.rst hl hi
  exact ⟨reads, (Leads.step hstep).trans hleads⟩

/-- Settles O53: the command is taken, and from COUNT on `compress_leads` applies to the machine left to itself. -/
theorem compressCompresses : Obligations.CompressCompresses := by
  intro s rest hinv hp hscript hw hlen
  have hstep : step s = .next (((s.withScript rest).clearFor .comp).goto .count) := by
    rw [step_of_wrCmd hscript]
    exact (execCompress_of_idle (s := s.withScript rest) hp hw.rst).trans (if_neg (Nat.not_lt.2 hlen))
  have hw1 := hw.of_outside (t := ((s.withScript rest).clearFor .comp).goto .count) rfl
  obtain ⟨t, ht, hsucc, herr, hout, hkeeps⟩ :=
    compress_leads (.of_watched (stepKeepsInvariant _ _ hinv hstep) hw1) rfl rfl
  obtain ⟨reads, hleads⟩ := hw1.command_ends hstep ht hsucc.1
  exact ⟨_, hleads, rfl, hsucc, herr, hout, hkeeps.op, hkeeps.inLen, hkeeps.inp⟩

/-- The end of R91: the run from `s`, the host's moves done, has ended as `decompress` of its input says. -/
def DecompressEnds (s : State) : Prop :=
  ∃ t, Leads s t ∧ t.outside.script = [] ∧ EndsAs t (decompress s.input) ∧ t.op = .decomp ∧ t.inLen = s.inLen ∧
    t.outside.inp = s.outside.inp

theorem decompress_ends (hstep : step s = .next s1) (hw : Watched s1) (hs1 : Keeps { s with op := .decomp } s1)
    (hl : Leads s1.alone t) (hk : Keeps s1.alone t) (hends : EndsAs t (decompress s.input)) : DecompressEnds s := by
  obtain ⟨reads, hleads⟩ := hw.command_ends hstep hl hends.idle
  exact ⟨_, hleads, rfl, hends, hk.op.trans hs1.op, hk.inLen.trans hs1.inLen, hk.inp.trans hs1.inp⟩

/-- A DECOMPRESS refused at acceptance has ended there (R83). -/
theorem decompress_refused {rest : List HostMove} {e : ErrCode}
    (hstep : step s = .next (((s.withScript rest).clearFor .decomp).raise e)) (hw : Watched (s.withScript rest))
    (hres : decompress s.input = .err e []) : DecompressEnds s := by
  set s1 := ((s.withScript rest).clearFor .decomp).raise e
  refine decompress_ends hstep (hw.of_outside rfl) ⟨rfl, rfl, rfl⟩ (Leads.refl s1.alone) (.refl _) ?_
  rw [hres]
  exact ⟨raise_failedWith ((s.withScript rest).clearFor .decomp).alone e, rfl⟩

/-- Settles O54: an `IN_LEN` out of bounds is refused at acceptance, and otherwise `loadhdr_ends` applies to the machine
left to itself. -/
theorem decompressDecompresses : Obligations.DecompressDecompresses := by
  intro s rest hinv hp hscript hw
  have hexec := (step_of_wrCmd hscript).trans (execDecompress_of_idle (s := s.withScript rest) hp hw.rst)
  split at hexec
  · next hlong => exact decompress_refused hexec hw (decompress_input_toolarge hlong)
  · split at hexec
    · next hshort => exact decompress_refused hexec hw (decompress_input_short hshort)
    · have hw1 := hw.of_outside (t := ((s.withScript rest).clearFor .decomp).goto .loadhdr) rfl
      obtain ⟨t, ht, -, hkeeps, hends⟩ :=
        (loadhdr_ends (.of_watched (stepKeepsInvariant _ _ hinv hexec) hw1) rfl rfl).leads
      exact decompress_ends hexec hw1 ⟨rfl, rfl, rfl⟩ ht hkeeps hends

end Sys2Proof.Machine
end

section
/-!
PROOFS. The byte order of a count, in numbers (20_memory.md R43; 30_encoding.md R73; 41_frequency_table.md R104, R106):
byte `k` is the digit at base 256, and the header and the table determine each other.
-/
namespace Sys2Proof.Machine

/-- Byte `k` of a count is its digit `k` at base 256. -/
theorem countByte_eq (c : Word) (k : Fin 4) : countByte c k = BitVec.ofNat 8 (c.toNat / 256 ^ k.val) := by
  refine BitVec.eq_of_toNat_eq ?_
  rw [countByte, BitVec.toNat_setWidth, BitVec.toNat_ushiftRight, Nat.shiftRight_eq_div_pow, pow_mul, BitVec.toNat_ofNat]
  rfl

/-- The number whose digits at base 256 are the four bytes, least significant first. -/
def countNumber (b0 b1 b2 b3 : Byte) : Nat := b0.toNat + 2 ^ 8 * b1.toNat + 2 ^ 16 * b2.toNat + 2 ^ 24 * b3.toNat

theorem countNumber_lt (b0 b1 b2 b3 : Byte) : countNumber b0 b1 b2 b3 < 2 ^ 32 := by
  have h0 := b0.isLt
  have h1 := b1.isLt
  have h2 := b2.isLt
  have h3 := b3.isLt
  unfold countNumber
  omega

theorem ofNat_countNumber_toNat (b0 b1 b2 b3 : Byte) :
    (BitVec.ofNat 32 (countNumber b0 b1 b2 b3)).toNat = countNumber b0 b1 b2 b3 := by
  rw [BitVec.toNat_ofNat, Nat.mod_eq_of_lt (countNumber_lt b0 b1 b2 b3)]

theorem countBytes_countNumber (b0 b1 b2 b3 : Byte) :
    countBytes (BitVec.ofNat 32 (countNumber b0 b1 b2 b3)) = [b0, b1, b2, b3] := by
  have digit : ∀ (k : Fin 4) (b : Byte), countNumber b0 b1 b2 b3 / 256 ^ k.val % 2 ^ 8 = b.toNat →
      countByte (BitVec.ofNat 32 (countNumber b0 b1 b2 b3)) k = b := fun k b hb => by
    refine BitVec.eq_of_toNat_eq ?_
    rw [countByte_eq, ofNat_countNumber_toNat, BitVec.toNat_ofNat, hb]
  have h0 := b0.isLt
  have h1 := b1.isLt
  have h2 := b2.isLt
  have h3 := b3.isLt
  rw [countBytes, digit 0 b0, digit 1 b1, digit 2 b2, digit 3 b3] <;> unfold countNumber
  · show _ / 256 ^ 3 % 2 ^ 8 = _
    omega
  · show _ / 256 ^ 2 % 2 ^ 8 = _
    omega
  · show _ / 256 ^ 1 % 2 ^ 8 = _
    omega
  · show _ / 256 ^ 0 % 2 ^ 8 = _
    omega

/-- R73: the count the four bytes make up, as a number. -/
theorem assembleCount_eq_ofNat (b0 b1 b2 b3 : Byte) :
    assembleCount b0 b1 b2 b3 = BitVec.ofNat 32 (countNumber b0 b1 b2 b3) := by
  have hc := assembleCount_countBytes (BitVec.ofNat 32 (countNumber b0 b1 b2 b3))
  have hb := countBytes_countNumber b0 b1 b2 b3
  simp only [countBytes, List.cons.injEq, and_true] at hb
  obtain ⟨e0, e1, e2, e3⟩ := hb
  rwa [e0, e1, e2, e3] at hc

theorem countBytes_assembleCount (b0 b1 b2 b3 : Byte) : countBytes (assembleCount b0 b1 b2 b3) = [b0, b1, b2, b3] := by
  rw [assembleCount_eq_ofNat, countBytes_countNumber]

theorem countByte_unhdr (H : List Byte) (v : Byte) (k : Fin 4) :
    countByte (unhdr H v) k = H.getD (4 * v.toNat + k.val) 0 := by
  have hk := countBytes_getElem? (unhdr H v) k
  simp only [unhdr] at hk ⊢
  rw [countBytes_assembleCount] at hk
  match k with
  | 0 | 1 | 2 | 3 => exact (Option.some.inj hk).symm

theorem hdr_unhdr {H : List Byte} (h : H.length = 1024) : hdr (unhdr H) = H := by
  refine List.ext_getElem? fun i => ?_
  by_cases hi : i < 1024
  · have hv : (BitVec.ofNat 8 (i / 4)).toNat = i / 4 := by
      rw [BitVec.toNat_ofNat]
      omega
    have hsplit : i = 4 * (BitVec.ofNat 8 (i / 4)).toNat + (Fin.ofNat 4 i).val := by
      rw [hv, Fin.val_ofNat]
      omega
    rw [hsplit, hdr_getElem?, countByte_unhdr, ← hsplit, List.getD_eq_getElem _ _ (h ▸ hi), List.getElem?_eq_getElem]
  · rw [List.getElem?_eq_none (by rw [hdr_length]; omega), List.getElem?_eq_none (by omega)]

/-- Settles O31: `unhdr_hdr` one way, `hdr_unhdr` the other, and the count of four bytes as a number. -/
theorem headerRoundTrip : Obligations.HeaderRoundTrip := by
  refine ⟨fun F => ⟨hdr_length F, unhdr_hdr F⟩, fun H hlen => ⟨hdr_unhdr hlen, fun v => ?_⟩⟩
  rw [unhdr, assembleCount_eq_ofNat, ofNat_countNumber_toNat]
  rfl

end Sys2Proof.Machine
end

section
/-!
PROOFS. COUNT, EMITHDR and LOADHDR, one step as an exact next state (41_frequency_table.md R100, R103, R105).
-/
namespace Sys2Proof.Machine

variable {s : State}

theorem inByte_of_answers {a : Nat} (k : Byte → Res) (ha : s.outside.inAnswers = true) (hlt : a < s.inLen.toNat) :
    inByte s a k = k (s.outside.inp.read a) := by
  rw [inByte, if_neg (Nat.not_le.2 hlt), if_pos ha]

theorem whenAccepted_of_accepts (k : Res) (ha : s.outside.outAccepts = true) : whenAccepted s k = k := if_pos ha

/-- The last entry of a loop over the byte values is 255. -/
theorem eq_255_of_not_lt {v : BitVec 9} (hv : v.toNat < 256) (h : ¬v.toNat < 255) : v = 255 :=
  BitVec.eq_of_toNat_eq (by
    show v.toNat = 255
    omega)

theorem ne_255_of_lt {v : BitVec 9} (h : v.toNat < 255) : v ≠ 255 := by
  rintro rfl
  exact absurd h (by decide)

/-! ### COUNT -/

theorem clearEntry_eq {v : BitVec 9} (hv : v.toNat < 256) : clearEntry v s = { s with
    tab.freq := s.tab.freq.withEntry (v.setWidth 8) 0
    work.vidx := v + 1
    work.pos := if v = 255 then 0 else s.work.pos
    phase := if v = 255 ∧ s.inLen = 0 then .build else s.phase
    stage := if v = 255 then (if s.inLen = 0 then .entry else .tally) else .clear } := by
  unfold clearEntry
  split
  · next hlt => simp only [ne_255_of_lt hlt, false_and, if_false]
  · next hlast =>
    simp only [eq_255_of_not_lt hv hlast, true_and, if_true]
    split <;> rfl

theorem tallyByte_eq (ha : s.outside.inAnswers = true) (hlt : s.work.pos.toNat < s.inLen.toNat) {b : Byte}
    (hb : b = s.outside.inp.read s.work.pos.toNat) : tallyByte s = .next { s with
      tab.freq := s.tab.freq.withEntry b (s.tab.freq.entry b + 1)
      work.byte := b
      work.pos := s.work.pos + 1
      phase := if s.work.pos.toNat + 1 = s.inLen.toNat then .build else s.phase
      stage := if s.work.pos.toNat + 1 = s.inLen.toNat then .entry else .tally } := by
  subst hb
  rw [tallyByte, inByte_of_answers _ ha hlt]
  simp only
  split
  · next hmore => simp [Nat.ne_of_lt hmore]
  · next hlast =>
    have hend : s.work.pos.toNat + 1 = s.inLen.toNat := by omega
    simp [hend, State.goto]

/-- Settles O25: the equations of the two loops' bodies. -/
theorem countStep : Obligations.CountStep := by
  refine fun s v b => ⟨fun hv hat => ?_, fun hs hlt ha hb => ?_⟩
  · have he : exec .count s = .next (clearEntry v s) := by
      obtain ⟨hs, rfl⟩ | ⟨hs, rfl⟩ := hat <;> simp only [exec, execCount, hs]
    rw [he, clearEntry_eq hv]
  · simp only [exec, execCount, hs]
    exact tallyByte_eq ha hlt hb

/-! ### EMITHDR -/

theorem emitCountByte_eq (ha : s.outside.outAccepts = true) {v : BitVec 9} (hv : v.toNat < 256) (k : Fin 4) :
    emitCountByte v k s = .next { s with
      outside.out := s.outside.out.write s.outCnt.toNat
        (BitVec.ofNat 8 ((s.tab.freq.entry (v.setWidth 8)).toNat / 256 ^ k.val))
      outCnt := s.outCnt + 1
      work.vidx := if k = 3 then v + 1 else v
      phase := if k = 3 ∧ v = 255 then .codegen else s.phase
      stage := if k = 3 then (if v = 255 then .entry else .emit 0) else .emit (k + 1) } := by
  rw [emitCountByte, whenAccepted_of_accepts _ ha, countByte_eq]
  simp only
  split
  · next hk =>
    have hk3 : k ≠ 3 := by
      rintro rfl
      exact absurd hk (by decide)
    simp [hk3, State.outByte]
  · next hk =>
    obtain rfl : k = 3 := by omega
    split
    · next hlt =>
      simp only [ne_255_of_lt hlt, and_false, if_true, if_false]
      rfl
    · next hlast =>
      simp only [eq_255_of_not_lt hv hlast, true_and, if_true]
      rfl

/-- Settles O27: `emitCountByte_eq` at either of EMITHDR's positions. -/
theorem emithdrStep : Obligations.EmithdrStep := by
  intro s v k hv ha hat
  have he : exec .emithdr s = emitCountByte v k s := by
    obtain ⟨hs, rfl, rfl⟩ | ⟨hs, rfl⟩ := hat <;> simp only [exec, execEmithdr, hs]
  rw [he, emitCountByte_eq ha hv]

/-! ### LOADHDR -/

/-- The count of the entry `VIDX` stored and added to the sum (R105). -/
def storeCount (c : Word) (s : State) : State := { s with
  tab.freq := s.tab.freq.withEntry (s.work.vidx.setWidth 8) c
  work.sum := s.work.sum + c.setWidth 40, work.vidx := s.work.vidx + 1 }

theorem loadEntry_more (b0 b1 b2 b3 : Byte) (hlt : s.work.vidx.toNat < 255) :
    loadEntry b0 b1 b2 b3 s = { storeCount (assembleCount b0 b1 b2 b3) s with stage := .load [] } :=
  if_pos hlt

theorem loadEntry_last (b0 b1 b2 b3 : Byte) (hlast : ¬s.work.vidx.toNat < 255) :
    loadEntry b0 b1 b2 b3 s = checkSum (storeCount (assembleCount b0 b1 b2 b3) s) :=
  if_neg hlast

theorem checkSum_goto (h : s.work.sum.toNat ≤ Config.maxLen) : checkSum s = s.goto .build := if_neg (Nat.not_lt.2 h)

theorem checkSum_raise (h : Config.maxLen < s.work.sum.toNat) : checkSum s = s.raise .sum := if_pos h

/-- What the fourth byte of an entry leaves, whichever way the phase goes on (R105). -/
structure EntryLoaded (c : Word) (s t : State) : Prop where
  tab : t.tab = { s.tab with freq := s.tab.freq.withEntry (s.work.vidx.setWidth 8) c }
  work : t.work = { s.work with sum := s.work.sum + c.setWidth 40, vidx := s.work.vidx + 1 }
  outside : t.outside = s.outside
  outCnt : t.outCnt = s.outCnt
  op : t.op = s.op
  inLen : t.inLen = s.inLen

theorem loadEntry_loaded (b0 b1 b2 b3 : Byte) (s : State) :
    EntryLoaded (assembleCount b0 b1 b2 b3) s (loadEntry b0 b1 b2 b3 s) := by
  unfold loadEntry checkSum
  simp only
  split
  · exact ⟨rfl, rfl, rfl, rfl, rfl, rfl⟩
  split <;> exact ⟨rfl, rfl, rfl, rfl, rfl, rfl⟩

/-- Settles O29: the `InByte` at each position of LOADHDR, and after the fourth byte of an entry `loadEntry`. -/
theorem loadhdrStep : Obligations.LoadhdrStep := by
  refine fun s b ha hlen => ⟨fun hs hb => ?_, fun hv => ⟨fun hs hb => ?_, fun got hs hpos hl hb => ?_,
    fun b0 b1 b2 c hs hpos hb hc => ?_⟩⟩
  · simp only [exec, execLoadhdr, hs, loadFirst, inByte_of_answers (a := 0) _ ha (by omega), hb]
  · have haddr := headerAddress_toNat hv
    have hword : headerAddress s.work.vidx = BitVec.ofNat 32 (4 * s.work.vidx.toNat) := by
      rw [← haddr, BitVec.ofNat_toNat, BitVec.setWidth_eq]
    simp only [exec, execLoadhdr, hs, loadByte]
    rw [inByte_of_answers _ ha (by omega), haddr, hword, hb]
  · rw [← hpos] at hb
    match got, hl with
    | [b0], _ =>
      simp only [exec, execLoadhdr, hs, loadByte]
      rw [inByte_of_answers _ ha (by omega), hb]
      rfl
    | [b0, b1], _ =>
      simp only [exec, execLoadhdr, hs, loadByte]
      rw [inByte_of_answers _ ha (by omega), hb]
      rfl
  · rw [← hpos] at hb
    have hcount : c = assembleCount b0 b1 b2 b := hc.trans (assembleCount_eq_ofNat b0 b1 b2 b).symm
    have he : exec .loadhdr s = .next (loadEntry b0 b1 b2 b s) := by
      simp only [exec, execLoadhdr, hs, loadByte]
      rw [inByte_of_answers _ ha (by omega), hb]
    obtain ⟨htab, hwork, hout, hcnt, hop, hin⟩ := loadEntry_loaded b0 b1 b2 b s
    have hlast : s.work.vidx = 255 → loadEntry b0 b1 b2 b s = checkSum (storeCount c s) := fun h => by
      rw [hcount]
      exact loadEntry_last b0 b1 b2 b (by rw [h]; decide)
    rw [← hcount] at htab hwork
    refine ⟨_, he, htab, hwork, hout, hcnt, hop, hin, fun hne => ?_, fun h255 hle => ?_, fun h255 hgt => ?_⟩
    · rw [loadEntry_more b0 b1 b2 b (Nat.lt_of_not_le fun h => hne (eq_255_of_not_lt hv (Nat.not_lt.2 h)))]
      exact ⟨⟨rfl, rfl, rfl, rfl, rfl⟩, rfl, rfl⟩
    · rw [hwork] at hle
      rw [hlast h255, checkSum_goto (s := storeCount c s) hle]
      exact ⟨⟨rfl, rfl, rfl, rfl, rfl⟩, rfl, rfl⟩
    · rw [hwork] at hgt
      rw [hlast h255, checkSum_raise (s := storeCount c s) hgt]
      exact raise_failedWith _ _

end Sys2Proof.Machine
end

section
/-!
PROOFS. The whole phases COUNT, EMITHDR and LOADHDR (41_frequency_table.md R100 to R106): what the runs of the phases leave
unchanged, beside what they compute.
-/
namespace Sys2Proof.Machine

variable {s s0 t : State} {m : Nat} {Q R : State → Prop}

/-- The rule of a loop whose steps also keep `R`. -/
theorem Quiet.loop_keeping {I : Nat → State → Prop}
    (body : ∀ m u t, Quiet u → I m u → exec u.phase.instr u = .next t → Q t ∨ ∃ m' < m, I m' t)
    (keep : ∀ m u t, Quiet u → I m u → R u → exec u.phase.instr u = .next t → R t)
    (h : Quiet s) (hI : I m s) (hR : R s) : ReachesIn (m + 1) s fun t => Q t ∧ R t := by
  refine h.loop (I := fun m u => I m u ∧ R u) (fun m u t hq hIR he => ?_) ⟨hI, hR⟩
  obtain ⟨hIu, hRu⟩ := hIR
  have hRt := keep m u t hq hIu hRu he
  obtain hQ | ⟨m', hlt, hIt⟩ := body m u t hq hIu he
  · exact .inl ⟨hQ, hRt⟩
  · exact .inr ⟨m', hlt, hIt, hRt⟩

/-- No flag is set while an operation runs (R18, R194), so a run from one phase of an operation to another is the same
command. -/
theorem Quiet.sameCommand (hs : Quiet s) (ht : Quiet t) (hk : Keeps s t) (hbs : s.phase ≠ .idle) (hbt : t.phase ≠ .idle) :
    SameCommand s t := by
  obtain ⟨hds, hes⟩ := hs.inv.busy_clear hbs
  obtain ⟨hdt, het⟩ := ht.inv.busy_clear hbt
  exact ⟨hk.op, hdt.trans hds.symm, het.trans hes.symm, (ht.inv.no_err het).trans (hs.inv.no_err hes).symm, hk.inLen⟩

/-- COUNT and LOADHDR write `FREQ` alone of the tables, and nothing at the ports. -/
structure FreqOnly (s t : State) : Prop where
  ports : SamePorts s t
  tab : t.tab = { s.tab with freq := t.tab.freq }

theorem FreqOnly.refl (s : State) : FreqOnly s s := ⟨⟨rfl, rfl⟩, rfl⟩

theorem FreqOnly.execCount (h : FreqOnly s0 s) (he : execCount s = .next t) : FreqOnly s0 t := by
  obtain ⟨⟨hout, hcnt⟩, htab⟩ := h
  obtain ⟨_, _, _, _, _, _, rfl⟩ := (execCount_within s).next he
  exact ⟨⟨hout, hcnt⟩, by rw [htab]⟩

theorem FreqOnly.execLoadhdr (h : FreqOnly s0 s) (he : execLoadhdr s = .next t) : FreqOnly s0 t := by
  obtain ⟨⟨hout, hcnt⟩, htab⟩ := h
  obtain ⟨_, _, _, _, _, _, _, rfl, rfl | rfl⟩ := (execLoadhdr_within s).next he
  · exact ⟨⟨hout, hcnt⟩, by rw [htab]⟩
  · exact ⟨⟨hout, hcnt⟩, by simp only [State.raise_tab]; rw [htab]⟩

/-! ### COUNT -/

/-- Settles O26: the loop of `count_reaches` with its frame; the counts of a sequence add up to its length. -/
theorem countCounts : Obligations.CountCounts := by
  intro s hinv hu hp hs
  have hq : Quiet s := ⟨hinv, hu⟩
  have hrun : ReachesIn _ s fun t => Counted t ∧ FreqOnly s t := hq.loop_keeping (I := Counting)
    (fun m u t hq hI he => execCount_counting hq hI (by rwa [hI.1] at he))
    (fun m u t _ hI hR he => hR.execCount (by rwa [hI.1] at he)) ⟨hp, .inl ⟨hs, rfl⟩⟩ (.refl s)
  obtain ⟨t, hl, hqt, hk, ⟨htp, hts, hfreq⟩, ⟨hout, hcnt⟩, htab⟩ := hrun.leads
  have hpos := hinv.position
  simp only [PositionOk, hp, hs] at hpos
  rw [hk.input] at hfreq
  have hlen : s.input.length < 2 ^ 32 := s.input_length ▸ s.inLen.isLt
  refine ⟨t, hl, htp, hts, hfreq, ?_, fun v => ?_, hq.sameCommand hqt hk (by simp [hp]) (by simp [htp]), hout,
    hcnt.trans hpos, htab⟩
  · rw [hfreq, countSum_freq hlen, s.input_length]
  · rw [hfreq, freq_toNat hlen, ← s.input_length]
    exact ⟨rfl, List.count_le_length⟩

/-! ### EMITHDR -/

/-- EMITHDR writes no table, and of what stands at the ports the header's place in `OUT` alone. -/
structure HeaderOnly (s t : State) : Prop where
  tab : t.tab = s.tab
  outside : t.outside = { s.outside with out := t.outside.out }
  rest : ∀ a, 1024 ≤ a → t.outside.out.read a = s.outside.out.read a

theorem HeaderOnly.refl (s : State) : HeaderOnly s s := ⟨rfl, rfl, fun _ _ => rfl⟩

theorem outCnt_lt_of_emithdr (h : Inv s) (hp : s.phase = .emithdr) : s.outCnt.toNat < 1024 := by
  have hpos := h.position
  cases hs : s.stage with
  | entry =>
    simp only [PositionOk, hp, hs] at hpos
    rw [hpos.1]
    decide
  | emit k =>
    simp only [PositionOk, hp, hs] at hpos
    obtain ⟨-, hv, hc⟩ := hpos
    have hk := k.isLt
    omega
  | _ => simp only [PositionOk, hp, hs] at hpos

theorem HeaderOnly.execEmithdr (h : HeaderOnly s0 s) (hc : s.outCnt.toNat < 1024) (he : execEmithdr s = .next t) :
    HeaderOnly s0 t := by
  obtain ⟨htab, hout, hrest⟩ := h
  obtain ⟨hframe, hbytes⟩ := outputOnlyAppended .emithdr s t he
  refine ⟨?_, by rw [hframe, hout], fun a ha => ?_⟩
  · obtain ⟨_, _, _, _, _, rfl⟩ := (execEmithdr_within s).next he
    exact htab
  · rw [← hrest a ha]
    obtain ⟨-, -, hother⟩ | ⟨-, hsame⟩ := hbytes
    · exact hother a (by omega)
    · exact hsame a

/-- Settles O28: the loop of `emithdr_reaches` with its frame; each byte of the header is a digit of a count. -/
theorem emithdrWritesHeader : Obligations.EmithdrWritesHeader := by
  intro s hinv hu hp hs
  have hq : Quiet s := ⟨hinv, hu⟩
  have hpos := hinv.position
  simp only [PositionOk, hp, hs] at hpos
  have hstart : Emitting s 1023 s := ⟨⟨rfl, rfl, rfl⟩, hp, by rw [hpos.1]; rfl, by rw [State.output, hpos.1]; rfl⟩
  have hrun : ReachesIn _ s fun t => Emitted s t ∧ HeaderOnly s t := hq.loop_keeping (I := Emitting s)
    (fun m u t hq hI he => execEmithdr_emitting hq hI (by rwa [hI.2.1] at he))
    (fun m u t hq hI hR he => hR.execEmithdr (outCnt_lt_of_emithdr hq.inv hI.2.1) (by rwa [hI.2.1] at he))
    hstart (.refl s)
  obtain ⟨t, hl, hqt, hk, ⟨-, htp, hts, hhdr⟩, htab, hout, hrest⟩ := hrun.leads
  have hposT := hqt.inv.position
  simp only [PositionOk, htp, hts] at hposT
  obtain ⟨hcnt, -⟩ := hposT
  have hcmd := hq.sameCommand hqt hk (by simp [hp]) (by simp [htp])
  refine ⟨t, hl, htp, hts, hcnt, hhdr, fun v k => ?_, hrest, hcmd, htab, hout⟩
  have hin : 4 * v.toNat + k.val < t.outCnt.toNat := by
    rw [hcnt]
    show _ < 1024
    omega
  calc t.outside.out.read (4 * v.toNat + k.val)
      = t.output.getD (4 * v.toNat + k.val) 0 := by rw [State.output, Memory.getD_bytes _ _ hin, Nat.zero_add]
    _ = countByte (s.counts v) k := by rw [hhdr, hdr_getD]
    _ = _ := countByte_eq _ k

/-! ### LOADHDR -/

/-- LOADHDR ends with the fourth byte of an entry. -/
theorem execLoadhdr_leaves (s : State) :
    StaysOr s (fun t => ∃ b0 b1 b2 b3, s.stage = .load [b0, b1, b2] ∧ t = loadEntry b0 b1 b2 b3 s) (execLoadhdr s) := by
  unfold execLoadhdr
  split
  · exact answers_inByte (.inl rfl) (fun _ => trivial) fun b => .inl rfl
  · next hs =>
    unfold loadByte
    split
    · exact answers_inByte (.inl rfl) (fun _ => trivial) fun b => .inl rfl
    · exact answers_inByte (.inl rfl) (fun _ => trivial) fun b => .inl rfl
    · exact answers_inByte (.inl rfl) (fun _ => trivial) fun b => .inl rfl
    · exact answers_inByte (.inl rfl) (fun _ => trivial) fun b => .inr ⟨_, _, _, b, hs, rfl⟩
    · trivial
  · trivial

theorem Loaded.phase_ne (h : Loaded s) : s.phase ≠ .loadhdr := by
  obtain ⟨-, ⟨hp, -⟩ | ⟨⟨hp, -⟩, -⟩⟩ := h <;> simp [hp]

/-- R105: `SUM` is the sum of the counts, whether or not it is in bounds. -/
theorem execLoadhdr_sum (h : Quiet s) (hI : Loading m s) (he : execLoadhdr s = .next t) (hL : Loaded t) :
    t.work.sum.toNat = countSum t.counts := by
  obtain ⟨hp, hI⟩ := hI
  obtain hstay | ⟨b0, b1, b2, b3, hs, rfl⟩ := (execLoadhdr_leaves s).next he
  · exact absurd (hstay.trans hp) hL.phase_ne
  have hpos := h.inv.position
  simp only [PositionOk, hp, hs] at hpos
  obtain ⟨-, hv, -⟩ := hpos
  have hlast : ¬s.work.vidx.toNat < 255 := fun hlt => hL.phase_ne (by rw [loadEntry_more _ _ _ _ hlt]; exact hp)
  obtain ⟨hs', -⟩ | ⟨got, -, -, -, -, hsum⟩ := hI
  · rw [hs] at hs'
    cases hs'
  obtain ⟨htab, hwork, hout, -⟩ := loadEntry_loaded b0 b1 b2 b3 s
  have hentry := entryIndex_toNat hv
  have hcount : assembleCount b0 b1 b2 b3 = headerCounts s (s.work.vidx.setWidth 8) := by
    have := congrFun hL.1 (s.work.vidx.setWidth 8)
    rwa [State.counts, htab, Table.entry_withEntry_same, headerCounts, hout] at this
  rw [← hentry] at hsum
  calc (loadEntry b0 b1 b2 b3 s).work.sum.toNat
      = (s.work.sum + (headerCounts s (s.work.vidx.setWidth 8)).setWidth 40).toNat := by rw [hwork, hcount]
    _ = partialSum (headerCounts s) 256 := by
        rw [toNat_add_count hsum, hentry]
        congr 1
        omega
    _ = countSum (loadEntry b0 b1 b2 b3 s).counts := by rw [partialSum_all, hL.1, headerCounts, headerCounts, hout]

/-- Settles O30: the loop of `loadhdr_reaches` with its frame, and the sum at its end. -/
theorem loadhdrLoadsHeader : Obligations.LoadhdrLoadsHeader := by
  intro s hinv hu hp hs
  have hq : Quiet s := ⟨hinv, hu⟩
  have hpos := hinv.position
  simp only [PositionOk, hp, hs] at hpos
  have hrun : ReachesIn _ s fun t => (Loaded t ∧ t.work.sum.toNat = countSum t.counts) ∧ FreqOnly s t :=
    hq.loop_keeping (I := Loading)
      (fun m u t hq hI he => by
        rw [hI.1] at he
        exact (execLoadhdr_loading hq hI he).imp_left fun hL => ⟨hL, execLoadhdr_sum hq hI he hL⟩)
      (fun m u t _ hI hR he => hR.execLoadhdr (by rwa [hI.1] at he)) ⟨hp, .inl ⟨hs, rfl⟩⟩ (.refl s)
  obtain ⟨t, hl, hqt, hk, ⟨⟨hcounts, hend⟩, hsum⟩, ⟨hout, hcnt⟩, htab⟩ := hrun.leads
  have htable : t.counts = unhdr (s.outside.inp.bytes 0 1024) := by rw [hcounts, headerCounts, hk.inp]
  refine ⟨t, hl, htable, hsum, fun hle => ?_, fun hgt => ?_, hout, hcnt.trans hpos, htab⟩
  · obtain ⟨htp, hts, -⟩ | ⟨-, -, hgt⟩ := hend
    · exact ⟨hq.sameCommand hqt hk (by simp [hp]) (by simp [htp]), htp, hts⟩
    · exact absurd hle (Nat.not_le.2 (hcounts ▸ hgt))
  · obtain ⟨-, -, -, hle⟩ | ⟨hfail, -⟩ := hend
    · exact absurd hgt (Nat.not_lt.2 (hcounts ▸ hle))
    · exact hfail

end Sys2Proof.Machine
end

section
/-!
PROOFS. BUILD makes the tree of its table (42_tree_builder.md R117, R118), and the shape of that tree (R120).
-/
namespace Sys2Proof.Machine

/-- Settles O37: `build_reaches`, read without its bound on the steps. -/
theorem buildsTheTree : Obligations.BuildsTheTree := by
  intro s hinv hu hp hs hsum
  obtain ⟨t, hl, -, -, hb⟩ := (build_reaches ⟨hinv, hu⟩ hp hs hsum).leads
  obtain ⟨tr, htr, hreads⟩ := hb.tree
  exact ⟨t, hl, hb.phase, hb.stage, by rw [← htr]; exact hreads, hb.weight⟩

/-- The root is no leaf, so no code is empty. -/
theorem code_length_pos (F : Counts) (v : Byte) : 1 ≤ (code F v).length := by
  refine List.length_pos_iff.2 fun hnil => ?_
  have h := tree_leafAt_code F v
  obtain ⟨l, r, hnode⟩ := tree_is_node F
  rw [hnil, hnode] at h
  cases h

/-- Settles O39: the leaves through the 255 rounds, and a path through a tree of 256 leaves is shorter than 256. -/
theorem treeShape : Obligations.TreeShape := fun F =>
  ⟨tree_leaves_perm F, fun v => ⟨tree_path F v, code_length_pos F v, code_length_le F v⟩⟩

end Sys2Proof.Machine
end

section
/-!
PROOFS. BUILD, one step as an exact next state: an entry of INIT, MERGE and the root (42_tree_builder.md R111, R113, R114,
R116).
-/
namespace Sys2Proof.Machine

variable {s : State}

/-! ### INIT -/

theorem initLeaf_eq {v : BitVec 9} (hv : v.toNat < 256) : initLeaf v s = { s with
    tab.node := s.tab.node.withLeafWeight (v.setWidth 8) (s.tab.freq.entry (v.setWidth 8))
    tab.slot := s.tab.slot.withEntry (v.setWidth 8) { v := true, n := v }
    work := if v = 255 then { s.work with vidx := 256, next := 256, live := 256, sidx := 0 }
      else { s.work with vidx := v + 1 }
    stage := if v = 255 then .scanA none else .initLeaf } := by
  by_cases hlt : v.toNat < 255
  · unfold initLeaf
    simp only [if_pos hlt, if_neg (ne_255_of_lt hlt)]
  · rw [initLeaf_last hlt, eq_255_of_not_lt hv hlt]
    rfl

/-- A leaf's weight is no child. -/
theorem children?_withLeafWeight (a : Arena) (v : Byte) (w : Word) (n : BitVec 9) :
    (a.withLeafWeight v w).children? n = a.children? n := by
  unfold Arena.children?
  split
  · rfl
  · next h256 => rw [Arena.node?_withLeafWeight, if_neg (by have := v.isLt; omega)]

theorem weight?_withLeafWeight (a : Arena) {v : BitVec 9} (hv : v.toNat < 256) (w : Word) (n : BitVec 9) :
    ((a.withLeafWeight (v.setWidth 8) w).node? n).map (·.w) = if n = v then some w else (a.node? n).map (·.w) := by
  rw [Arena.node?_withLeafWeight, entryIndex_toNat hv]
  by_cases hn : n = v
  · obtain ⟨nd, hnd⟩ := Arena.node?_eq_some (a := a) (n := n) (by rw [hn]; omega)
    rw [if_pos (congrArg _ hn), if_pos hn, hnd]
    rfl
  · rw [if_neg fun e => hn (BitVec.eq_of_toNat_eq e), if_neg hn]

/-- Settles O32: `initLeaf_eq` at either of INIT's positions. -/
theorem buildInitStep : Obligations.BuildInitStep := by
  intro s v hv hat
  have he : exec .build s = .next (initLeaf v s) := by
    obtain ⟨hs, rfl⟩ | ⟨hs, rfl⟩ := hat <;> simp only [exec, execBuild, hs]
  refine ⟨_, he, ?_⟩
  rw [initLeaf_eq hv]
  refine ⟨weight?_withLeafWeight _ hv _, children?_withLeafWeight _ _ _, fun i => ?_, rfl, rfl, rfl, rfl,
    ⟨rfl, rfl, rfl, rfl, rfl⟩, rfl, fun hne => ⟨if_neg hne, if_neg hne⟩, fun h255 => ⟨if_pos h255, if_pos h255⟩⟩
  rw [Table.entry_withEntry, ← entryIndex_toNat hv]
  exact if_congr BitVec.toNat_inj.symm rfl rfl

/-! ### MERGE -/

theorem node?_withNode_of_lt (a : Arena) {k : Nat} (h511 : k < 511) (nd : Node) (n : BitVec 9) :
    (a.withNode k nd).node? n = if n.toNat = k then some nd else a.node? n := by
  simp only [Arena.node?_withNode, h511, and_true]

theorem mergedSlots_selb (t : Table Slot) (a b : Byte) (n : BitVec 9) : (Table.entry (mergedSlots t a b n) b).v = false := by
  simp only [mergedSlots, Table.entry_withEntry_same]

theorem mergedSlots_other (t : Table Slot) {a b i : Byte} (n : BitVec 9) (ha : i ≠ a) (hb : i ≠ b) :
    Table.entry (mergedSlots t a b n) i = Table.entry t i := by
  simp only [mergedSlots, Table.entry_withEntry, if_neg ha, if_neg hb]

/-- The loop test of R114. -/
theorem nextMerge_eq (s : State) : nextMerge s = { s with
    work.sidx := if 1 < s.work.live.toNat then 0 else s.work.sidx
    stage := if 1 < s.work.live.toNat then .scanA none else .root } := by
  unfold nextMerge
  split <;> rfl

/-- Settles O34: `mergeStep_inversion`, and the loop test on the `LIVE` left. (`mergeStep` itself is the model's.) -/
theorem Build.mergeStep : Obligations.MergeStep := by
  intro s h hp hs
  have hpos := h.position
  simp only [PositionOk, hp, hs] at hpos
  obtain ⟨-, -, h2, hab, -, -⟩ := hpos
  obtain ⟨t, he, -⟩ := execBuild_fine h hp
  obtain ⟨hfreq, hcode, hout, hcnt, hcmd⟩ := execBuild_frame he
  have hm := he
  rw [execBuild, hs] at hm
  obtain ⟨na, nb, hna, hnb, hlt, rfl⟩ := mergeStep_inversion hm
  have hlive : (s.work.live - 1).toNat + 1 = s.work.live.toNat := by bv_omega
  have hnext : (s.work.next + 1).toNat = s.work.next.toNat + 1 := toNat_succ (b := 511) hlt (by decide)
  have hindex : (s.work.next.setWidth 9).toNat = s.work.next.toNat := by
    rw [BitVec.toNat_setWidth]
    exact Nat.mod_eq_of_lt (by omega)
  have slotA : Holds (mergedSlots s.tab.slot s.work.sela s.work.selb (s.work.next.setWidth 9)) s.work.sela
      (s.work.next.setWidth 9) := (holds_mergedSlots hab).2 (.inl ⟨rfl, rfl⟩)
  refine ⟨_, na, nb, he, hna, hnb, ?_⟩
  rw [nextMerge_eq] at hfreq hcode hout hcnt hcmd ⊢
  refine ⟨node?_withNode_of_lt _ hlt _, slotA.valid, (congrArg (·.n.toNat) slotA).trans hindex, mergedSlots_selb _ _ _ _,
    fun i ha hb => mergedSlots_other _ _ ha hb, hnext, hlive, rfl, fun hmore => ?_, fun htwo => ?_, hfreq, hcode, hout, hcnt,
    hcmd, hp⟩
  · have hloop : 1 < (s.work.live - 1).toNat := by omega
    exact ⟨if_pos hloop, if_pos hloop⟩
  · have hloop : ¬1 < (s.work.live - 1).toNat := by rw [htwo]; decide
    exact ⟨if_neg hloop, if_neg hloop⟩

/-! ### The root -/

/-- Settles O35: with one root left `NEXT` is 511. -/
theorem rootAndSuccessor : Obligations.RootAndSuccessor := by
  intro s h hp hs
  have hpos := h.position
  simp only [PositionOk, hp, hs] at hpos
  obtain ⟨-, hb, hlive⟩ := hpos
  have hcounts := hb.counts
  rw [hlive] at hcounts
  have hnext : s.work.next = 511 := BitVec.eq_of_toNat_eq (Nat.succ.inj hcounts)
  have he : exec .build s = .next (takeRoot s) := by simp only [exec, execBuild, hs]
  rw [he, takeRoot, hnext]
  split <;> rfl

end Sys2Proof.Machine
end

section
/-!
PROOFS. The two selects of a round (42_tree_builder.md R112, R115): the run of both scans, and the order of the slots they
find.
-/
namespace Sys2Proof.Machine

variable {s0 s t : State} {m : Nat} {tab : Tables} {ex : Option Byte}

/-- Of the tables and working registers only the scan's registers changed (R110, R112). -/
structure OnlyScanned (s t : State) : Prop where
  frame : BuildFrame s t
  tab : t.tab = s.tab
  work : t.work = { s.work with sidx := t.work.sidx, sela := t.work.sela, selb := t.work.selb }

theorem OnlyScanned.refl (s : State) : OnlyScanned s s := ⟨.refl s, rfl, rfl⟩

theorem OnlyScanned.trans {u : State} (a : OnlyScanned s t) (b : OnlyScanned t u) : OnlyScanned s u where
  frame := a.frame.trans b.frame
  tab := b.tab.trans a.tab
  work := by rw [b.work, a.work]

/-- Both selects are complete. -/
structure Selected (s0 s : State) : Prop where
  phase : s.phase = .build
  stage : s.stage = .merge
  scanned : OnlyScanned s0 s
  least : LeastBelow s0.tab none 256 s.work.sela
  second : LeastBelow s0.tab (some s.work.sela) 256 s.work.selb

/-- How far the selects have come, `m` slots before their end. -/
def Selecting (s0 : State) (m : Nat) (s : State) : Prop :=
  s.phase = .build ∧ OnlyScanned s0 s ∧
    ((∃ best, s.stage = .scanA best ∧ BestBelow s0.tab none s.work.sidx.toNat best ∧ m + s.work.sidx.toNat = 512) ∨
     ∃ best, s.stage = .scanB best ∧ LeastBelow s0.tab none 256 s.work.sela ∧
      BestBelow s0.tab (some s.work.sela) s.work.sidx.toNat best ∧ m + s.work.sidx.toNat = 256)

/-- One slot more is one less to visit. -/
theorem sidx_counts_down {x : BitVec 9} {top : Nat} (hx : x.toNat < 256) (htop : 256 ≤ top) (hm : m + x.toNat = top) :
    m - 1 < m ∧ m - 1 + (x + 1).toNat = top := by
  rw [toNat_succ hx (by decide)]
  omega

theorem Selecting.step (h : Quiet s) (hI : Selecting s0 m s) (he : execBuild s = .next t) :
    Selected s0 t ∨ ∃ m' < m, Selecting s0 m' t := by
  obtain ⟨hp, hscan, hat⟩ := hI
  have hframe := execBuild_frame he
  have hpos := h.inv.position
  rw [← hscan.tab] at hat
  obtain ⟨best, hs, hbest, hm⟩ | ⟨best, hs, hleast, hbest, hm⟩ := hat <;>
    simp only [PositionOk, hp, hs] at hpos <;> simp only [execBuild, hs] at he
  · obtain ⟨-, -, hsc⟩ := hpos
    obtain ⟨hless, hm'⟩ := sidx_counts_down hsc.sidx (by decide) hm
    obtain ⟨best', rfl, hbest'⟩ | ⟨b, rfl, hleast⟩ := scanSlot_bestBelow hbest hsc.sidx he
    · exact .inr ⟨m - 1, hless, hp, hscan.trans ⟨hframe, rfl, rfl⟩, .inl ⟨best', rfl, hscan.tab ▸ hbest', hm'⟩⟩
    · have hlt := hsc.sidx
      exact .inr ⟨256, by omega, hp, hscan.trans ⟨hframe, rfl, rfl⟩,
        .inr ⟨none, rfl, hscan.tab ▸ hleast, bestBelow_zero _ _, rfl⟩⟩
  · obtain ⟨-, -, hsc, -⟩ := hpos
    obtain ⟨hless, hm'⟩ := sidx_counts_down hsc.sidx (by decide) hm
    obtain ⟨best', rfl, hbest'⟩ | ⟨b, rfl, hsecond⟩ := scanSlot_bestBelow hbest hsc.sidx he
    · exact .inr ⟨m - 1, hless, hp, hscan.trans ⟨hframe, rfl, rfl⟩,
        .inr ⟨best', rfl, hscan.tab ▸ hleast, hscan.tab ▸ hbest', hm'⟩⟩
    · exact .inl ⟨hp, rfl, hscan.trans ⟨hframe, rfl, rfl⟩, hscan.tab ▸ hleast, hscan.tab ▸ hsecond⟩

/-- The order of the weights as they stand in the arena, unsigned (R115). -/
theorem LeastBelow.before {b i : Byte} {wb w : Word} (h : LeastBelow tab ex 256 b) (hb : slotWeight tab b = some wb)
    (hi : Candidate tab ex i) (hw : slotWeight tab i = some w) (hne : i ≠ b) :
    wb.toNat < w.toNat ∨ wb = w ∧ b.toNat < i.toNat := by
  have := h.ahead i hi i.isLt hne
  rw [Ahead, weightAt_of_some hb, weightAt_of_some hw, BitVec.toNat_inj] at this
  exact this

/-- Settles O33: the loop of both scans; every live slot has a weight. -/
theorem selectsTheTwoLeast : Obligations.SelectsTheTwoLeast := by
  intro s hinv hu hp hs h0
  have hq : Quiet s := ⟨hinv, hu⟩
  have hpos := hinv.position
  simp only [PositionOk, hp, hs] at hpos
  obtain ⟨-, hb, -⟩ := hpos
  have hrun : ReachesIn _ s (Selected s) := hq.loop (I := Selecting s) (m := 512)
    (fun m u t hq hI he => hI.step hq (by rwa [hI.1] at he))
    ⟨hp, .refl s, .inl ⟨none, hs, by rw [h0]; exact bestBelow_zero _ _, by rw [h0]; rfl⟩⟩
  obtain ⟨t, hl, -, -, hsel⟩ := hrun.leads
  obtain ⟨⟨-, -, hout, hcnt, hcmd⟩, htab, hwork⟩ := hsel.scanned
  have hva := hsel.least.candidate.1
  obtain ⟨hvb, hne⟩ := hsel.second.candidate
  obtain ⟨wa, hwa⟩ := slotWeight_some hb hva
  obtain ⟨wb, hwb⟩ := slotWeight_some hb hvb
  exact ⟨t, wa, wb, hl, hsel.phase, hsel.stage, hva, hwa, hvb, hwb, fun e => hne (congrArg some e),
    fun i w hv hw hi => hsel.least.before hwa ⟨hv, nofun⟩ hw hi,
    fun i w hv hw ha hi => hsel.second.before hwb ⟨hv, fun e => ha (Option.some.inj e).symm⟩ hw hi,
    hwork, htab, hout, hcnt, hcmd⟩

end Sys2Proof.Machine
end

section
/-!
PROOFS. BUILD depends on its table alone (42_tree_builder.md R119): two runs from equal tables go in step, and what they
share at each position is all that their next steps read.
-/
namespace Sys2Proof.Machine

variable {s s' t t' : State} {tab tab' : Tables} {ex best : Option Byte} {k : Nat}

/-! ### What the two runs share -/

/-- The same slots, and the same nodes below `k`. From `k` on the arenas may still differ. -/
structure SameBelow (k : Nat) (tab tab' : Tables) : Prop where
  slot : tab'.slot = tab.slot
  weight : ∀ n : BitVec 9, n.toNat < k → (tab'.node.node? n).map Node.w = (tab.node.node? n).map Node.w
  children : ∀ n : BitVec 9, n.toNat < k → tab'.node.children? n = tab.node.children? n

/-- The two runs have made the same merges (R114). -/
def SameForest (s s' : State) : Prop :=
  s'.work.next = s.work.next ∧ s'.work.live = s.work.live ∧ SameBelow s.work.next.toNat s.tab s'.tab

/-- The two runs of BUILD stand at the same position, and agree on what is still to be read. -/
def InStep (s s' : State) : Prop :=
  s'.stage = s.stage ∧ match s.stage with
  | .entry => True
  | .initLeaf => s'.work.vidx = s.work.vidx ∧ LeavesBelow s.counts s.tab s.work.vidx.toNat ∧
      LeavesBelow s.counts s'.tab s.work.vidx.toNat
  | .scanA _ => SameForest s s' ∧ s'.work.sidx = s.work.sidx
  | .scanB _ => SameForest s s' ∧ s'.work.sidx = s.work.sidx ∧ s'.work.sela = s.work.sela
  | .merge => SameForest s s' ∧ s'.work.sela = s.work.sela ∧ s'.work.selb = s.work.selb
  | .root => SameForest s s'
  | _ => False

/-- Both BUILDs are complete, with equal arenas (R119). -/
structure SameArena (s s' : State) : Prop where
  phase : s.phase ≠ .build
  phase' : s'.phase ≠ .build
  stage : s.stage = .entry
  stage' : s'.stage = .entry
  root : s.work.root = s'.work.root
  nodes : SameBelow 511 s.tab s'.tab

/-- The arena ends at 510 (10_state.md R24). -/
theorem SameBelow.all (h : SameBelow 511 tab tab') (n : BitVec 9) :
    (tab'.node.node? n).map Node.w = (tab.node.node? n).map Node.w ∧ tab'.node.children? n = tab.node.children? n := by
  by_cases hn : n.toNat < 511
  · exact ⟨h.weight n hn, h.children n hn⟩
  · obtain rfl : n = 511 := BitVec.eq_of_toNat_eq (Nat.le_antisymm (Nat.le_of_lt_succ n.isLt) (Nat.le_of_not_lt hn))
    rw [node?_511, node?_511, children?_511, children?_511]
    exact ⟨rfl, rfl⟩

/-! ### INIT -/

/-- The leaves of a table, each in its own slot (R111), are all there is below 256. -/
theorem sameBelow_of_leaves {F : Counts} (h : LeavesBelow F tab 256) (h' : LeavesBelow F tab' 256) :
    SameBelow 256 tab tab' where
  slot := Table.ext fun i => (h' i i.isLt).1.trans (h i i.isLt).1.symm
  weight n hlt := by
    have e : (n.setWidth 8 : Byte).setWidth 9 = n := by
      refine BitVec.eq_of_toNat_eq ?_
      rw [BitVec.toNat_setWidth, entryIndex_toNat hlt]
      exact Nat.mod_eq_of_lt n.isLt
    have hw := (h (n.setWidth 8) (BitVec.isLt _)).2
    have hw' := (h' (n.setWidth 8) (BitVec.isLt _)).2
    rw [e] at hw hw'
    exact hw'.trans hw.symm
  children n hlt := by rw [Arena.children?, Arena.children?, if_pos hlt, if_pos hlt]

theorem initLeaf_inStep {v : BitVec 9} (hv : v.toNat < 256) (hc : s'.counts = s.counts)
    (h : LeavesBelow s.counts s.tab v.toNat) (h' : LeavesBelow s.counts s'.tab v.toNat) :
    InStep (initLeaf v s) (initLeaf v s') := by
  have hl := initLeaf_leavesBelow hv h
  have hl' := initLeaf_leavesBelow (s := s') hv (hc ▸ h')
  rw [hc] at hl'
  rw [initLeaf_eq hv] at hl hl' ⊢
  rw [initLeaf_eq hv]
  by_cases h255 : v = 255
  · subst h255
    exact ⟨rfl, ⟨rfl, rfl, sameBelow_of_leaves hl hl'⟩, rfl⟩
  · have hlt : v.toNat < 255 := Nat.lt_of_not_le fun hle => h255 (eq_255_of_not_lt hv (Nat.not_lt.2 hle))
    simp only [if_neg h255, InStep, vidx_succ hlt]
    exact ⟨trivial, trivial, hl, hl'⟩

/-! ### A select -/

theorem slotWeight_eq_map (tab : Tables) (i : Byte) :
    slotWeight tab i = (Arena.node? tab.node (Table.entry tab.slot i).n).map Node.w := by
  unfold slotWeight
  split <;> next h => rw [h]; rfl

theorem SameBelow.slotWeight (h : SameBelow k tab tab') {i : Byte} (hi : (Table.entry tab.slot i).n.toNat < k) :
    slotWeight tab' i = slotWeight tab i := by
  rw [slotWeight_eq_map, slotWeight_eq_map, h.slot, h.weight _ hi]

theorem SameBelow.selectVisit (h : SameBelow k tab tab')
    (hlow : ∀ i, (Table.entry tab.slot i).v = true → (Table.entry tab.slot i).n.toNat < k)
    (hbest : ∀ b, best = some b → (Table.entry tab.slot b).v = true ∧ ex ≠ some b) (i : Byte) :
    selectVisit tab' ex best i = selectVisit tab ex best i := by
  unfold Machine.selectVisit
  rw [h.slot]
  split
  · next hi =>
    cases best with
    | none => rfl
    | some b => simp only [h.slotWeight (hlow i hi.1), h.slotWeight (hlow b (hbest b rfl).1)]
  · rfl

/-- A select's step does the same in both runs. -/
theorem scanSlot_same {again : Option Byte → Stage} {found : Byte → State → State} (h : SameForest s s')
    (hx : s'.work.sidx = s.work.sidx) (hb : BuildOk s.work s.tab) (hsc : ScanOk s.work s.tab ex best)
    (he : scanSlot ex best again found s = .next t) (he' : scanSlot ex best again found s' = .next t') :
    (∃ best', t = { s with work.sidx := s.work.sidx + 1, stage := again best' } ∧
      t' = { s' with work.sidx := s.work.sidx + 1, stage := again best' }) ∨
    ∃ b, t = found b { s with work.sidx := s.work.sidx + 1 } ∧ t' = found b { s' with work.sidx := s.work.sidx + 1 } := by
  obtain ⟨-, -, htab⟩ := h
  obtain ⟨best1, hv, hend⟩ := scanSlot_inversion he
  obtain ⟨best2, hv', hend'⟩ := scanSlot_inversion he'
  rw [hx, htab.selectVisit hb.roots hsc.best_live, hv] at hv'
  cases hv'
  rw [hx] at hend'
  obtain ⟨hlt, rfl⟩ | ⟨hge, b, rfl, rfl⟩ := hend <;> obtain ⟨hlt', rfl⟩ | ⟨hge', b', hbb, rfl⟩ := hend'
  · exact .inl ⟨_, rfl, rfl⟩
  · exact absurd hlt (Nat.not_lt.2 hge')
  · exact absurd hlt' (Nat.not_lt.2 hge)
  · cases hbb
    exact .inr ⟨b, rfl, rfl⟩

/-! ### MERGE and the root -/

/-- The new node has the same children and the same sum of weights in both arenas (R113). -/
theorem SameBelow.merge (h : SameBelow k tab tab') (h256 : 256 ≤ k) (h511 : k < 511) {nd nd' : Node}
    (hw : nd'.w = nd.w) (hl : nd'.l = nd.l) (hr : nd'.r = nd.r) (a b : Byte) (n : BitVec 9) :
    SameBelow (k + 1) { tab with node := tab.node.withNode k nd, slot := mergedSlots tab.slot a b n }
      { tab' with node := tab'.node.withNode k nd', slot := mergedSlots tab'.slot a b n } where
  slot := by rw [h.slot]
  weight n hn := by
    simp only [node?_withNode_of_lt _ h511]
    split
    · exact congrArg some hw
    · exact h.weight n (by omega)
  children n hn := by
    simp only [children?_withNode h256 h511]
    split
    · rw [hl, hr]
    · exact h.children n (by omega)

theorem nextMerge_inStep (h : SameForest s s') : InStep (nextMerge s) (nextMerge s') := by
  obtain ⟨hn, hl, htab⟩ := h
  unfold nextMerge
  rw [hl]
  split
  · exact ⟨rfl, ⟨hn, hl, htab⟩, rfl⟩
  · exact ⟨rfl, hn, hl, htab⟩

theorem mergeStep_phase (he : mergeStep s = .next t) : t.phase = s.phase := by
  obtain ⟨_, _, -, -, -, rfl⟩ := mergeStep_inversion he
  exact (nextMerge_spec _).1

theorem mergeStep_inStep (h : SameForest s s') (hb : BuildOk s.work s.tab) (ha : s'.work.sela = s.work.sela)
    (hb' : s'.work.selb = s.work.selb) (hva : (Table.entry s.tab.slot s.work.sela).v = true)
    (hvb : (Table.entry s.tab.slot s.work.selb).v = true) (he : mergeStep s = .next t) (he' : mergeStep s' = .next t') :
    InStep t t' := by
  obtain ⟨hn, hl, htab⟩ := h
  obtain ⟨na, nb, hna, hnb, hlt, rfl⟩ := mergeStep_inversion he
  obtain ⟨na', nb', hna', hnb', -, rfl⟩ := mergeStep_inversion he'
  rw [ha, htab.slot] at hna'
  rw [hb', htab.slot] at hnb'
  have hwa : na'.w = na.w := by simpa [hna, hna'] using htab.weight _ (hb.roots _ hva)
  have hwb : nb'.w = nb.w := by simpa [hnb, hnb'] using htab.weight _ (hb.roots _ hvb)
  have hsucc : (s.work.next + 1).toNat = s.work.next.toNat + 1 := toNat_succ (b := 511) hlt (by decide)
  refine nextMerge_inStep ⟨congrArg (· + 1) hn, congrArg (· - 1) hl, ?_⟩
  show SameBelow (s.work.next + 1).toNat _ _
  rw [hsucc]
  simp only [hn, ha, hb']
  refine htab.merge hb.next_low hlt ?_ ?_ ?_ _ _ _
  · rw [hwa, hwb]
  all_goals rw [htab.slot]

theorem takeRoot_phase_ne (s : State) : (takeRoot s).phase ≠ .build := by
  rw [(takeRoot_spec s).1]
  split <;> nofun

theorem takeRoot_sameArena (h : SameForest s s') (hnext : s.work.next.toNat = 511) :
    SameArena (takeRoot s) (takeRoot s') := by
  obtain ⟨hn, -, htab⟩ := h
  obtain ⟨-, hs, ht, hw⟩ := takeRoot_spec s
  obtain ⟨-, hs', ht', hw'⟩ := takeRoot_spec s'
  refine ⟨takeRoot_phase_ne s, takeRoot_phase_ne s', hs, hs', by rw [hw, hw', hn], ?_⟩
  rwa [ht, ht', ← hnext]

/-! ### The two runs -/

/-- A step of each run keeps them in step, or both take the root. -/
theorem execBuild_inStep (h : Inv s) (hp : s.phase = .build) (hc : s'.counts = s.counts) (hI : InStep s s')
    (he : execBuild s = .next t) (he' : execBuild s' = .next t') :
    SameArena t t' ∨ (t.phase = s.phase ∧ t'.phase = s'.phase) ∧ InStep t t' := by
  have hpos := h.position
  obtain ⟨hs', hI⟩ := hI
  cases hs : s.stage with
  | entry =>
    simp only [execBuild, hs', hs] at he he'
    cases he
    cases he'
    have none : ∀ tab, LeavesBelow s.counts tab (0 : BitVec 9).toNat := fun _ i hi => absurd hi (Nat.not_lt_zero _)
    exact .inr ⟨⟨initLeaf_phase _ _, initLeaf_phase _ _⟩, initLeaf_inStep (by decide) hc (none _) (none _)⟩
  | initLeaf =>
    simp only [PositionOk, hp, hs] at hpos
    simp only [hs] at hI
    simp only [execBuild, hs', hs] at he he'
    obtain ⟨-, hlt, -⟩ := hpos
    obtain ⟨hv, hl, hl'⟩ := hI
    cases he
    rw [hv] at he'
    cases he'
    exact .inr ⟨⟨initLeaf_phase _ _, initLeaf_phase _ _⟩, initLeaf_inStep hlt hc hl hl'⟩
  | scanA best =>
    simp only [PositionOk, hp, hs] at hpos
    simp only [hs] at hI
    simp only [execBuild, hs', hs] at he he'
    obtain ⟨-, hb, hsc⟩ := hpos
    obtain ⟨hf, hx⟩ := hI
    obtain ⟨best', rfl, rfl⟩ | ⟨b, rfl, rfl⟩ := scanSlot_same hf hx hb hsc he he'
    · exact .inr ⟨⟨rfl, rfl⟩, rfl, hf, rfl⟩
    · exact .inr ⟨⟨rfl, rfl⟩, rfl, hf, rfl, rfl⟩
  | scanB best =>
    simp only [PositionOk, hp, hs] at hpos
    simp only [hs] at hI
    simp only [execBuild, hs', hs] at he he'
    obtain ⟨-, hb, hsc, -⟩ := hpos
    obtain ⟨hf, hx, ha⟩ := hI
    rw [ha] at he'
    obtain ⟨best', rfl, rfl⟩ | ⟨b, rfl, rfl⟩ := scanSlot_same hf hx hb hsc he he'
    · exact .inr ⟨⟨rfl, rfl⟩, rfl, hf, rfl, ha⟩
    · exact .inr ⟨⟨rfl, rfl⟩, rfl, hf, ha, rfl⟩
  | merge =>
    simp only [PositionOk, hp, hs] at hpos
    simp only [hs] at hI
    simp only [execBuild, hs', hs] at he he'
    obtain ⟨-, hb, -, -, hva, hvb⟩ := hpos
    obtain ⟨hf, ha, hb'⟩ := hI
    exact .inr ⟨⟨mergeStep_phase he, mergeStep_phase he'⟩, mergeStep_inStep hf hb ha hb' hva hvb he he'⟩
  | root =>
    simp only [PositionOk, hp, hs] at hpos
    simp only [hs] at hI
    simp only [execBuild, hs', hs] at he he'
    obtain ⟨-, hb, hlive⟩ := hpos
    have hcounts := hb.counts
    rw [hlive] at hcounts
    cases he
    cases he'
    exact .inl (takeRoot_sameArena hI (Nat.succ.inj hcounts))
  | _ => simp only [PositionOk, hp, hs] at hpos

/-- The other run, from `s0'`, has come to a state in step with `s`. -/
def Followed (s0' s : State) : Prop :=
  ∃ s', Leads s0' s' ∧ Quiet s' ∧ s'.phase = .build ∧ s'.counts = s.counts ∧ InStep s s'

theorem execBuild_counts (he : execBuild s = .next t) : t.counts = s.counts := by
  funext v
  rw [State.counts, State.counts, (execBuild_frame he).freq]

/-- Each step is followed by one of the other run, to the end of both. -/
theorem Followed.step {s0' : State} (h : Quiet s) (hp : s.phase = .build) (hf : Followed s0' s) (he : execBuild s = .next t) :
    (∃ t', Leads s0' t' ∧ SameArena t t') ∨ t.phase = .build ∧ Followed s0' t := by
  obtain ⟨s', hl, hq, hp', hc, hI⟩ := hf
  obtain ⟨t', he', hst, hqt, -⟩ := hq.step
  rw [hp'] at he'
  have hl' := hl.trans (.step hst)
  obtain hend | ⟨⟨hpt, hpt'⟩, hIt⟩ := execBuild_inStep h.inv hp hc hI he he'
  · exact .inl ⟨t', hl', hend⟩
  · have hct : t'.counts = t.counts := by rw [execBuild_counts he, execBuild_counts he', hc]
    exact .inr ⟨hpt.trans hp, t', hl', hqt, hpt'.trans hp', hct, hIt⟩

/-- Settles O38: the two runs in step, up to the end that `buildWhole` gives the first one. -/
theorem buildDeterministic : Obligations.BuildDeterministic := by
  intro s s' hi hi' hu hu' hp hp' hs hs' hc
  have hq : Quiet s := ⟨hi, hu⟩
  obtain ⟨u, hrun, hpu, -⟩ := buildWhole s hi hu hp hs
  have hend : u.phase ≠ .build := by
    rw [hpu]
    split <;> nofun
  have hstart : InStep s s' := ⟨hs'.trans hs.symm, by rw [hs]; trivial⟩
  have hreach : ReachesIn _ s fun t => ∃ t', Leads s' t' ∧ SameArena t t' :=
    hq.exit (I := fun v => v.phase = .build ∧ Followed s' v) (fun v w hv hI he => hI.2.step hv hI.1 (by rwa [hI.1] at he))
      ⟨hp, s', .refl s', ⟨hi', hu'⟩, hp', hc.symm, hstart⟩ hrun fun hI => hend hI.1
  obtain ⟨t, hl, -, -, t', hl', hsame⟩ := hreach.leads
  refine ⟨t, t', hl, hl', hsame.phase, hsame.phase', hsame.stage, hsame.stage', hsame.root, fun n => ?_⟩
  obtain ⟨hw, hch⟩ := hsame.nodes.all n
  exact ⟨hw.symm, hch.symm⟩

end Sys2Proof.Machine
end

section
/-!
PROOFS. CODEGEN and its codes (43_code_table.md R130 to R132): one call of `visit` as an exact next state, no code begins
another and every bit sequence begins with one, and a COMPRESS comes from BUILD to PACK with the codes of its table.
-/
namespace Sys2Proof.Machine

variable {s t : State} {F : Counts} {tr : Tree} {n : BitVec 9} {p q : List Bool} {u v : Byte}
  {rest : List (BitVec 9 × List Bool)}

/-! ### One call of `visit` -/

/-- The next call of `visit`: the root's at the start, else the first pending one (R130). -/
theorem execCodegen_eq_visitNode
    (h : s.stage = .entry ∧ n = s.work.root ∧ p = [] ∧ rest = [] ∨ s.stage = .visit ((n, p) :: rest)) :
    execCodegen s = visitNode n p rest s := by
  unfold execCodegen
  obtain ⟨hs, rfl, rfl, rfl⟩ | hs := h <;> rw [hs]

theorem visitNode_leaf (hn : n.toNat < 256) (hp : p.length ≤ 255) :
    visitNode n p rest s = .next (afterVisit rest (recordCode (n.setWidth 8) p s)) := by
  rw [visitNode, if_pos hn, if_pos hp]

theorem visitNode_node {l r : BitVec 9} (hn : 256 ≤ n.toNat) (hc : s.tab.node.children? n = some (l, r)) :
    visitNode n p rest s = .next { s with stage := .visit ((l, p ++ [false]) :: (r, p ++ [true]) :: rest) } := by
  rw [visitNode, if_neg (Nat.not_lt.2 hn), hc]
  rfl

theorem afterVisit_eq (todo : List (BitVec 9 × List Bool)) (s : State) : afterVisit todo s = { s with
    phase := if todo = [] then .pack else s.phase
    stage := if todo = [] then .entry else .visit todo } := by
  cases todo <;> rfl

/-- Settles O40: the call is `visitNode`; a leaf's code is one entry of `CODE`, an internal node's children are the next
two calls. -/
theorem codegenStep : Obligations.CodegenStep := by
  intro s n path rest hs
  have hexec : exec .codegen s = visitNode n path rest s := execCodegen_eq_visitNode hs
  refine ⟨fun hn hpath => ?_, fun l r hn hc => hexec.trans (visitNode_node hn hc)⟩
  refine ⟨_, hexec.trans (visitNode_leaf hn hpath), ?_⟩
  rw [afterVisit_eq]
  refine ⟨rfl, ?_, ?_, fun v hv => ?_⟩
  · simp only [recordCode, Table.entry_withEntry_same, BitVec.toNat_ofNat]
    exact Nat.mod_eq_of_lt (Nat.lt_succ_of_le hpath)
  · simp only [recordCode, Table.entry_withEntry_same]
  · refine Table.entry_withEntry_other _ _ fun e => hv ?_
    rw [e, entryIndex_toNat hn]

/-! ### No code begins another, every bit sequence begins with one -/

/-- A walk ends at the first leaf: no way to a leaf goes on from another. -/
theorem Tree.eq_nil_of_leafAt_append (h : tr.leafAt p = some u) (h' : tr.leafAt (p ++ q) = some v) : q = [] := by
  induction tr, p using Tree.leafAt.induct with
  | case1 w =>
    cases q with
    | nil => rfl
    | cons x q => cases h'
  | case2 l r p ih => exact ih h h'
  | case3 l r p ih => exact ih h h'
  | case4 => simp [Tree.leafAt] at h

/-- Every infinite bit sequence comes to a leaf (R132). -/
theorem Tree.exists_leafAt_of_sequence (tr : Tree) (x : Nat → Bool) :
    ∃ k v, tr.leafAt ((List.range k).map x) = some v := by
  induction tr generalizing x with
  | leaf v => exact ⟨0, v, rfl⟩
  | node l r ihl ihr =>
    have hcons (k : Nat) : (List.range (k + 1)).map x = x 0 :: (List.range k).map fun i => x (i + 1) := by
      rw [List.range_succ_eq_map, List.map_cons, List.map_map]
      rfl
    cases hx : x 0 with
    | false =>
      obtain ⟨k, v, hv⟩ := ihl fun i => x (i + 1)
      exact ⟨k + 1, v, by rw [hcons, hx]; exact hv⟩
    | true =>
      obtain ⟨k, v, hv⟩ := ihr fun i => x (i + 1)
      exact ⟨k + 1, v, by rw [hcons, hx]; exact hv⟩

theorem code_injective (F : Counts) : Function.Injective (code F) := fun u v h =>
  Option.some.inj ((tree_leafAt_code F u).symm.trans ((congrArg _ h).trans (tree_leafAt_code F v)))

theorem eq_of_code_isPrefix (h : code F u <+: code F v) : u = v := by
  obtain ⟨q, hq⟩ := h
  have hv := tree_leafAt_code F v
  rw [← hq] at hv
  rw [Tree.eq_nil_of_leafAt_append (tree_leafAt_code F u) hv, List.append_nil] at hq
  exact code_injective F hq

/-- Of two beginnings of one bit sequence the longer one begins with the shorter one. -/
theorem map_range_isPrefix (x : Nat → Bool) {m n : Nat} (h : m ≤ n) : (List.range m).map x <+: (List.range n).map x := by
  obtain ⟨k, rfl⟩ := Nat.exists_eq_add_of_le h
  rw [List.range_add, List.map_append]
  exact ⟨_, rfl⟩

/-- Settles O42: a code is a way to a leaf of the tree, so it ends where a walk ends, and every walk ends at some code. -/
theorem prefixFreeAndComplete : Obligations.PrefixFreeAndComplete := by
  intro F
  refine ⟨fun u v hne hpre => hne (eq_of_code_isPrefix hpre), fun x => ?_⟩
  obtain ⟨k, v, hv⟩ := (tree F).exists_leafAt_of_sequence x
  have hcode : code F v = (List.range k).map x := code_of_leafAt hv
  refine ⟨v, ?_, fun u hu => ?_⟩
  · simp only [hcode, List.length_map, List.length_range]
  · obtain hle | hle := Nat.le_total (code F u).length k
    · exact eq_of_code_isPrefix (by rw [hu, hcode]; exact map_range_isPrefix x hle)
    · exact (eq_of_code_isPrefix (by rw [hu, hcode]; exact map_range_isPrefix x hle)).symm

/-! ### From BUILD to PACK -/

/-- A phase is known by its instruction: the code of its word is the phase's own (R69). -/
theorem Phase.instr_injective : Function.Injective Phase.instr := fun a b h => by
  have ha := (encode_of_decode (decode_phase a)).2
  rw [h, (encode_of_decode (decode_phase b)).2] at ha
  have hcode : b.code = a.code := CodeWord.phase.inj ha
  exact Option.some.inj ((ofCode_code a).symm.trans (hcode ▸ ofCode_code b))

theorem exec_freq {i : Instr} (h : exec i s = .next t) : t.tab.freq = s.tab.freq ∨ i = .count ∨ i = .loadhdr := by
  obtain ⟨-, -, -, -, -, -, -, -, -, -, -, -, -, -, -, -, -, hfreq, -⟩ := workingStateWrittenBy i s t h
  exact hfreq

/-- The operation is past the phases that write `FREQ` (R23). -/
structure PastFreq (s : State) : Prop where
  count : s.phase ≠ .count
  loadhdr : s.phase ≠ .loadhdr

theorem PastFreq.of_phase {q : Phase} (h : t.phase = q) (hc : q ≠ .count) (hl : q ≠ .loadhdr) : PastFreq t :=
  ⟨h ▸ hc, h ▸ hl⟩

/-- No phase goes on to one that writes `FREQ` (R86, R87). -/
theorem LeavesTo.pastFreq {q : Phase} (h : LeavesTo s q t) : PastFreq t := by
  have idle (hi : t.phase = .idle) : PastFreq t := .of_phase hi nofun nofun
  cases q with
  | idle => exact h.elim
  | count | emithdr | codegen | pack => exact .of_phase h nofun nofun
  | build =>
    rw [LeavesTo] at h
    split at h <;> exact .of_phase h nofun nofun
  | loadhdr | rdtrailer | unpack =>
    obtain h | ⟨hi, -⟩ := h
    · exact .of_phase h nofun nofun
    · exact idle hi
  | finish => exact idle h.1
  | endcheck =>
    obtain ⟨hi, -⟩ | ⟨e, hi, -⟩ := h <;> exact idle hi

theorem PastFreq.step (h : PastFreq s) (he : exec s.phase.instr s = .next t) :
    PastFreq t ∧ t.tab.freq = s.tab.freq := by
  constructor
  · obtain hsame | hleft := exec_phase_next he
    · exact .of_phase hsame h.count h.loadhdr
    · exact hleft.pastFreq
  · refine (exec_freq he).resolve_right ?_
    rintro (hi | hi)
    · exact h.count (Phase.instr_injective (a₂ := .count) hi)
    · exact h.loadhdr (Phase.instr_injective (a₂ := .loadhdr) hi)

/-- An undisturbed run past COUNT and LOADHDR leaves `FREQ`. -/
theorem PastFreq.freq_of_leads (h : PastFreq s) (hq : Quiet s) (hl : Leads s t) : t.tab.freq = s.tab.freq := by
  obtain ⟨k, hk⟩ := hl
  induction k generalizing s with
  | zero =>
    cases hk
    rfl
  | succ k ih =>
    obtain ⟨u, he, hst, hqu, -⟩ := hq.step
    obtain ⟨hu, hfreq⟩ := h.step he
    rw [runFor_succ k hst] at hk
    exact (ih hu hqu hk).trans hfreq

/-- Settles O41: BUILD, EMITHDR and CODEGEN one after the other; the rest is the invariant at PACK. -/
theorem codesOfTheTable : Obligations.CodesOfTheTable := by
  intro s hinv hu hp hs hop hsum
  have hq : Quiet s := ⟨hinv, hu⟩
  obtain ⟨b, hlb, hqb, -, hbuilt⟩ := (build_reaches hq hp hs hsum).leads
  obtain ⟨tr, htr, hreads⟩ := hbuilt.tree
  have hpb : b.phase = .emithdr := by rw [hbuilt.phase, if_pos hop]
  obtain ⟨e, hle, hqe, -, hframe, hpe, hse, -⟩ := (emithdr_reaches hqb hpb hbuilt.stage).leads
  rw [← hframe.node, ← hframe.root] at hreads
  obtain ⟨t, hlt, hqt, -, hcoded⟩ := (codegen_reaches hqe hpe hse htr hreads).leads
  have hl : Leads s t := (hlb.trans hle).trans hlt
  have hpt : t.phase = .pack := hcoded.phase
  have hpos := hqt.inv.position
  simp only [PositionOk, hpt, hcoded.stage] at hpos
  have hpast : PastFreq s := ⟨by rw [hp]; nofun, by rw [hp]; nofun⟩
  have hcmd : SameCommand s t :=
    hq.sameCommand hqt (hq.keeps_of_leads hl) (by rw [hp]; nofun) (by rw [hpt]; nofun)
  refine ⟨t, hl, hpt, hcoded.stage, hpos, hpast.freq_of_leads hq hl, hcmd, fun v => ⟨hcoded.codes v, ?_⟩⟩
  rw [hqt.inv.code_len v, hcoded.codes v]

end Sys2Proof.Machine
end

section
/-!
PROOFS. PACK and FINISH, one step as an exact next state (44_encoder.md R140 to R143), and the packed stream as bits,
padding and trailer (R144, R147, R148).
-/
namespace Sys2Proof.Machine

variable {s : State}

/-! ### PACK -/

theorem packStart_eq (s : State) : packStart s = { s with
    work.acc := 0, work.free := 8, work.pos := 0
    phase := if s.inLen = 0 then .finish else s.phase
    stage := if s.inLen = 0 then .entry else .fetch } := by
  unfold packStart
  split <;> rfl

theorem pushInto_eq_ofNat (acc : Byte) (bit : Bool) :
    pushInto acc bit = BitVec.ofNat 8 (2 * acc.toNat + bit.toNat) := by
  have hdisjoint : acc <<< 1 &&& (BitVec.ofBool bit).setWidth 8 = 0#8 := by
    ext i hi
    cases i <;> simp
  have hbit : ((BitVec.ofBool bit).setWidth 8 : Byte).toNat = bit.toNat := by cases bit <;> rfl
  rw [pushInto, ← BitVec.add_eq_or_of_and_eq_zero _ _ hdisjoint]
  bv_omega

/-- PUSHBIT waits for the output port only where it flushes (R141). -/
theorem packPush_eq {bit : Bool} (ha : s.work.free = 0 → s.outside.outAccepts = true)
    (hb : (s.tab.code.entry s.work.byte).bits[s.work.cidx.toNat]? = some bit) :
    packPush s = .next (packNextBit (shiftAcc bit (makeRoom s))) := by
  simp only [packPush, hb]
  unfold pushBit makeRoom
  split
  · next hf => exact whenAccepted_of_accepts _ (ha hf)
  · rfl

theorem makeRoom_full (hf : s.work.free = 0) : makeRoom s = flushAcc s := if_pos hf

theorem makeRoom_of_room (hf : s.work.free ≠ 0) : makeRoom s = s := if_neg hf

theorem makeRoom_acc (s : State) : (makeRoom s).work.acc = s.work.acc := by rw [makeRoom_eq]

theorem packNextByte_eq (s : State) : packNextByte s = { s with
    work.pos := s.work.pos + 1
    phase := if s.work.pos.toNat + 1 < s.inLen.toNat then s.phase else .finish
    stage := if s.work.pos.toNat + 1 < s.inLen.toNat then .fetch else .entry } := by
  unfold packNextByte
  split <;> rfl

/-- The loop tests move the sequencer and count; they leave the rest. -/
theorem packNextBit_eq (s : State) : packNextBit s = { s with
    phase := (packNextBit s).phase, stage := (packNextBit s).stage
    work.cidx := (packNextBit s).work.cidx, work.pos := (packNextBit s).work.pos } := by
  unfold packNextBit
  split
  · rfl
  · rw [packNextByte_eq]

/-- Where the loop tests after a PUSHBIT lead (R142): the next bit of the code, the next input byte, or FINISH. -/
structure GoesOn (s t : State) : Prop where
  bit : s.work.cidx.toNat + 1 < (s.tab.code.entry s.work.byte).len.toNat →
    t.work.cidx = s.work.cidx + 1 ∧ t.work.pos = s.work.pos ∧ t.phase = s.phase ∧ t.stage = .push
  byte : (s.tab.code.entry s.work.byte).len.toNat ≤ s.work.cidx.toNat + 1 →
    t.work.cidx = s.work.cidx ∧ t.work.pos = s.work.pos + 1 ∧
    (s.work.pos.toNat + 1 < s.inLen.toNat → t.phase = s.phase ∧ t.stage = .fetch) ∧
    (s.inLen.toNat ≤ s.work.pos.toNat + 1 → t.phase = .finish ∧ t.stage = .entry)

theorem packNextBit_goesOn (s : State) : GoesOn s (packNextBit s) where
  bit h := by
    rw [packNextBit, if_pos h]
    exact ⟨rfl, rfl, rfl, rfl⟩
  byte h := by
    rw [packNextBit, if_neg (Nat.not_lt.2 h), packNextByte_eq]
    exact ⟨rfl, rfl, fun hlt => ⟨if_pos hlt, if_pos hlt⟩,
      fun hge => ⟨if_neg (Nat.not_lt.2 hge), if_neg (Nat.not_lt.2 hge)⟩⟩

/-- PUSHBIT leaves what the loop tests read. -/
theorem pushed_goesOn (bit : Bool) (s : State) : GoesOn s (packNextBit (shiftAcc bit (makeRoom s))) := by
  have h := packNextBit_goesOn (shiftAcc bit (makeRoom s))
  rw [makeRoom_eq] at h ⊢
  exact ⟨h.bit, h.byte⟩

/-- What PUSHBIT does to the accumulator and the output (R141). -/
structure Pushed (bit : Bool) (s t : State) : Prop where
  acc : t.work.acc = BitVec.ofNat 8 (2 * s.work.acc.toNat + bit.toNat)
  room : s.work.free ≠ 0 → t.work.free = s.work.free - 1 ∧ t.outside = s.outside ∧ t.outCnt = s.outCnt
  flush : s.work.free = 0 → t.work.free = 7 ∧ t.outCnt = s.outCnt + 1 ∧
    t.outside = { s.outside with out := s.outside.out.write s.outCnt.toNat s.work.acc }
  work : t.work = { s.work with
    acc := t.work.acc, free := t.work.free, cidx := t.work.cidx, pos := t.work.pos }

theorem packNextBit_pushed (bit : Bool) (s : State) : Pushed bit s (packNextBit (shiftAcc bit (makeRoom s))) := by
  rw [packNextBit_eq]
  refine ⟨?_, fun hf => ?_, fun hf => ?_, ?_⟩
  · show pushInto (makeRoom s).work.acc bit = _
    rw [makeRoom_acc, pushInto_eq_ofNat]
  · rw [makeRoom_of_room hf]
    exact ⟨rfl, rfl, rfl⟩
  · rw [makeRoom_full hf]
    exact ⟨show (8 : BitVec 4) - 1 = 7 by decide, rfl, rfl⟩
  · rw [makeRoom_eq]
    rfl

/-- Settles O43: the start, the `InByte`, and PUSHBIT followed by the loop tests. -/
theorem packStep : Obligations.PackStep := by
  refine fun s b bit => ⟨fun hs => ?_, fun hs hlt ha hb hne => ?_, fun hs ha hb => ?_⟩
  · simp only [exec, execPack, hs, packStart_eq]
  · subst hb
    simp only [exec, execPack, hs, packFetch_eq hlt ha]
    rw [fetched, if_neg hne]
    rfl
  · have he : exec .pack s = .next (packNextBit (shiftAcc bit (makeRoom s))) := by
      simp only [exec, execPack, hs, packPush_eq ha hb]
    obtain ⟨hacc, hroom, hflush, hwork⟩ := packNextBit_pushed bit s
    have hframe := (shiftAcc_makeRoom_outputOnly s bit).trans (packNextBit_outputOnly _)
    have hgo := pushed_goesOn bit s
    exact ⟨_, he, hacc, hroom, hflush, hwork, hgo.bit, hgo.byte, hframe.tab, hframe.command⟩

/-! ### FINISH -/

theorem shiftLeft_eq_ofNat (x : Byte) (n : Nat) : x <<< n = BitVec.ofNat 8 (x.toNat * 2 ^ n) :=
  BitVec.eq_of_toNat_eq (by rw [BitVec.toNat_shiftLeft, BitVec.toNat_ofNat, Nat.shiftLeft_eq])

theorem trailerByte_of_le {free : BitVec 4} (h : free.toNat ≤ 7) : trailerByte free = free.setWidth 8 := by
  rw [trailerByte_eq, Nat.mod_eq_of_lt (Nat.lt_succ_of_le h), BitVec.ofNat_toNat]

/-- Settles O44: the last data byte is `ACC` shifted by `FREE`, and with `FREE` = 8 the trailer comes at once. -/
theorem finishStep : Obligations.FinishStep := by
  refine fun s ha => ⟨fun hs => ?_, fun hs hle => ?_⟩
  · have he : exec .finish s = finishData s := by simp only [exec, execFinish, hs]
    rw [he]
    refine ⟨fun h8 => ?_, fun h0 => ?_, fun h1 h7 a hacc => ?_⟩
    · rw [finishData, if_pos h8, finishTrailer_eq ha, h8]
      simp only [State.outByte, State.complete, hs]
      rfl
    · rw [finishData, if_neg (by rw [h0]; decide), if_pos h0, whenAccepted_of_accepts _ ha]
      rfl
    · have hne : s.work.free ≠ 8 := fun h8 => by simp [h8] at h7
      rw [finishData_eq ha hne, hacc, shiftLeft_eq_ofNat]
      rfl
  · simp only [exec, execFinish, hs]
    rw [finishTrailer_eq ha, trailerByte_of_le hle]
    rfl

/-! ### The packed stream -/

/-- R147: each input byte gives 1 to 255 code bits. -/
theorem codeBits_length (F : Counts) (b : List Byte) :
    b.length ≤ (b.flatMap (code F)).length ∧ (b.flatMap (code F)).length ≤ 255 * b.length := by
  induction b with
  | nil => exact ⟨Nat.le_refl _, Nat.le_refl _⟩
  | cons v b ih =>
    have hpos := code_length_pos F v
    have hle := code_length_le F v
    rw [List.flatMap_cons, List.length_append, List.length_cons]
    omega

/-- Settles O46: the body is `packedBody` of the code bits. -/
theorem packedStream : Obligations.PackedStream := by
  rintro b F c rfl
  have hlen := packedBody_length (b.flatMap (code F))
  have hpad := padding_le (b.flatMap (code F)).length
  exact ⟨packedBody _, packBits_eq _, bitsOf_packedBody _, by omega, codeBits_length F b⟩

end Sys2Proof.Machine
end

section
/-!
PROOFS. RDTRAILER, UNPACK and ENDCHECK, one step as an exact next state (45_decoder.md R161 to R166), and `unwalk` as what a
run of UNPACK computes and as what undoes the codes (R171).
-/
namespace Sys2Proof.Machine

variable {s : State} {n : BitVec 9}

/-! ### The moves to another phase from its entry position -/

theorem goto_of_entry (hs : s.stage = .entry) (p : Phase) : s.goto p = { s with phase := p } := by
  rw [State.goto, ← hs]

theorem complete_of_entry (hs : s.stage = .entry) : s.complete = { s with done := true, phase := .idle } := by
  rw [State.complete, ← hs]

theorem raise_of_entry (hs : s.stage = .entry) (e : ErrCode) : s.raise e = { s with
    err := true, done := false, errcode := e.code.setWidth 32, phase := .idle } := by
  rw [State.raise, ← hs]

/-! ### RDTRAILER -/

theorem dataLength_eq_ofNat {len : Word} (h : 1025 ≤ len.toNat) :
    dataLength len = BitVec.ofNat 32 (len.toNat - 1025) := by
  rw [← dataLength_toNat h, BitVec.ofNat_toNat, BitVec.setWidth_eq]

theorem dataLength_eq_zero {len : Word} (h : 1025 ≤ len.toNat) : dataLength len = 0 ↔ len.toNat = 1025 := by
  rw [← BitVec.toNat_inj, dataLength_toNat h]
  show len.toNat - 1025 = 0 ↔ _
  omega

/-- The state with the trailer byte `p` and the data length taken (R161). -/
def trailerTaken (p : Byte) (s : State) : State :=
  { s with work.padreg := p, work.dlen := BitVec.ofNat 32 (s.inLen.toNat - 1025) }

/-- The trailer byte is read and checked (R161); one test stands for the two, which raise the same error. -/
theorem readTrailer_of_answers (hlen : 1025 ≤ s.inLen.toNat) (ha : s.outside.inAnswers = true) {p : Byte}
    (hp : p = s.outside.inp.read (s.inLen.toNat - 1)) :
    readTrailer s = .next (if 7 < p.toNat ∨ s.inLen.toNat = 1025 ∧ p ≠ 0 then (trailerTaken p s).raise .pad
      else (trailerTaken p s).goto .unpack) := by
  have hlast : (s.inLen - 1).toNat = s.inLen.toNat - 1 := by bv_omega
  rw [readTrailer, inByte_of_answers _ ha (by omega), hlast, ← hp]
  simp only [dataLength_eq_zero hlen]
  rw [dataLength_eq_ofNat hlen]
  by_cases h7 : 7 < p.toNat
  · rw [if_pos h7, if_pos (.inl h7)]
    rfl
  · rw [if_neg h7, ← apply_ite Host.Outcome.next]
    simp only [h7, false_or]
    rfl

/-- Settles O47: the two tests of the trailer byte decide between UNPACK and `E_PAD`. -/
theorem rdtrailerStep : Obligations.RdtrailerStep := by
  intro s p hs hlen ha hp
  have he : exec .rdtrailer s = readTrailer s := by simp only [exec, execRdtrailer, hs]
  rw [he, readTrailer_of_answers hlen ha hp]
  refine ⟨fun h7 hdata => ?_, fun hbad => ?_⟩
  · have hok : ¬(7 < p.toNat ∨ s.inLen.toNat = 1025 ∧ p ≠ 0) := by
      rintro (hgt | ⟨hempty, hne⟩)
      · exact absurd h7 (Nat.not_le.2 hgt)
      · exact hdata.elim (· hempty) hne
    rw [if_neg hok, goto_of_entry (s := trailerTaken p s) hs]
    rfl
  · rw [if_pos hbad, raise_of_entry (s := trailerTaken p s) hs]
    rfl

/-! ### UNPACK, the start and an `InByte` -/

theorem unpackStart_eq (s : State) : unpackStart s = { s with
    work.cur := s.work.root, work.pos := 0
    phase := if s.work.dlen = 0 then .endcheck else s.phase
    stage := if s.work.dlen = 0 then .entry else .fetch } := by
  unfold unpackStart
  split <;> rfl

theorem bitsToWalk_eq {pos dlen : Word} {p : Byte} (hlt : pos.toNat < dlen.toNat) (hp : p.toNat ≤ 7) :
    bitsToWalk pos dlen p = if pos.toNat + 1 = dlen.toNat then BitVec.ofNat 4 (8 - p.toNat) else 8 := by
  refine BitVec.eq_of_toNat_eq ?_
  rw [bitsToWalk_toNat hlt hp]
  split
  · rw [BitVec.toNat_ofNat, Nat.mod_eq_of_lt (by omega)]
  · rfl

/-- With at most 7 padding bits no data byte is skipped (R163). -/
theorem unpackFetch_eq (ha : s.outside.inAnswers = true) (haddr : 1024 + s.work.pos.toNat < s.inLen.toNat)
    (hp : s.work.padreg.toNat ≤ 7) : unpackFetch s = .next { s with
      work.byte := s.outside.inp.read (1024 + s.work.pos.toNat)
      work.bcnt := bitsToWalk s.work.pos s.work.dlen s.work.padreg
      stage := .walk } := by
  have hsome : bitsToWalk s.work.pos s.work.dlen s.work.padreg ≠ 0 := fun h0 => by
    have hrange := bitsToWalk_range (pos := s.work.pos) (dlen := s.work.dlen) hp
    rw [h0] at hrange
    exact absurd hrange.1 (by decide)
  rw [unpackFetch, inByte_of_answers _ ha haddr]
  exact if_neg hsome

/-- Settles O48: the start and the `InByte`. -/
theorem unpackStep : Obligations.UnpackStep := by
  refine fun s b => ⟨fun hs => ?_, fun hs hlt haddr hp ha hb => ?_⟩
  · simp only [exec, execUnpack, hs, unpackStart_eq]
  · simp only [exec, execUnpack, hs, unpackFetch_eq ha haddr hp, bitsToWalk_eq hlt hp, hb]

/-! ### UNPACK, a WALK -/

theorem unpackNextByte_eq (s : State) : unpackNextByte s = { s with
    work.pos := s.work.pos + 1
    phase := if s.work.pos.toNat + 1 < s.work.dlen.toNat then s.phase else .endcheck
    stage := if s.work.pos.toNat + 1 < s.work.dlen.toNat then .fetch else .entry } := by
  unfold unpackNextByte
  split <;> rfl

/-- After a WALK (R163): the next bit of `BYTE`, the next data byte, or ENDCHECK. -/
theorem unpackShift_eq (s : State) : unpackShift s = { s with
    work.byte := BitVec.ofNat 8 (2 * s.work.byte.toNat)
    work.bcnt := s.work.bcnt - 1
    work.pos := if s.work.bcnt = 1 then s.work.pos + 1 else s.work.pos
    phase := if s.work.bcnt = 1 ∧ s.work.dlen.toNat ≤ s.work.pos.toNat + 1 then .endcheck else s.phase
    stage := if s.work.bcnt = 1 then
        if s.work.dlen.toNat ≤ s.work.pos.toNat + 1 then .entry else .fetch
      else .walk } := by
  have hbyte : s.work.byte <<< 1 = BitVec.ofNat 8 (2 * s.work.byte.toNat) := by
    rw [shiftLeft_eq_ofNat, Nat.pow_one, Nat.mul_comm]
  rw [unpackShift, hbyte]
  split
  · next hlast =>
    rw [unpackNextByte_eq]
    simp only [hlast, true_and, ← Nat.not_lt, ite_not]
  · next hmore => simp only [hmore, false_and, if_false]

/-- The state that WALK leaves to the shift, when it has come to the child `n` and does not raise (R164, R165). -/
def walkedTo (n : BitVec 9) (s : State) : State :=
  if n.toNat < 256 then { s.outByte (n.setWidth 8) with work.cur := s.work.root } else { s with work.cur := n }

/-- WALK comes to the right child for a 1 in `BYTE[7]`, to the left child for a 0 (R164). -/
theorem walkBit_eq {l r : BitVec 9} (hc : s.tab.node.children? s.work.cur = some (l, r))
    (hn : n = if s.work.byte.getLsbD 7 then r else l) :
    walkBit s = if n.toNat < 256 then leaf n s else .next (unpackShift { s with work.cur := n }) := by
  rw [walkBit, hc, hn]
  simp only [BitVec.msb_eq_getLsbD_last]
  rfl

theorem leaf_full (h : s.outCnt = s.work.sum) : leaf n s = .next (State.raise { s with work.cur := n } .excess) :=
  if_pos h

/-- Only a leaf that is emitted waits for the output port (R165). -/
theorem walkBit_walkedTo {l r : BitVec 9} (hc : s.tab.node.children? s.work.cur = some (l, r))
    (hn : n = if s.work.byte.getLsbD 7 then r else l)
    (ha : n.toNat < 256 → s.outCnt ≠ s.work.sum ∧ s.outside.outAccepts = true) :
    walkBit s = .next (unpackShift (walkedTo n s)) := by
  rw [walkBit_eq hc hn, walkedTo]
  split
  · next hleaf =>
    obtain ⟨hroom, hacc⟩ := ha hleaf
    rw [leaf, if_neg hroom, whenAccepted_of_accepts _ hacc]
  · rfl

/-- WALK writes `CUR` and one byte of the output at most. -/
theorem walkedTo_eq (n : BitVec 9) (s : State) : walkedTo n s = { s with
    work.cur := if n.toNat < 256 then s.work.root else n
    outCnt := (walkedTo n s).outCnt
    outside := (walkedTo n s).outside } := by
  unfold walkedTo
  split <;> rfl

/-- Settles O49: WALK raises, or it leaves `walkedTo` to the shift and the loop test. -/
theorem walkStep : Obligations.WalkStep := by
  intro s l r n hs hc hn ha
  have he : exec .unpack s = walkBit s := by simp only [exec, execUnpack, hs]
  rw [he]
  refine ⟨fun hleaf hfull => ?_, fun hgo => ?_⟩
  · rw [walkBit_eq hc hn, if_pos hleaf, leaf_full hfull]
    rfl
  · have hroom (hleaf : n.toNat < 256) : s.outCnt ≠ s.work.sum := hgo.resolve_left (Nat.not_le.2 hleaf)
    refine ⟨_, walkBit_walkedTo hc hn fun hleaf => ⟨hroom hleaf, ha hleaf (hroom hleaf)⟩, ?_⟩
    rw [unpackShift_eq, walkedTo_eq]
    refine ⟨rfl, fun hnode => ?_, fun hleaf => ?_, fun hmore => ?_, fun hlast hlt => ?_, fun hlast hge => ?_, rfl,
      ⟨rfl, rfl, rfl, rfl, rfl⟩⟩
    · rw [walkedTo, if_neg (Nat.not_lt.2 hnode)]
      exact ⟨rfl, rfl⟩
    · rw [walkedTo, if_pos hleaf]
      exact ⟨rfl, rfl⟩
    · exact ⟨if_neg fun h => hmore h.1, if_neg hmore⟩
    · exact ⟨if_neg fun h => Nat.not_lt.2 h.2 hlt, (if_pos hlast).trans (if_neg (Nat.not_le.2 hlt))⟩
    · exact ⟨if_pos ⟨hlast, hge⟩, (if_pos hlast).trans (if_pos hge)⟩

/-! ### ENDCHECK -/

/-- Settles O50: the two checks in their order. -/
theorem endcheckStep : Obligations.EndcheckStep := by
  intro s hs
  have he : exec .endcheck s = .next (endCheck s) := by simp only [exec, execEndcheck, hs]
  rw [he, endCheck]
  refine ⟨fun hcur => ?_, fun hcur hcnt => ?_, fun hcur hcnt => ?_⟩
  · rw [if_pos hcur, raise_of_entry hs]
    rfl
  · rw [if_neg (not_not.2 hcur), if_pos hcnt, raise_of_entry hs]
    rfl
  · rw [if_neg (not_not.2 hcur), if_neg (not_not.2 hcnt), complete_of_entry hs]

/-! ### `unwalk` -/

/-- Settles O51: the run of `unpack_reaches`, which `Keeps` its command. -/
theorem unpackUnwalks : Obligations.UnpackUnwalks := by
  intro s t0 hinv hu hp hs hr
  obtain ⟨t, hl, -, hkeeps, htab, hends⟩ := (unpack_reaches ⟨hinv, hu⟩ hp hs hr).leads
  exact ⟨t, hl, hends, htab, hkeeps.op, hkeeps.inLen⟩

/-- Settles O52: the walk of the codes from the root, with nothing out yet. -/
theorem unwalkInvertsCodes : Obligations.UnwalkInvertsCodes :=
  fun F _ => unwalkFrom_codes F (Nat.zero_add _)

end Sys2Proof.Machine
end

section
/-!
PROOFS. The errors (60_exceptions.md R181, R190, R192): where each code is raised, under which condition, and what the raise
leaves unchanged.
-/
namespace Sys2Proof.Machine

variable {s t : State} {e : ErrCode} {cond : Work → Prop} {w : Word} {rest sc : List HostMove}

/-! ### What each phase can raise -/

/-- `t` is `s` after `raise e` (R190), but for working registers and tables written in the same step; `cond` holds of the
working registers left. -/
def RaisesAs (s : State) (e : ErrCode) (cond : Work → Prop) (t : State) : Prop :=
  ∃ work tab, t = State.raise { s with work := work, tab := tab } e ∧ cond work

/-- LOADHDR: the sum read is over the bound (R105). -/
def SumRaised (s : State) : State → Prop := RaisesAs s .sum fun w => Config.maxLen < w.sum.toNat

/-- RDTRAILER: the trailer is over 7, or not 0 with no data byte before it (R161). -/
def PadRaised (s : State) : State → Prop :=
  RaisesAs s .pad fun w => 7 < w.padreg.toNat ∨ w.dlen = 0 ∧ w.padreg ≠ 0

/-- UNPACK: at a leaf with all bytes out (R165). -/
def ExcessRaised (s : State) : State → Prop := RaisesAs s .excess fun w => s.outCnt = w.sum ∧ w.cur.toNat < 256

/-- ENDCHECK: inside a code (R166). -/
def TruncRaised (s t : State) : Prop := t = s.raise .trunc ∧ s.work.cur ≠ s.work.root

/-- ENDCHECK: at the root with another number of bytes out (R166). -/
def CountRaised (s t : State) : Prop := t = s.raise .count ∧ s.work.cur = s.work.root ∧ s.outCnt ≠ s.work.sum

/-- The next state, if there is one, has `ERR` as before or is one of `p`. -/
abbrev KeepsErrOr (s : State) (p : State → Prop) (r : Res) : Prop := Answers (fun t => t.err = s.err ∨ p t) (fun _ => True) r

theorem loadEntry_err (b0 b1 b2 b3 : Byte) (s : State) :
    (loadEntry b0 b1 b2 b3 s).err = s.err ∨ SumRaised s (loadEntry b0 b1 b2 b3 s) := by
  unfold loadEntry checkSum
  simp only
  split
  · exact .inl rfl
  split
  · next hsum => exact .inr ⟨_, _, rfl, hsum⟩
  · exact .inl rfl

theorem execLoadhdr_err (s : State) : KeepsErrOr s (SumRaised s) (execLoadhdr s) := by
  have read {a : Nat} {k : Byte → Res} : (∀ b, KeepsErrOr s (SumRaised s) (k b)) → KeepsErrOr s (SumRaised s) (inByte s a k) :=
    answers_inByte (.inl rfl) fun _ => trivial
  unfold execLoadhdr
  split
  · exact read fun _ => .inl rfl
  · unfold loadByte
    split
    · exact read fun _ => .inl rfl
    · exact read fun _ => .inl rfl
    · exact read fun _ => .inl rfl
    · exact read fun b => loadEntry_err _ _ _ b s
    · trivial
  · trivial

theorem execRdtrailer_err (s : State) : KeepsErrOr s (PadRaised s) (execRdtrailer s) := by
  unfold execRdtrailer
  split
  · refine answers_inByte (.inl rfl) (fun _ => trivial) fun b => ?_
    simp only
    split
    · next hpad => exact .inr ⟨_, _, rfl, .inl hpad⟩
    split
    · next hempty => exact .inr ⟨_, _, rfl, .inr hempty⟩
    · exact .inl rfl
  · trivial

theorem walkBit_err (s : State) : KeepsErrOr s (ExcessRaised s) (walkBit s) := by
  have shift (u : State) (hu : u.err = s.err) : (unpackShift u).err = s.err := by
    rw [unpackShift_eq]
    exact hu
  unfold walkBit leaf
  split
  · trivial
  · simp only
    split
    · next hleaf =>
      split
      · next hfull => exact .inr ⟨_, _, rfl, hfull, hleaf⟩
      · exact answers_whenAccepted (.inl rfl) (.inl (shift _ rfl))
    · exact .inl (shift _ rfl)

theorem execUnpack_err (s : State) : KeepsErrOr s (ExcessRaised s) (execUnpack s) := by
  unfold execUnpack
  split
  · rw [unpackStart_eq]
    exact .inl rfl
  · refine answers_inByte (.inl rfl) (fun _ => trivial) fun b => ?_
    simp only [unpackNextByte_eq]
    split <;> exact .inl rfl
  · exact walkBit_err s
  · trivial

theorem execEndcheck_err (s : State) : KeepsErrOr s (fun t => TruncRaised s t ∨ CountRaised s t) (execEndcheck s) := by
  unfold execEndcheck
  split
  · unfold endCheck
    simp only [Answers]
    split
    · next hcur => exact .inr (.inl ⟨rfl, hcur⟩)
    split
    · next hcur hcnt => exact .inr (.inr ⟨rfl, not_not.1 hcur, hcnt⟩)
    · exact .inl rfl
  · trivial

/-- What the sequencer's own step can raise (R181). -/
def RaisesIn (s : State) : Phase → State → Prop
  | .loadhdr => SumRaised s
  | .rdtrailer => PadRaised s
  | .unpack => ExcessRaised s
  | .endcheck => fun t => TruncRaised s t ∨ CountRaised s t
  | .idle | .count | .build | .emithdr | .codegen | .pack | .finish => fun _ => False

theorem exec_phase_err {q : Phase} (h : exec q.instr s = .next t) : t.err = s.err ∨ RaisesIn s q t := by
  have he := exec_effect h
  cases q with
  | loadhdr => exact (execLoadhdr_err s).next h
  | rdtrailer => exact (execRdtrailer_err s).next h
  | unpack => exact (execUnpack_err s).next h
  | endcheck => exact (execEndcheck_err s).next h
  | idle =>
    cases h
    exact .inl rfl
  | count =>
    obtain ⟨_, _, _, _, _, _, rfl⟩ := he
    exact .inl rfl
  | build =>
    obtain ⟨_, _, _, _, _, _, _, _, _, _, _, rfl⟩ := he
    exact .inl rfl
  | emithdr =>
    obtain ⟨_, _, _, _, _, rfl⟩ := he
    exact .inl rfl
  | codegen =>
    obtain ⟨_, _, _, rfl⟩ := he
    exact .inl rfl
  | pack =>
    obtain ⟨_, _, _, _, _, _, _, _, _, rfl⟩ := he
    exact .inl rfl
  | finish =>
    obtain ⟨_, _, _, _, _, rfl, rfl | rfl⟩ := he <;> exact .inl rfl

/-! ### The table -/

/-- The table of R181: where and when each code is raised, and the output written before. -/
def ErrorRow (s t : State) : ErrCode → Prop
  | .illcmd => s.phase = .idle ∧ t.outCnt = s.outCnt ∧ ∃ w rest, s.outside.script = wrCmd w :: rest ∧ 4 ≤ w.toNat
  | .toolarge => s.phase = .idle ∧ t.outCnt = 0 ∧ Config.maxLen < s.inLen.toNat ∧
      ∃ w rest, s.outside.script = wrCmd w :: rest ∧ (w = 1 ∨ w = 2)
  | .short => s.phase = .idle ∧ t.outCnt = 0 ∧ s.inLen.toNat < Config.minStream ∧ ∃ rest, s.outside.script = wrCmd 2 :: rest
  | .sum => s.phase = .loadhdr ∧ t.outCnt = 0 ∧ Config.maxLen < t.work.sum.toNat
  | .pad => s.phase = .rdtrailer ∧ t.outCnt = 0 ∧ (7 < t.work.padreg.toNat ∨ t.work.dlen = 0 ∧ t.work.padreg ≠ 0)
  | .excess => s.phase = .unpack ∧ t.outCnt = t.work.sum ∧ t.work.cur.toNat < 256
  | .trunc => s.phase = .endcheck ∧ t.outCnt.toNat ≤ t.work.sum.toNat ∧ t.work.cur ≠ t.work.root
  | .count => s.phase = .endcheck ∧ t.outCnt.toNat < t.work.sum.toNat ∧ t.work.cur = t.work.root

/-- The step from `s` to `t` raised `e`, as the table says (R181, R190). -/
structure Raised (s t : State) (e : ErrCode) : Prop where
  phase : t.phase = .idle
  done : t.done = false
  errcode : t.errcode = e.code.setWidth 32
  inLen : t.inLen = s.inLen
  out : t.outside.out = s.outside.out
  row : ErrorRow s t e

/-- An error shows in `t` that did not show in `s`. -/
def NewError (s t : State) : Prop := t.err = true ∧ (s.err = false ∨ t.errcode ≠ s.errcode)

theorem not_newError_of_eq (he : t.err = s.err) (hc : t.errcode = s.errcode) : ¬NewError s t := by
  rintro ⟨ht, hs | hne⟩
  · rw [← he, ht] at hs
    cases hs
  · exact hne hc

theorem not_newError_of_clear (h : t.err = false) : ¬NewError s t := fun ht => by
  rw [ht.1] at h
  cases h

/-! ### The three sources of a step -/

theorem RaisesAs.raised (h : RaisesAs (s.withScript sc) e cond t)
    (row : ∀ t : State, t.outCnt = s.outCnt → cond t.work → ErrorRow s t e) : Raised s t e := by
  obtain ⟨work, tab, rfl, hcond⟩ := h
  exact ⟨rfl, rfl, rfl, rfl, rfl, row _ rfl hcond⟩

theorem outCnt_of_loadhdr (h : Inv s) (hp : s.phase = .loadhdr) : s.outCnt = 0 := by
  have hpos := h.position
  cases hs : s.stage with
  | entry => simpa only [PositionOk, hp, hs] using hpos
  | load got =>
    simp only [PositionOk, hp, hs] at hpos
    exact hpos.1
  | _ => simp only [PositionOk, hp, hs] at hpos

theorem outCnt_of_rdtrailer (h : Inv s) (hp : s.phase = .rdtrailer) : s.outCnt = 0 := by
  have hpos := h.position
  cases hs : s.stage with
  | entry =>
    simp only [PositionOk, hp, hs] at hpos
    exact hpos.1
  | _ => simp only [PositionOk, hp, hs] at hpos

/-- At ENDCHECK no more bytes are out than the header promises (R165). -/
theorem outCnt_le_of_endcheck (h : Inv s) (hp : s.phase = .endcheck) : s.outCnt.toNat ≤ s.work.sum.toNat := by
  have hpos := h.position
  cases hs : s.stage with
  | entry =>
    simp only [PositionOk, hp, hs] at hpos
    exact hpos.2.2.bounded
  | _ => simp only [PositionOk, hp, hs] at hpos

/-- A raise of the sequencer's own step is a row of the table. -/
theorem RaisesIn.raised (h : Inv s) (hr : RaisesIn (s.withScript sc) s.phase t) : ∃ e, Raised s t e := by
  cases hp : s.phase <;> rw [hp] at hr
  case loadhdr =>
    exact ⟨_, RaisesAs.raised hr fun u hu hcond => ⟨hp, hu.trans (outCnt_of_loadhdr h hp), hcond⟩⟩
  case rdtrailer =>
    exact ⟨_, RaisesAs.raised hr fun u hu hcond => ⟨hp, hu.trans (outCnt_of_rdtrailer h hp), hcond⟩⟩
  case unpack =>
    exact ⟨_, RaisesAs.raised hr fun u hu ⟨hfull, hleaf⟩ => ⟨hp, hu.trans hfull, hleaf⟩⟩
  case endcheck =>
    have hle := outCnt_le_of_endcheck h hp
    obtain ⟨rfl, hcur⟩ | ⟨rfl, hcur, hcnt⟩ := hr
    · exact ⟨.trunc, rfl, rfl, rfl, rfl, rfl, hp, hle, hcur⟩
    · exact ⟨.count, rfl, rfl, rfl, rfl, rfl, hp, Nat.lt_of_le_of_ne hle (BitVec.toNat_ne.1 hcnt), hcur⟩
  all_goals exact hr.elim

/-- The sequencer's turn: IDLE changes nothing, and no flag is set while a phase runs (R194). -/
theorem turn_raises (h : Inv s) (he : exec s.phase.instr (s.withScript sc) = .next t) (hnew : NewError s t) :
    ∃ e, Raised s t e := by
  refine RaisesIn.raised h ((exec_phase_err he).resolve_left fun hsame => ?_)
  by_cases hp : s.phase = .idle
  · rw [hp] at he
    cases he
    exact not_newError_of_eq rfl rfl hnew
  · exact not_newError_of_clear (hsame.trans (h.busy_clear hp).2) hnew

theorem command_raises (hs : s.outside.script = wrCmd w :: rest)
    (he : exec (decodeCmd w) (s.withScript rest) = .next t) (hnew : NewError s t) : ∃ e, Raised s t e := by
  by_cases hdrop : s.phase ≠ .idle ∨ s.outside.rst = true
  · rw [exec_cmd_dropped (s := s.withScript rest) w hdrop] at he
    cases he
    exact absurd hnew (not_newError_of_eq rfl rfl)
  obtain ⟨hp, hr⟩ : s.phase = .idle ∧ s.outside.rst = false := by simpa using hdrop
  have toolarge (op : OpKind) (hw : w = 1 ∨ w = 2) (hlen : Config.maxLen < s.inLen.toNat) :
      Raised s (((s.withScript rest).clearFor op).raise .toolarge) .toolarge :=
    ⟨rfl, rfl, rfl, rfl, rfl, hp, rfl, hlen, w, rest, hs, hw⟩
  by_cases h0 : w = 0
  · subst h0
    have ht : s.withScript rest = t := Host.Outcome.next.inj ((nopChangesNothing _).symm.trans he)
    subst ht
    exact absurd hnew (not_newError_of_eq rfl rfl)
  by_cases h1 : w = 1
  · subst h1
    replace he := (execCompress_of_idle (s := s.withScript rest) hp hr).symm.trans he
    split at he
    · next hlen =>
      cases he
      exact ⟨_, toolarge _ (.inl rfl) hlen⟩
    · cases he
      exact absurd hnew (not_newError_of_clear rfl)
  by_cases h2 : w = 2
  · subst h2
    replace he := (execDecompress_of_idle (s := s.withScript rest) hp hr).symm.trans he
    split at he
    · next hlen =>
      cases he
      exact ⟨_, toolarge _ (.inr rfl) hlen⟩
    split at he
    · next hshort =>
      cases he
      exact ⟨.short, rfl, rfl, rfl, rfl, rfl, hp, rfl, hshort, rest, hs⟩
    · cases he
      exact absurd hnew (not_newError_of_clear rfl)
  by_cases h3 : w = 3
  · subst h3
    have ht := ((clearAcknowledges (s.withScript rest)).1 hp hr).symm.trans he
    cases ht
    exact absurd hnew (not_newError_of_clear rfl)
  · have hw : 4 ≤ w.toNat := reserved_iff.2 ⟨h0, h1, h2, h3⟩
    rw [decodeCmd_reserved hw] at he
    have ht : (s.withScript rest).raise .illcmd = t :=
      Host.Outcome.next.inj ((accepted_of_idle _ (s := s.withScript rest) hp hr).symm.trans he)
    subst ht
    exact ⟨.illcmd, rfl, rfl, rfl, rfl, rfl, hp, rfl, w, rest, hs, hw⟩

/-- A host move other than a command raises nothing. -/
theorem HostLeaves.not_newError (h : HostLeaves s t) : ¬NewError s t := by
  cases h with
  | outside => exact not_newError_of_eq rfl rfl
  | regWrite rest off v =>
    unfold State.regWrite
    split
    · split <;> exact not_newError_of_eq rfl rfl
    · exact not_newError_of_eq rfl rfl
  | reset => exact not_newError_of_clear rfl

theorem step_raises (h : Inv s) (he : step s = .next t) (hnew : NewError s t) : ∃ e, Raised s t e := by
  obtain ⟨sc, hf⟩ | ⟨w, rest, hs, -⟩ | ⟨u, e, hu⟩ | ⟨off, n, e, -⟩ := fetch_cases s
  · cases hr : s.outside.rst with
    | true =>
      rw [step_of_idle_turn (h.rst_idle hr) hf] at he
      cases he
      exact absurd hnew (not_newError_of_eq rfl rfl)
    | false => exact turn_raises h ((step_of_turn hr (decode_phase s.phase) hf).symm.trans he) hnew
  · exact command_raises hs ((step_of_wrCmd hs).symm.trans he) hnew
  · rw [step_of_fetch_moved e] at he
    cases he
    exact absurd hnew hu.not_newError
  · rw [step_of_fetch_moved e] at he
    cases he

/-- Settles O17: a new error comes from the sequencer's turn or a command, and each is a row of the table. -/
theorem errorTable : Obligations.ErrorTable := by
  intro s t h he herr hnew
  obtain ⟨e, hphase, hdone, hcode, hlen, hout, hrow⟩ := step_raises h he ⟨herr, hnew⟩
  refine ⟨hphase, hdone, hlen, hout, ?_⟩
  cases e with
  | illcmd => exact .inl ⟨hcode, hrow⟩
  | toolarge => exact .inr (.inl ⟨hcode, hrow⟩)
  | short => exact .inr (.inr (.inl ⟨hcode, hrow⟩))
  | sum => exact .inr (.inr (.inr (.inl ⟨hcode, hrow⟩)))
  | pad => exact .inr (.inr (.inr (.inr (.inl ⟨hcode, hrow⟩))))
  | excess => exact .inr (.inr (.inr (.inr (.inr (.inl ⟨hcode, hrow⟩)))))
  | trunc => exact .inr (.inr (.inr (.inr (.inr (.inr (.inl ⟨hcode, hrow⟩))))))
  | count => exact .inr (.inr (.inr (.inr (.inr (.inr (.inr ⟨hcode, hrow⟩))))))

end Sys2Proof.Machine
end

section
/-!
PROOFS. A COMPRESS never fails (60_exceptions.md R200): the errors of R181 are raised in IDLE or by a phase of DECOMPRESS,
and from any position of a COMPRESS the run comes to `done`: every phase lowers a measure of its own until it is left.
-/
namespace Sys2Proof.Machine

variable {s t : State} {v n : BitVec 9} {p : List Bool} {rest : List (BitVec 9 × List Bool)}

/-! ### No step raises -/

theorem compress_not_raised (h : Inv s) (hb : s.phase ≠ .idle) (hop : s.op = .comp) (he : step s = .next t) :
    t.err = false := by
  have hallows := h.op
  by_contra herr
  obtain ⟨e, -, -, -, -, -, hrow⟩ := step_raises h he ⟨eq_true_of_ne_false herr, .inl (h.busy_clear hb).2⟩
  cases e with
  | illcmd | toolarge | short => exact hb hrow.1
  | sum | pad | excess | trunc | count =>
    rw [hop, hrow.1] at hallows
    cases hallows

theorem compress_leaves (h : Inv s) (hb : s.phase ≠ .idle) (hop : s.op = .comp) (he : step s = .next t)
    (ht : t.phase = .idle) : t.done = true ∨ t.outside.rst = true := by
  obtain ⟨hi, -⟩ | ⟨-, horder⟩ | ⟨-, -, -, hdone, -⟩ | ⟨hd, -⟩ | ⟨hd, -⟩ | ⟨hd, -⟩ | ⟨-, hrst⟩ :=
    phaseOrder s t h he (fun e => hb (e.symm.trans ht))
  · exact absurd hi hb
  · simp [ht] at horder
  · exact .inl hdone
  · simp [hop] at hd
  · simp [hop] at hd
  · simp [hop] at hd
  · exact .inr hrst

/-! ### The measure of a phase -/

/-- The run from `s` comes to `done`. -/
def Finishes (s : State) : Prop := ∃ t, Leads s t ∧ Succeeded t

/-- A phase `q` of a COMPRESS whose steps lower the measure `left` until they go on to the phase `r`, which finishes. -/
theorem Quiet.finishes_by {q r : Phase} (left : State → Nat)
    (lowers : ∀ {u t}, Quiet u → u.phase = q → exec q.instr u = .next t → t.phase = q → left t < left u)
    (goesOn : ∀ {u t}, u.op = .comp → LeavesTo u q t → t.phase = r)
    (after : ∀ {t}, Quiet t → t.phase = r → t.op = .comp → Finishes t)
    (h : Quiet s) (hp : s.phase = q) (hop : s.op = .comp) : Finishes s := by
  have hreach : ReachesIn (left s + 1) s fun t => t.phase = r := by
    refine h.loop (I := fun m u => u.phase = q ∧ u.op = .comp ∧ m = left u) ?_ ⟨hp, hop, rfl⟩
    rintro m u t hq ⟨hpu, hopu, rfl⟩ he
    rw [hpu] at he
    obtain hstays | hleaves := exec_phase_next he
    · have hpt := hstays.trans hpu
      exact .inr ⟨_, lowers hq hpu he hpt, hpt, (exec_phase_keeps he).op.trans hopu, rfl⟩
    · exact .inl (goesOn hopu hleaves)
  obtain ⟨t, hl, hqt, hkeeps, hpt⟩ := hreach.leads
  obtain ⟨u, hl', hu⟩ := after hqt hpt (hkeeps.op.trans hop)
  exact ⟨u, hl.trans hl', hu⟩

/-! ### PACK and FINISH -/

/-- Every position of PACK and FINISH is one of those `PackLeft` counts down. -/
theorem packLeft_of_inv (h : Inv s) (hp : s.phase = .pack ∨ s.phase = .finish) : ∃ m, PackLeft m s := by
  have hpos := h.position
  obtain hp | hp := hp
  · cases hs : s.stage with
    | entry => exact ⟨_, .inl ⟨hp, hs, rfl⟩⟩
    | fetch =>
      simp only [PositionOk, hp, hs] at hpos
      have hb : BeforeByte s.work.pos.toNat s := by
        rw [BeforeByte, if_pos hpos.1]
        exact ⟨hp, hs, rfl⟩
      exact ⟨_, .inr (.inl ⟨_, hb, rfl⟩)⟩
    | push =>
      simp only [PositionOk, hp, hs] at hpos
      have hb : BeforeBit s.work.pos.toNat s.work.byte s.work.cidx.toNat s := by
        rw [BeforeBit, if_pos hpos.2.1]
        exact ⟨hp, hs, rfl, rfl, rfl⟩
      exact ⟨_, .inr (.inr (.inl ⟨_, _, _, hb, rfl⟩))⟩
    | _ => simp only [PositionOk, hp, hs] at hpos
  · cases hs : s.stage with
    | entry =>
      have hb : BeforeByte s.inLen.toNat s := by
        rw [BeforeByte, if_neg (Nat.lt_irrefl _)]
        exact ⟨hp, hs⟩
      exact ⟨_, .inr (.inl ⟨_, hb, rfl⟩)⟩
    | trailer => exact ⟨_, .inr (.inr (.inr ⟨hp, hs, rfl⟩))⟩
    | _ => simp only [PositionOk, hp, hs] at hpos

theorem pack_finishes (h : Quiet s) (hp : s.phase = .pack ∨ s.phase = .finish) : Finishes s := by
  obtain ⟨m, hm⟩ := packLeft_of_inv h.inv hp
  have hreach : ReachesIn (m + 1) s Succeeded := h.loop (I := PackLeft) (fun _ _ _ hq hI he => hI.next hq he) hm
  obtain ⟨t, hl, -, -, ht⟩ := hreach.leads
  exact ⟨t, hl, ht⟩

/-! ### CODEGEN -/

/-- The work of pending calls of `visit`: each node counts for more than its two children, whose indices are lower. -/
def visitWork (todo : List (BitVec 9 × List Bool)) : Nat := (todo.map fun x => 3 ^ x.1.toNat).sum

theorem visitWork_cons (x : BitVec 9 × List Bool) (todo : List (BitVec 9 × List Bool)) :
    visitWork (x :: todo) = 3 ^ x.1.toNat + visitWork todo := List.sum_cons

/-- The calls of `visit` still to make: at the start the root's. -/
def pendingVisits (s : State) : List (BitVec 9 × List Bool) :=
  match s.stage with
  | .visit todo => todo
  | _ => [(s.work.root, [])]

theorem three_pow_add_lt {l r n : Nat} (hl : l < n) (hr : r < n) : 3 ^ l + 3 ^ r < 3 ^ n := by
  obtain ⟨k, rfl⟩ : ∃ k, n = k + 1 := ⟨n - 1, by omega⟩
  have hl' : 3 ^ l ≤ 3 ^ k := Nat.pow_le_pow_right (by decide) (Nat.le_of_lt_succ hl)
  have hr' : 3 ^ r ≤ 3 ^ k := Nat.pow_le_pow_right (by decide) (Nat.le_of_lt_succ hr)
  have hk : 0 < 3 ^ k := Nat.pow_pos (by decide)
  rw [Nat.pow_succ]
  omega

theorem visitNode_lowers (hc : ChildrenBelow s.tab.node 511) (he : visitNode n p rest s = .next t)
    (ht : t.phase = .codegen) : visitWork (pendingVisits t) < visitWork ((n, p) :: rest) := by
  rw [visitWork_cons]
  unfold visitNode at he
  split at he
  · split at he
    · cases he
      cases rest with
      | nil => cases ht
      | cons x rest => exact Nat.lt_add_of_pos_left (Nat.pow_pos (by decide))
    · cases he
  · split at he
    · cases he
    · next l r hchildren =>
      cases he
      obtain ⟨-, h511⟩ := IsChild.parent_internal ⟨_, hchildren, .inl rfl⟩
      obtain ⟨hl, hr⟩ := hc n _ h511 hchildren
      have hlt : 3 ^ l.toNat + 3 ^ r.toNat < 3 ^ n.toNat := three_pow_add_lt hl hr
      calc visitWork ((l, p ++ [false]) :: (r, p ++ [true]) :: rest)
          = (3 ^ l.toNat + 3 ^ r.toNat) + visitWork rest := by rw [visitWork_cons, visitWork_cons, Nat.add_assoc]
        _ < 3 ^ n.toNat + visitWork rest := Nat.add_lt_add_right hlt _

theorem execCodegen_lowers (h : Quiet s) (hp : s.phase = .codegen) (he : execCodegen s = .next t)
    (ht : t.phase = .codegen) : visitWork (pendingVisits t) < visitWork (pendingVisits s) := by
  have hpos := h.inv.position
  cases hs : s.stage with
  | entry =>
    simp only [PositionOk, hp, hs] at hpos
    rw [execCodegen_eq_visitNode (.inl ⟨hs, rfl, rfl, rfl⟩)] at he
    simpa only [pendingVisits, hs] using visitNode_lowers hpos.2.children he ht
  | visit todo =>
    simp only [PositionOk, hp, hs] at hpos
    obtain ⟨-, htree, hne, -⟩ := hpos
    obtain ⟨⟨n, p⟩, rest, rfl⟩ := List.exists_cons_of_ne_nil hne
    rw [execCodegen_eq_visitNode (.inr hs)] at he
    simpa only [pendingVisits, hs] using visitNode_lowers htree.children he ht
  | _ => simp only [PositionOk, hp, hs] at hpos

theorem codegen_finishes (h : Quiet s) (hp : s.phase = .codegen) (hop : s.op = .comp) : Finishes s :=
  h.finishes_by (fun u => visitWork (pendingVisits u)) execCodegen_lowers (fun _ h => h)
    (fun hq hp _ => pack_finishes hq (.inl hp)) hp hop

/-! ### EMITHDR -/

theorem emitCountByte_outCnt {k : Fin 4} (h : Quiet s) (he : emitCountByte v k s = .next t) : t.outCnt = s.outCnt + 1 := by
  rw [emitCountByte, h.whenAccepted_eq] at he
  simp only at he
  split at he
  · cases he
    rfl
  split at he <;> cases he <;> rfl

theorem execEmithdr_lowers (h : Quiet s) (hp : s.phase = .emithdr) (he : execEmithdr s = .next t) :
    1024 - t.outCnt.toNat < 1024 - s.outCnt.toNat := by
  have hlt := outCnt_lt_of_emithdr h.inv hp
  have hout : t.outCnt = s.outCnt + 1 := by
    unfold execEmithdr at he
    split at he
    · exact emitCountByte_outCnt h he
    · exact emitCountByte_outCnt h he
    · cases he
  rw [hout, toNat_succ hlt (by decide)]
  omega

theorem emithdr_finishes (h : Quiet s) (hp : s.phase = .emithdr) (hop : s.op = .comp) : Finishes s :=
  h.finishes_by (fun u => 1024 - u.outCnt.toNat) (fun hq hp he _ => execEmithdr_lowers hq hp he) (fun _ h => h)
    codegen_finishes hp hop

/-! ### BUILD -/

/-- BUILD's steps still to come, or more: a round is 512 slots visited and a merge, and `LIVE` counts the rounds. -/
def buildLeft (s : State) : Nat :=
  match s.stage with
  | .entry => 513 * 256 + 512 + 256
  | .initLeaf => 513 * 256 + 512 + (256 - s.work.vidx.toNat)
  | .scanA _ => 513 * s.work.live.toNat + 256 + (256 - s.work.sidx.toNat)
  | .scanB _ => 513 * s.work.live.toNat + (256 - s.work.sidx.toNat)
  | .merge => 513 * s.work.live.toNat
  | _ => 0

theorem initLeaf_lowers (hv : v.toNat < 256) : buildLeft (initLeaf v s) < 513 * 256 + 512 + (256 - v.toNat) := by
  by_cases hlt : v.toNat < 255
  · obtain ⟨hst, hvidx, -⟩ := initLeaf_more (s := s) hlt
    simp only [buildLeft, hst, hvidx, vidx_succ hlt]
    omega
  · have h256 : (256 : BitVec 9).toNat = 256 := rfl
    have h0 : (0 : BitVec 9).toNat = 0 := rfl
    rw [initLeaf_last hlt]
    simp only [buildLeft, h256, h0]
    omega

theorem mergeStep_lowers (hlive : 2 ≤ s.work.live.toNat) (he : mergeStep s = .next t) :
    buildLeft t < 513 * s.work.live.toNat := by
  obtain ⟨_, _, -, -, -, rfl⟩ := mergeStep_inversion he
  have hpred : (s.work.live - 1).toNat = s.work.live.toNat - 1 :=
    BitVec.toNat_sub_of_le (show (1 : BitVec 9).toNat ≤ _ from Nat.le_of_succ_le hlive)
  have h0 : (0 : BitVec 9).toNat = 0 := rfl
  unfold nextMerge
  split
  · simp only [buildLeft, hpred, h0]
    omega
  · simp only [buildLeft]
    omega

theorem execBuild_lowers (h : Quiet s) (hp : s.phase = .build) (he : execBuild s = .next t) (ht : t.phase = .build) :
    buildLeft t < buildLeft s := by
  have hpos := h.inv.position
  have h0 : (0 : BitVec 9).toNat = 0 := rfl
  cases hs : s.stage with
  | entry =>
    simp only [execBuild, hs] at he
    cases he
    rw [show buildLeft s = 513 * 256 + 512 + 256 by rw [buildLeft, hs]]
    exact initLeaf_lowers (v := 0) (by decide)
  | initLeaf =>
    simp only [PositionOk, hp, hs] at hpos
    simp only [execBuild, hs] at he
    cases he
    rw [show buildLeft s = 513 * 256 + 512 + (256 - s.work.vidx.toNat) by rw [buildLeft, hs]]
    exact initLeaf_lowers hpos.2.1
  | scanA best =>
    simp only [PositionOk, hp, hs] at hpos
    simp only [execBuild, hs] at he
    have hsidx := hpos.2.2.sidx
    obtain ⟨_, -, ⟨-, rfl⟩ | ⟨-, b, -, rfl⟩⟩ := scanSlot_inversion he
    · simp only [buildLeft, hs, toNat_succ hsidx (show 256 < 2 ^ 9 by decide)]
      omega
    · simp only [buildLeft, foundA, hs, h0]
      omega
  | scanB best =>
    simp only [PositionOk, hp, hs] at hpos
    simp only [execBuild, hs] at he
    have hsidx := hpos.2.2.1.sidx
    obtain ⟨_, -, ⟨-, rfl⟩ | ⟨-, b, -, rfl⟩⟩ := scanSlot_inversion he
    · simp only [buildLeft, hs, toNat_succ hsidx (show 256 < 2 ^ 9 by decide)]
      omega
    · simp only [buildLeft, foundB, hs]
      omega
  | merge =>
    simp only [PositionOk, hp, hs] at hpos
    simp only [execBuild, hs] at he
    rw [show buildLeft s = 513 * s.work.live.toNat by rw [buildLeft, hs]]
    exact mergeStep_lowers hpos.2.2.1 he
  | root =>
    simp only [execBuild, hs] at he
    cases he
    exact absurd ht (takeRoot_phase_ne s)
  | _ => simp only [PositionOk, hp, hs] at hpos

theorem build_finishes (h : Quiet s) (hp : s.phase = .build) (hop : s.op = .comp) : Finishes s :=
  h.finishes_by buildLeft execBuild_lowers (fun hop h => h.trans (if_pos hop)) emithdr_finishes hp hop

/-! ### COUNT -/

/-- COUNT's steps still to come: one for each entry to clear and one for each byte to read. -/
def countLeft (s : State) : Nat :=
  match s.stage with
  | .entry => 256 + s.inLen.toNat
  | .clear => 256 - s.work.vidx.toNat + s.inLen.toNat
  | _ => s.inLen.toNat - s.work.pos.toNat

theorem clearEntry_lowers (hv : v.toNat < 256) (ht : (clearEntry v s).phase = .count) :
    countLeft (clearEntry v s) < 256 - v.toNat + s.inLen.toNat := by
  unfold clearEntry at ht ⊢
  simp only at ht ⊢
  split at ht
  · next hlt =>
    simp only [if_pos hlt, countLeft, vidx_succ hlt]
    omega
  · next hlast =>
    split at ht
    · cases ht
    · next hne =>
      simp only [if_neg hlast, if_neg hne, countLeft]
      omega

theorem execCount_lowers (h : Quiet s) (hp : s.phase = .count) (he : execCount s = .next t) (ht : t.phase = .count) :
    countLeft t < countLeft s := by
  have hpos := h.inv.position
  cases hs : s.stage with
  | entry =>
    simp only [execCount, hs] at he
    cases he
    rw [show countLeft s = 256 + s.inLen.toNat by rw [countLeft, hs]]
    exact clearEntry_lowers (v := 0) (by decide) ht
  | clear =>
    simp only [PositionOk, hp, hs] at hpos
    simp only [execCount, hs] at he
    cases he
    rw [show countLeft s = 256 - s.work.vidx.toNat + s.inLen.toNat by rw [countLeft, hs]]
    exact clearEntry_lowers hpos.2 ht
  | tally =>
    simp only [PositionOk, hp, hs] at hpos
    obtain ⟨-, hlt⟩ := hpos
    simp only [execCount, hs, tallyByte, h.inByte_eq _ hlt] at he
    split at he
    · cases he
      simp only [countLeft, hs, toNat_succ hlt s.inLen.isLt]
      omega
    · cases he
      cases ht
  | _ => simp only [PositionOk, hp, hs] at hpos

theorem count_finishes (h : Quiet s) (hp : s.phase = .count) (hop : s.op = .comp) : Finishes s :=
  h.finishes_by countLeft execCount_lowers (fun _ h => h) build_finishes hp hop

/-! ### The operation -/

theorem compress_finishes (h : Quiet s) (hb : s.phase ≠ .idle) (hop : s.op = .comp) : Finishes s := by
  cases hp : s.phase with
  | idle => exact absurd hp hb
  | count => exact count_finishes h hp hop
  | build => exact build_finishes h hp hop
  | emithdr => exact emithdr_finishes h hp hop
  | codegen => exact codegen_finishes h hp hop
  | pack => exact pack_finishes h (.inl hp)
  | finish => exact pack_finishes h (.inr hp)
  | loadhdr | rdtrailer | unpack | endcheck =>
    have hd := h.allows hp
    rw [hop] at hd
    cases hd

/-- Settles O18: no step raises, and the machine left to itself comes to `done`, as it does under a host that watches. -/
theorem compressNeverFails : Obligations.CompressNeverFails := by
  refine fun s h hb hop => ⟨fun t he => ⟨compress_not_raised h hb hop he, compress_leaves h hb hop he⟩, fun hw => ?_⟩
  obtain ⟨t, hl, hsucc⟩ := compress_finishes (.of_watched h hw) hb hop
  obtain ⟨reads, hleads⟩ := leads_watched hw.script hw.rst hl hsucc.1
  exact ⟨_, hleads, rfl, hsucc⟩

end Sys2Proof.Machine
end

section
/-!
PROOFS. The reset values and `rst` (70_reset_and_hazards.md R210, R211), the writes that are dropped (R216), and the
steps that wait at a silent port (R218).
-/
namespace Sys2Proof.Machine

variable {s : State} {rest : List HostMove}

/-! ### The values after reset -/

theorem status_eq_zero (hp : s.phase = .idle) (hd : s.done = false) (he : s.err = false) : s.status = 0 := by
  rw [State.status, (State.busy_eq_false_iff s).2 hp, hd, he]
  rfl

/-- Settles O16: the fields are written out in `State.reset`, and `STATUS` is 0 in IDLE with `DONE` and `ERR` 0. -/
theorem resetValues : Obligations.ResetValues :=
  ⟨rfl, rfl, rfl, rfl, rfl, rfl, rfl, status_eq_zero rfl rfl rfl⟩

/-- Settles O56: the byte spaces are empty, the flags are clear, no phase runs, and every entry of `CODE` is empty. -/
theorem resetMeetsInvariant : Obligations.ResetMeetsInvariant where
  inp_wf := Memory.wf_nil
  out_wf := Memory.wf_nil
  done_err := nofun
  no_err _ := rfl
  err_code := nofun
  rst_idle _ := rfl
  busy_clear hb := absurd rfl hb
  op := trivial
  len_high hb := absurd rfl hb
  len_low hb := absurd rfl hb
  code_len := codeLen_reset
  position := trivial

/-! ### Writes that are dropped -/

theorem State.regWrite_dropped (off v : Word) (h : s.phase ≠ .idle ∨ s.outside.rst = true) : s.regWrite off v = s := by
  have hdrop : (s.busy || s.outside.rst) = true := by rwa [Bool.or_eq_true, State.busy_iff]
  rw [State.regWrite, if_pos hdrop, ite_self]

/-- R80, R210: while an operation runs or `rst` is asserted a register write is the host's move and nothing else. -/
theorem step_of_dropped_write {off v : Word} (h : s.phase ≠ .idle ∨ s.outside.rst = true) (ha : off.toNat % 4 = 0)
    (hs : s.outside.script = .regWrite off 4 v :: rest) : step s = .next (s.withScript rest) := by
  by_cases h0 : off = 0x00
  · subst h0
    exact (step_of_wrCmd hs).trans (exec_cmd_dropped (s := s.withScript rest) v h)
  · rw [step_of_regWrite hs ha h0, State.regWrite_dropped (s := s.withScript rest) off v h]

/-- Settles O11: both registers are at aligned offsets, and a write while an operation runs is dropped. -/
theorem busyWritesLost : Obligations.BusyWritesLost := by
  intro s off v rest hb hoff hs
  have ha : off.toNat % 4 = 0 := by obtain rfl | rfl := hoff <;> decide
  exact step_of_dropped_write (.inl hb) ha hs

/-! ### The reset input -/

theorem step_of_rst {level : Bool} (hs : s.outside.script = .rst level :: rest) :
    step s = .next (if level then (s.withScript rest).assertReset else (s.withScript rest).releaseReset) :=
  step_of_fetch_moved (fetch_rst hs)

/-- R210: the sequencer's turn is no step while `rst` is asserted. -/
theorem step_of_held_turn {sc : List HostMove} (hr : s.outside.rst = true)
    (hf : fetch s = sequencerTurn (s.withScript sc)) : step s = .next (s.withScript sc) := by
  refine step_of_fetch_moved (hf.trans ?_)
  rw [sequencerTurn, State.withScript_outside, if_pos hr]

/-- Settles O15: `rst` leaves `assertReset`, while it is asserted neither a turn nor a write moves the block, and
`releaseReset` leaves PHASE alone. -/
theorem resetInput : Obligations.ResetInput := by
  refine fun s rest => ⟨fun hs => ?_, fun hr => ⟨fun hs => ?_, fun n hs => ?_, fun off v ha hs => ?_⟩, fun hs => ?_⟩
  · exact ⟨_, step_of_rst hs, rfl, rfl, rfl, rfl, rfl, rfl, rfl, status_eq_zero rfl rfl rfl, rfl⟩
  · exact step_of_held_turn (sc := s.outside.script) hr (fetch_nil hs)
  · exact step_of_held_turn hr (fetch_run_more hs)
  · exact step_of_dropped_write (.inr hr) ha hs
  · exact ⟨_, (runFor_succ 1 (step_of_rst hs)).trans (runFor_succ 0 (step_of_rst rfl)), rfl, rfl⟩

/-! ### Waiting at a silent port -/

/-- The step changes nothing, or it faults, which no state with the invariant comes to. -/
abbrev WaitsOrFaults (s : State) (r : Res) : Prop := Answers (fun t => t = s) (fun _ => True) r

theorem WaitsOrFaults.waits {r : Res} (h : WaitsOrFaults s r) (hf : Fine r) : r = .next s := by
  obtain ⟨t, rfl, -⟩ := hf
  exact congrArg _ h

section
variable (hi : s.outside.inAnswers = false)
include hi

theorem inByte_waits (a : Nat) (k : Byte → Res) : WaitsOrFaults s (inByte s a k) := by
  unfold inByte
  split
  · trivial
  · rw [if_neg (Bool.eq_false_iff.1 hi)]
    rfl

/-- Each step of LOADHDR holds one `InByte`, whichever byte of the entry is next (41_frequency_table.md R105). -/
theorem loadByte_waits (got : List Byte) : WaitsOrFaults s (loadByte got s) := by
  match got with
  | [] | [_] | [_, _] | [_, _, _] =>
    rw [loadByte]
    exact inByte_waits hi _ _
  | _ :: _ :: _ :: _ :: _ => trivial

theorem execLoadhdr_waits : WaitsOrFaults s (execLoadhdr s) := by
  unfold execLoadhdr
  split
  · exact inByte_waits hi _ _
  · exact loadByte_waits hi _
  · trivial

theorem execRdtrailer_waits : WaitsOrFaults s (execRdtrailer s) := by
  unfold execRdtrailer
  split
  · exact inByte_waits hi _ _
  · trivial

end

section
variable (ho : s.outside.outAccepts = false)
include ho

theorem whenAccepted_waits (k : Res) : whenAccepted s k = .next s := if_neg (Bool.eq_false_iff.1 ho)

theorem emitCountByte_waits (v : BitVec 9) (k : Fin 4) : emitCountByte v k s = .next s := whenAccepted_waits ho _

theorem execEmithdr_waits : WaitsOrFaults s (execEmithdr s) := by
  unfold execEmithdr
  split
  · rw [emitCountByte_waits ho]
    rfl
  · rw [emitCountByte_waits ho]
    rfl
  · trivial

theorem finishTrailer_waits : finishTrailer s = .next s := whenAccepted_waits ho _

/-- The data byte or, when there is none, the trailer (44_encoder.md R143). -/
theorem finishData_waits : finishData s = .next s := by
  unfold finishData
  split
  · exact finishTrailer_waits ho
  · split <;> exact whenAccepted_waits ho _

theorem execFinish_waits : WaitsOrFaults s (execFinish s) := by
  unfold execFinish
  split
  · rw [finishData_waits ho]
    rfl
  · rw [finishTrailer_waits ho]
    rfl
  · trivial

/-- PUSHBIT holds an `OutByte` where it flushes (44_encoder.md R141). -/
theorem packPush_waits (hf : s.work.free = 0) : WaitsOrFaults s (packPush s) := by
  unfold packPush
  split
  · trivial
  · rw [pushBit, if_pos hf, whenAccepted_waits ho]
    rfl

/-- WALK holds an `OutByte` where it emits (45_decoder.md R165). -/
theorem walkBit_waits (hroom : s.outCnt ≠ s.work.sum) {c : BitVec 9 × BitVec 9}
    (hc : s.tab.node.children? s.work.cur = some c) (hleaf : (childOf c s.work.byte.msb).toNat < 256) :
    walkBit s = .next s := by
  rw [walkBit, hc]
  simp only [if_pos hleaf, leaf, if_neg hroom, whenAccepted_waits ho]

end

/-- Settles O24: a step that holds a port transaction waits or faults while the port is silent, and from the invariant
no phase faults. -/
theorem portsWait : Obligations.PortsWait := by
  intro i s h hd
  cases (decode_phase s.phase).symm.trans hd
  have hfine := exec_phase_fine h hd
  refine ⟨fun hi hcase => WaitsOrFaults.waits ?_ hfine, fun ho hcase => WaitsOrFaults.waits ?_ hfine⟩
  · obtain hp | hp | ⟨hp, hs⟩ | ⟨hp | hp, hs⟩ := hcase <;> rw [hp]
    · exact execLoadhdr_waits hi
    · exact execRdtrailer_waits hi
    · simp only [Phase.instr, exec, execCount, hs]
      exact inByte_waits hi _ _
    · simp only [Phase.instr, exec, execPack, hs]
      exact inByte_waits hi _ _
    · simp only [Phase.instr, exec, execUnpack, hs]
      exact inByte_waits hi _ _
  · obtain hp | hp | ⟨hp, hs, hf⟩ | ⟨hp, hs, hroom, c, hc, hleaf⟩ := hcase <;> rw [hp]
    · exact execEmithdr_waits ho
    · exact execFinish_waits ho
    · simp only [Phase.instr, exec, execPack, hs]
      exact packPush_waits ho hf
    · simp only [Phase.instr, exec, execUnpack, hs, walkBit_waits ho hroom hc hleaf]
      rfl

end Sys2Proof.Machine
end
